-- ==== Sys2Proof/Word.lean ====
section
/-!
DEFINITION. The word types of SPB: a byte, a 32-bit word, a byte string of a fixed length and a block of words
(spec 00_scope R9, R10).
-/

namespace Sys2Proof

/-- A byte, an integer 0 to 255 (R9). -/
abbrev Byte := BitVec 8

/-- A word, an unsigned 32-bit integer (R10). -/
abbrev Word := BitVec 32

/-- A byte string of length n, byte 0 first (R9); also what a byte register holds (R12, R20). -/
abbrev Bytes (n : Nat) := Vector Byte n

/-- n words, word 0 first. -/
abbrev Words (n : Nat) := Vector Word n

end Sys2Proof
end

