-- ==== Sys2Proof/Syntax.lean ====
section
/-!
DEFINITION. The commands of SPB, one constructor per row of spec/opcode_table.json (spec 30_encoding R95).
-/

namespace Sys2Proof

/-- The twelve commands. A stream command carries its split offset OFF, the only immediate (R94), as the unsigned integer
the encoding gives it; `Instr.wellFormed` says 0 to 63. -/
inductive Instr where
  /-- NOP (R221). -/
  | nop
  /-- CORE (R128). -/
  | core
  /-- HSAL (R142). -/
  | hsal
  /-- S20.XOR with OFF (R160). -/
  | s20Xor (off : Nat)
  /-- S20.KS with OFF (R161). -/
  | s20Ks (off : Nat)
  /-- XS20.XOR with OFF (R162). -/
  | xs20Xor (off : Nat)
  /-- XS20.KS with OFF (R163). -/
  | xs20Ks (off : Nat)
  /-- P1305.AUTH (R191). -/
  | p1305Auth
  /-- P1305.VFY (R192). -/
  | p1305Vfy
  /-- CEQ16 (R212). -/
  | ceq16
  /-- CEQ32 (R213). -/
  | ceq32
  /-- SRST (R222). -/
  | srst
  deriving DecidableEq, Repr

/-- The offset a stream command carries; a format-N command has none, and 0 stands there (R105). -/
def Instr.off : Instr → Nat
  | .s20Xor off => off
  | .s20Ks off => off
  | .xs20Xor off => off
  | .xs20Ks off => off
  | .nop => 0
  | .core => 0
  | .hsal => 0
  | .p1305Auth => 0
  | .p1305Vfy => 0
  | .ceq16 => 0
  | .ceq32 => 0
  | .srst => 0

end Sys2Proof
end

