-- ==== Sys2Proof/WellFormed.lean ====
section
/-!
DEFINITION. Which commands can be encoded: OFF lies in 0 to 63 (spec 30_encoding R94, R105).
-/

namespace Sys2Proof

/-- "off defaults to 0, must be 0..63"; an offset outside that is an assembly error, not an encoding (R105). -/
def Instr.wellFormed (i : Instr) : Bool := decide (i.off ≤ 63)

end Sys2Proof
end

