-- ==== Sys2Proof/Decode.lean ====
section
/-!
DEFINITION. The decoder, total on every 32-bit word (spec 30_encoding R91 to R97), and after it the encoder (R95, R105).
-/

namespace Sys2Proof

/-- What the decoder makes of a word (R93): a command of the table, `illegal` (no such opcode, R96), or `reserved` (a
known opcode whose reserved field is not zero, R97). -/
inductive Decoded where
  | command (i : Instr)
  | illegal
  | reserved
  deriving DecidableEq, Repr

/-- OPC, bits 7:0 (R91, R92). -/
def opcField (w : Word) : BitVec 8 := w.extractLsb' 0 8

/-- OFF, bits 13:8 of format S, an unsigned integer (R92, R94). -/
def offField (w : Word) : Nat := (w.extractLsb' 8 6).toNat

/-- Bits 31:8, the reserved field of format N (R91). -/
def reservedN (w : Word) : BitVec 24 := w.extractLsb' 8 24

/-- Bits 31:14, the reserved field of format S (R92). -/
def reservedS (w : Word) : BitVec 18 := w.extractLsb' 14 18

/-- A word of format N (R91): its reserved field must be zero (R97). -/
def decodeN (w : Word) (i : Instr) : Decoded :=
  if reservedN w = 0 then .command i else .reserved

/-- A word of format S (R92): its reserved field must be zero (R97); the command takes OFF. -/
def decodeS (w : Word) (form : Nat → Instr) : Decoded :=
  if reservedS w = 0 then .command (form (offField w)) else .reserved

/-- The decoder (R93), by the opcode map of R95. -/
def decode (w : Word) : Decoded :=
  if opcField w = 0x00 then decodeN w .nop
  else if opcField w = 0x01 then decodeN w .core
  else if opcField w = 0x02 then decodeN w .hsal
  else if opcField w = 0x10 then decodeS w .s20Xor
  else if opcField w = 0x11 then decodeS w .s20Ks
  else if opcField w = 0x12 then decodeS w .xs20Xor
  else if opcField w = 0x13 then decodeS w .xs20Ks
  else if opcField w = 0x20 then decodeN w .p1305Auth
  else if opcField w = 0x21 then decodeN w .p1305Vfy
  else if opcField w = 0x30 then decodeN w .ceq16
  else if opcField w = 0x31 then decodeN w .ceq32
  else if opcField w = 0x7F then decodeN w .srst
  else .illegal

/-- The command word whose bits are w, of which the opcode table gives nbits; the bits above are zero. A command is one
32-bit word (R90). -/
def tableWord (nbits w : Nat) : Word := BitVec.ofNat 32 (w % 2 ^ nbits)

/-- The command the decoder reads from the word with bits w. -/
def decodeTableWord (nbits w : Nat) : Option Instr :=
  match decode (tableWord nbits w) with
  | .command i => some i
  | .illegal => none
  | .reserved => none

/-- The opcode of each command (R95). -/
def Instr.opcode : Instr → Nat
  | .nop => 0x00
  | .core => 0x01
  | .hsal => 0x02
  | .s20Xor _ => 0x10
  | .s20Ks _ => 0x11
  | .xs20Xor _ => 0x12
  | .xs20Ks _ => 0x13
  | .p1305Auth => 0x20
  | .p1305Vfy => 0x21
  | .ceq16 => 0x30
  | .ceq32 => 0x31
  | .srst => 0x7F

/-- The encoder: "w = OPC + 256*off (off = 0 for format N)" (R105). -/
def encode (i : Instr) : Word := BitVec.ofNat 32 (i.opcode + 256 * i.off)

/-- The encoder with its one error: an offset outside 0 to 63 is an assembly error (R105). -/
def assemble (i : Instr) : Option Word := if i.wellFormed then some (encode i) else none

end Sys2Proof
end

