-- ==== Sys2Proof/Config.lean ====
section
/-!
DEFINITION. The constants of the hardware (spec 00_scope R8, R15; 10_state R30), the value the model names for the open
parameter DMEM_BYTES, and the one free value (70_reset_and_hazards R263).
-/

namespace Sys2Proof.Config

/-- SIGMA, the 16 ASCII bytes of "expand 32-byte k" (R15). Hardwired; the CONST register is a separate thing. -/
def sigma : Bytes 16 :=
  #v[0x65, 0x78, 0x70, 0x61, 0x6e, 0x64, 0x20, 0x33, 0x32, 0x2d, 0x62, 0x79, 0x74, 0x65, 0x20, 0x6b]

/-- The value of the ID register (R30). -/
def idValue : Word := 0x58533230

/-- The Poly1305 modulus P = 2^130 - 5 (R15). -/
def prime : Nat := 2 ^ 130 - 5

/-- MINUSP, the 17 limbs that represent -P (R15). -/
def minusP : List Nat := [5, 0, 0, 0, 0, 0, 0, 0, 0, 0, 0, 0, 0, 0, 0, 0, 0xFC]

/-- The size of DMEM in `State.reset`. DMEM_BYTES is OPEN in the spec (R8, R61): every state carries its own size, and
only `State.reset` takes this one, the size of the spec's test vectors. DESIGN CHOICE, unsafe for a statement about
`State.reset` alone (log 3). -/
def dmemBytes : Nat := 4096

/-- FREE VALUE (R263, 93 U13; log 4). When a hardware reset cuts short the n-th command so cut, the byte at address a of
that command's destination buffer keeps its old value if `abortKeepsOld n a` is true, and has the value the command would
have written otherwise. No body: nothing can be proved of its values. -/
opaque abortKeepsOld : Nat → Nat → Bool

end Sys2Proof.Config
end

