-- ==== Sys2Proof/Machine/State.lean ====
section
/-!
DEFINITION. The state of SPB (spec 10_state R20 to R39), the host's transactions (30_encoding R110, 70 R278), the reasons
a step stops, and the state after reset (10_state R43).
-/

namespace Sys2Proof.Machine

/-- What a read of the host yields (R110). -/
inductive HostRead where
  | word (w : Word)
  | byte (b : Byte)
  deriving DecidableEq, Repr

/-- One transaction of the host (R110), a hardware reset (R263, R278), or a move of the host inside its own program: the
test of a value it has read and the jump over the part not taken (R110), which reach no part of the block (log 12). -/
inductive HostTxn where
  /-- Register write of `value` at window offset `off`, an access of `size` bytes; only aligned accesses of 4 bytes have a
  meaning (R41). A write to CMD starts a command (R32). -/
  | regWrite (size : Nat) (off : BitVec 12) (value : Word)
  /-- Register read at window offset `off`, an access of `size` bytes (R41). -/
  | regRead (size : Nat) (off : BitVec 12)
  /-- The host writes one byte of DMEM (R72). -/
  | memWrite (addr : Nat) (value : Byte)
  /-- The host reads one byte of DMEM (R72). -/
  | memRead (addr : Nat)
  /-- A hardware reset while no command runs (R260). -/
  | reset
  /-- The host writes `word` to CMD and a hardware reset cuts the command short (R263). -/
  | resetDuring (word : Word)
  /-- The host tests a value it has read (R110): the read `ago` reads before its last one, against `value`. If that read
  yielded another value, or there is none, the host goes on after the next `count` entries of its list. -/
  | test (ago : Nat) (value : HostRead) (count : Nat)
  /-- The host goes on after the next `count` entries of its list: the end of a `then` part (R110). -/
  | skip (count : Nat)
  deriving DecidableEq, Repr

/-- Reasons the machine stops with a fault. -/
inductive Fault where
  /-- Raised by the host's DMEM byte read and write (`hostMemRead`, `hostMemWrite`) at an address that does not exist: DMEM
  has addresses 0 to DMEM_BYTES - 1 only (R61). Safe: the model stops, and nothing is claimed of such an access. No
  command raises it: a buffer outside DMEM is refused with E_RANGE, a next state (R66). -/
  | hostOutsideDmem
  deriving DecidableEq, Repr

/-- Reasons the model has no move. -/
inductive Refusal where
  /-- Raised by exec's arm of an instruction that has no meaning yet; no arm raises it now. Safe. -/
  | notModelled (mnemonic : String)
  /-- Raised by the host's register read and write (`hostRegRead`, `hostRegWrite`) for an access that is not an aligned
  32-bit one, which has no meaning: "the model refuses it" (R41, 93 U17). Safe. -/
  | unalignedRegisterAccess
  deriving DecidableEq, Repr

/-- DMEM as plain data: the bytes that differ from what an unlisted address reads as, addresses strictly rising. -/
abbrev Dmem := List Host.Cell

/-- The state of SPB. The first sixteen fields are the architectural state, exactly as R20 lists it; `dmemBytes` is the
parameter DMEM_BYTES; the last three are the model's own (log 1, log 4). -/
structure State where
  /-- KEY (R21). -/
  key : Bytes 32
  /-- IN (R22). -/
  inp : Bytes 16
  /-- NONCE (R23). -/
  nonce : Bytes 24
  /-- CONST (R24). -/
  const : Bytes 16
  /-- OUT (R25). -/
  out : Bytes 64
  /-- PKEY (R26). -/
  pkey : Bytes 32
  /-- TAG (R27). -/
  tag : Bytes 16
  /-- TAGX (R28). -/
  tagx : Bytes 16
  /-- CA (R29). -/
  ca : Bytes 32
  /-- CB (R29). -/
  cb : Bytes 32
  /-- SRC (R34). -/
  src : Word
  /-- DST (R34). -/
  dst : Word
  /-- LEN (R34). -/
  len : Word
  /-- STATUS.EQ (R31, R35). -/
  statusEq : Bool
  /-- STATUS.ERR (R31, R36). -/
  statusErr : BitVec 4
  /-- DMEM (R39). -/
  dmem : Dmem
  /-- DMEM_BYTES, the size of DMEM; no step changes it (R8, R61). -/
  dmemBytes : Nat
  /-- The host's transactions still to come, in order (R73, R110). Empty: the block is idle (R250). -/
  pending : List HostTxn
  /-- What the host's reads have yielded, oldest first (R110). -/
  reads : List HostRead
  /-- How many commands a hardware reset has cut short; only the free value of R263 is read with it. -/
  aborts : Nat
  deriving DecidableEq, Repr

/-- The machine launched with a DMEM of `size` bytes that holds `contents`: "a model takes the initial DMEM as an
argument of the launch" (R262); the registers at the values of R43. -/
def State.powerOn (size : Nat) (contents : Dmem) : State where
  key := Vector.replicate 32 0
  inp := Vector.replicate 16 0
  nonce := Vector.replicate 24 0
  const := Config.sigma
  out := Vector.replicate 64 0
  pkey := Vector.replicate 32 0
  tag := Vector.replicate 16 0
  tagx := Vector.replicate 16 0
  ca := Vector.replicate 32 0
  cb := Vector.replicate 32 0
  src := 0
  dst := 0
  len := 0
  statusEq := false
  statusErr := 0
  dmem := contents
  dmemBytes := size
  pending := []
  reads := []
  aborts := 0

/-- The machine right after reset, with nothing listed in DMEM: the state the spec's vectors call fresh (95). -/
def State.reset : State := State.powerOn Config.dmemBytes []

end Sys2Proof.Machine
end

