-- ==== Sys2Proof/Machine/Ops.lean ====
section
/-!
DEFINITION. The named operations over bytes, words, DMEM and registers (spec 00_scope R9 to R14; 20_memory), the refusal
of a command and the return from it (60_exceptions R231 to R242), and the reset of the registers (10_state R43).
-/

namespace Sys2Proof.Machine

/-! ### Bytes and words -/

/-- `le32` of four bytes (R10). -/
def le32 (b0 b1 b2 b3 : Byte) : Word :=
  BitVec.ofNat 32 (b0.toNat + 2 ^ 8 * b1.toNat + 2 ^ 16 * b2.toNat + 2 ^ 24 * b3.toNat)

/-- Byte i of `st32(w)`: bits 8i+7 down to 8i of w (R10). -/
def st32Byte (w : Word) (i : Nat) : Byte := w.extractLsb' (8 * i) 8

/-- `le` of a byte string of any length, an unbounded natural (R10). -/
def le : List Byte → Nat
  | [] => 0
  | b :: bs => b.toNat + 256 * le bs

/-- `st_n(v)`: the n-byte string with `le(st_n(v)) = v mod 2^(8n)` (R10). Irreducible as `putWord` is. -/
@[irreducible] def stBytes (n : Nat) (v : Nat) : Bytes n := Vector.ofFn fun i => BitVec.ofNat 8 (v / 256 ^ i.val)

/-- `rotl32(w, n) = ((w * 2^n) mod 2^32) + floor(w / 2^(32-n))` for 1 <= n <= 31 (R11). -/
def rotl32 (w : Word) (n : Nat) : Word := (w <<< n) ||| (w >>> (32 - n))

/-- Word k of a byte string, `le32(B[4k..4k+3])` (R10, R41). -/
def wordAt {n : Nat} (b : Bytes n) (k : Nat) : Word :=
  le32 (b.getD (4 * k) 0) (b.getD (4 * k + 1) 0) (b.getD (4 * k + 2) 0) (b.getD (4 * k + 3) 0)

/-- The byte string with `B[4k..4k+3] <- st32(w)` and the other bytes as they were (R41). Irreducible so that no
comparison of states unfolds it; `unfold`, `simp` and the kernel do. -/
@[irreducible] def putWord {n : Nat} (b : Bytes n) (k : Nat) (w : Word) : Bytes n :=
  Vector.ofFn fun i => if i.val / 4 = k then st32Byte w (i.val % 4) else b[i]

/-- The words of x stored one after another, each by `st32` (R10). Irreducible as `putWord` is. -/
@[irreducible] def storeWords {m : Nat} (x : Words m) : Bytes (4 * m) :=
  Vector.ofFn fun i => st32Byte (x[i.val / 4]'(by have := i.isLt; omega)) (i.val % 4)

/-- The byte string `B[start .. start+len-1]` (R9). Irreducible as `putWord` is. -/
@[irreducible] def slice {n : Nat} (b : Bytes n) (start len : Nat) : Bytes len := Vector.ofFn fun i => b.getD (start + i.val) 0

/-- n zero bytes. Irreducible as `putWord` is. -/
@[irreducible] def zeroBytes (n : Nat) : Bytes n := Vector.replicate n 0

/-! ### DMEM -/

/-- What an address reads as that memory does not list. The spec leaves the power-on contents of DMEM open (R39, R262);
which bytes a state lists says what its DMEM holds (log 2). DESIGN CHOICE, unsafe for `State.reset` only. -/
def Dmem.unlisted (_a : Nat) : Byte := 0

/-- The byte at address a. -/
def Dmem.read : Dmem → Nat → Byte
  | [], a => Dmem.unlisted a
  | (k, b) :: m, a => if k = a then b else Dmem.read m a

/-- Memory without any entry for address a. -/
def Dmem.remove : Dmem → Nat → Dmem
  | [], _ => []
  | (k, b) :: m, a => if k = a then Dmem.remove m a else (k, b) :: Dmem.remove m a

/-- Memory with the entry (a, v) put before the first entry of a greater address. -/
def Dmem.place : Dmem → Nat → Byte → Dmem
  | [], a, v => [(a, v)]
  | (k, b) :: m, a, v => if a < k then (a, v) :: (k, b) :: m else (k, b) :: Dmem.place m a v

/-- The byte v written at address a; writing what an unlisted address reads as removes the entry. -/
def Dmem.write (m : Dmem) (a : Nat) (v : Byte) : Dmem :=
  if v = Dmem.unlisted a then Dmem.remove m a else Dmem.place (Dmem.remove m a) a v

/-- `MemRead(addr, n)` (R13). -/
def Dmem.readBytes (m : Dmem) (addr n : Nat) : List Byte := (List.range n).map fun i => Dmem.read m (addr + i)

/-- `MemWrite(addr, n, B)`: `DMEM[addr+i] <- B[i]` for 0 <= i < n (R13). -/
def Dmem.writeBytes : Dmem → Nat → List Byte → Dmem
  | m, _, [] => m
  | m, addr, b :: bs => Dmem.writeBytes (Dmem.write m addr b) (addr + 1) bs

/-- The canonical form of memory: addresses strictly rising, and no entry equal to what an unlisted address reads as. -/
abbrev Dmem.wf (m : Dmem) : Prop :=
  m.Pairwise (fun c d => c.1 < d.1) ∧ ∀ c ∈ m, c.2 ≠ Dmem.unlisted c.1

/-- Every listed address lies below n. -/
abbrev Dmem.below (m : Dmem) (n : Nat) : Prop := ∀ c ∈ m, c.1 < n

/-- The DMEM a hardware reset leaves that cuts the n-th such command short (R263): each of the len bytes from dst on keeps
its old value or has the new one, by the free value `Config.abortKeepsOld`; no other byte is affected. -/
def Dmem.abortMix (n : Nat) (old new : Dmem) (dst len : Nat) : Dmem :=
  Dmem.writeBytes old dst ((List.range len).map fun i =>
    if Config.abortKeepsOld n (dst + i) then Dmem.read old (dst + i) else Dmem.read new (dst + i))

/-! ### Updates of State by name -/

/-- `OUT <- b`. -/
def State.setOut (s : State) (b : Bytes 64) : State := { s with out := b }

/-- `TAG <- b`. -/
def State.setTag (s : State) (b : Bytes 16) : State := { s with tag := b }

/-- `STATUS.EQ <- e`. -/
def State.setEq (s : State) (e : Bool) : State := { s with statusEq := e }

/-- DMEM with a byte string written from addr on (`MemWrite`, R13). -/
def State.memWrite (s : State) (addr : Nat) (bs : List Byte) : State := { s with dmem := Dmem.writeBytes s.dmem addr bs }

/-- The host's record of reads with one more. -/
def State.pushRead (s : State) (r : HostRead) : State := { s with reads := s.reads ++ [r] }

/-- The host's list without the transactions before `rest`. -/
def State.setPending (s : State) (rest : List HostTxn) : State := { s with pending := rest }

/-! ### Refusing a command, and the return from a refusal -/

/-- The refusal codes (R231). -/
inductive RefuseCode where
  /-- 1, E_OPCODE (R232). -/
  | opcode
  /-- 2, E_FIELD (R233). -/
  | field
  /-- 3, E_RANGE (R234). -/
  | range
  /-- 4, E_OVERLAP (R235). -/
  | overlap
  deriving DecidableEq, Repr

/-- The value STATUS.ERR takes (R231). -/
def RefuseCode.err : RefuseCode → BitVec 4
  | .opcode => 1
  | .field => 2
  | .range => 3
  | .overlap => 4

/-- "The block is locked when STATUS.ERR != 0" (R237). -/
def State.locked (s : State) : Bool := s.statusErr != 0

/-- `raise Refuse(code)` (R14, R236): ERR takes the code if it was 0 and is kept otherwise (R36, R237), EQ becomes 0, and
nothing else changes. The one operation by which a command is refused with a code. -/
def State.refuse (s : State) (code : RefuseCode) : State :=
  { s with statusErr := if s.statusErr = 0 then code.err else s.statusErr, statusEq := false }

/-- What a refusal because the block is locked does: "STATUS.EQ <- 0; ERR unchanged; nothing else" (R237). -/
def State.refuseLocked (s : State) : State := { s with statusEq := false }

/-- The return from a refusal: a host write of any value to STATUS makes ERR and EQ 0 (R31, R242). -/
def State.clearStatus (s : State) : State := { s with statusErr := 0, statusEq := false }

/-- Every register to its reset value, DMEM unchanged (R43, R222, R260, R261); the host's own fields are not the
block's and stay. -/
def State.resetRegisters (s : State) : State :=
  { s with
    key := zeroBytes 32, inp := zeroBytes 16, nonce := zeroBytes 24, const := Config.sigma, out := zeroBytes 64,
    pkey := zeroBytes 32, tag := zeroBytes 16, tagx := zeroBytes 16, ca := zeroBytes 32, cb := zeroBytes 32,
    src := 0, dst := 0, len := 0, statusEq := false, statusErr := 0 }

/-- What every command but SRST does first: a locked block refuses it (R237, R238 (1)). -/
def unlessLocked (s : State) (run : Host.Outcome State Fault Refusal) : Host.Outcome State Fault Refusal :=
  if s.locked then .next s.refuseLocked else run

end Sys2Proof.Machine
end

