-- ==== Sys2Proof/Machine/Control.lean ====
section
/-!
DEFINITION. The control commands NOP and SRST (spec 45_control R221, R222).
-/

namespace Sys2Proof.Machine

/-- NOP (R221): nothing. -/
def execNop (s : State) : Host.Outcome State Fault Refusal := unlessLocked s (.next s)

/-- SRST (R222): every register to its reset value, DMEM unchanged; the one command that runs while locked (R237). -/
def execSrst (s : State) : Host.Outcome State Fault Refusal := .next s.resetRegisters

end Sys2Proof.Machine
end

