-- ==== Sys2Proof/Machine/Flags.lean ====
section
/-!
DEFINITION. The one flag, STATUS.EQ: how the comparator computes it (spec 44_cteq R211; 10_state R31, R35).
-/

namespace Sys2Proof.Machine

/-- The comparator's accumulator: the OR over every position of the XOR of the two bytes (R211). -/
def ctAccumulate : List Byte → List Byte → Byte
  | a :: as, b :: bs => (a ^^^ b) ||| ctAccumulate as bs
  | [], _ => 0
  | _, [] => 0

/-- One branch-free way R211 gives to turn the accumulator into the result: `((acc - 1) >> 8) & 1` on 32-bit unsigned
words. -/
def ctResultBit (acc : Byte) : Word := ((acc.setWidth 32 - 1) >>> 8) &&& 1

/-- `ct_equal(a, b, n)`: 1 iff the accumulator is zero (R211). -/
def ctEqual {n : Nat} (a b : Bytes n) : Bool := ctAccumulate a.toList b.toList == 0

/-- What a host read of STATUS returns: `EQ + 16*ERR` (R31). -/
def State.statusWord (s : State) : Word := BitVec.ofNat 32 (s.statusEq.toNat + 16 * s.statusErr.toNat)

end Sys2Proof.Machine
end

