-- ==== Sys2Proof/Machine/Cteq.lean ====
section
/-!
DEFINITION. The comparator commands CEQ16 and CEQ32 (spec 44_cteq R212, R213).
-/

namespace Sys2Proof.Machine

/-- CEQ16 (R212): `STATUS.EQ <- ct_equal(CA[0..15], CB[0..15], 16)`. -/
def execCeq16 (s : State) : Host.Outcome State Fault Refusal :=
  unlessLocked s (.next (s.setEq (ctEqual (slice s.ca 0 16) (slice s.cb 0 16))))

/-- CEQ32 (R213): `STATUS.EQ <- ct_equal(CA[0..31], CB[0..31], 32)`. -/
def execCeq32 (s : State) : Host.Outcome State Fault Refusal :=
  unlessLocked s (.next (s.setEq (ctEqual s.ca s.cb)))

end Sys2Proof.Machine
end

