-- ==== Sys2Proof/Machine/Operands.lean ====
section
/-!
DEFINITION. The operands of a command: the DMEM buffers that SRC, DST and LEN name, and the checks made on them before
any access (spec 20_memory R65 to R69).
-/

namespace Sys2Proof.Machine

/-- A buffer of len bytes at base does not lie inside a DMEM of size bytes; a buffer of no bytes always does (R66, R68).
Arithmetic on unbounded integers, so no wrap (R65). -/
def outsideDmem (size base len : Nat) : Bool := decide (0 < len ∧ size < base + len)

/-- Two buffers of len bytes share a byte without being the same buffer (R67). -/
def partlyOverlap (src dst len : Nat) : Bool :=
  decide (0 < len ∧ src ≠ dst ∧ ((src : Int) - (dst : Int)).natAbs < len)

/-- The source buffer `DMEM[SRC .. SRC+LEN-1]` leaves DMEM (R66). -/
def State.sourceOutside (s : State) : Bool := outsideDmem s.dmemBytes s.src.toNat s.len.toNat

/-- The destination buffer `DMEM[DST .. DST+LEN-1]` leaves DMEM (R66). -/
def State.destOutside (s : State) : Bool := outsideDmem s.dmemBytes s.dst.toNat s.len.toNat

/-- Source and destination overlap in part (R67). -/
def State.buffersOverlap (s : State) : Bool := partlyOverlap s.src.toNat s.dst.toNat s.len.toNat

/-- The bytes of the source buffer (R13, R70). -/
def State.sourceBytes (s : State) : List Byte := Dmem.readBytes s.dmem s.src.toNat s.len.toNat

/-- The checks of a stream command in the order of R69 and R151: source range, destination range, overlap; the first that
fails gives the code. A .KS command has no source, and SRC is not looked at. -/
def State.streamCheck (s : State) (srcGiven : Bool) : Option RefuseCode :=
  if srcGiven && s.sourceOutside then some .range
  else if s.destOutside then some .range
  else if srcGiven && s.buffersOverlap then some .overlap
  else none

/-- The check of a Poly1305 command: source range only; DST is not looked at (R66, R191). -/
def State.messageCheck (s : State) : Option RefuseCode :=
  if s.sourceOutside then some .range else none

end Sys2Proof.Machine
end

