-- ==== Sys2Proof/Machine/Poly1305.lean ====
section
/-!
DEFINITION. Poly1305 by its canonical definition on integers, and the commands P1305.AUTH and P1305.VFY (spec
43_poly1305 R180 to R183, R191 to R195). "Rule R183 wins" over the limb procedure of Machine/PolyLimbs.lean.
-/

namespace Sys2Proof.Machine

/-- Byte i of the clamped first half of the key (R181). -/
def clampByte (i : Nat) (b : Byte) : Byte :=
  if i = 3 ∨ i = 7 ∨ i = 11 ∨ i = 15 then b &&& 0x0F
  else if i = 4 ∨ i = 8 ∨ i = 12 then b &&& 0xFC
  else b

/-- The clamped first half of the key (R181). -/
def clampedBytes (key : Bytes 32) : Bytes 16 := Vector.ofFn fun i => clampByte i.val (key.getD i.val 0)

/-- r (R181). -/
def polyR (key : Bytes 32) : Nat := le (clampedBytes key).toList

/-- s, the second half of the key (R181). -/
def polyS (key : Bytes 32) : Nat := le (slice key 16 16).toList

/-- The message cut into chunks of 16 bytes, the last one perhaps shorter; ceil(len / 16) of them (R182). -/
def chunks (msg : List Byte) : List (List Byte) :=
  (List.range ((msg.length + 15) / 16)).map fun i => (msg.drop (16 * i)).take 16

/-- The number a chunk adds: `le(chunk || 0x01)` (R182). -/
def chunkValue (chunk : List Byte) : Nat := le (chunk ++ [0x01])

/-- One chunk of the canonical definition: `h <- ((h + n) * r) mod P` (R183). -/
def polyStep (r h : Nat) (chunk : List Byte) : Nat := ((h + chunkValue chunk) * r) % Config.prime

/-- The accumulator after the whole message (R183). -/
def polyAccumulate (r : Nat) (msg : List Byte) : Nat := (chunks msg).foldl (polyStep r) 0

/-- `poly1305_tag(message, key32)` (R183). -/
def poly1305Tag (msg : List Byte) (key : Bytes 32) : Bytes 16 :=
  stBytes 16 ((polyAccumulate (polyR key) msg + polyS key) % 2 ^ 128)

/-- The frame of the two Poly1305 commands: locked, the range check, then the effect on the tag of the message. -/
def execPoly (finish : Bytes 16 → State) (s : State) : Host.Outcome State Fault Refusal :=
  unlessLocked s
    (match s.messageCheck with
     | some code => .next (s.refuse code)
     | none => .next (finish (poly1305Tag s.sourceBytes s.pkey)))

/-- P1305.AUTH (R191): `TAG <- poly1305_tag(msg, PKEY)`. -/
def execP1305Auth (s : State) : Host.Outcome State Fault Refusal := execPoly (fun t => s.setTag t) s

/-- P1305.VFY (R192): EQ takes the comparison of the tag with TAGX, and TAG becomes zero. -/
def execP1305Vfy (s : State) : Host.Outcome State Fault Refusal :=
  execPoly (fun t => (s.setEq (ctEqual t s.tagx)).setTag (zeroBytes 16)) s

end Sys2Proof.Machine
end

