-- ==== Sys2Proof/Machine/Salsa20.lean ====
section
/-!
DEFINITION. Salsa20Core and HSalsa20, and the commands CORE and HSAL (spec 40_salsa20core R120 to R130; 41_hsalsa20 R140
to R145).
-/

namespace Sys2Proof.Machine

/-- The sixteen words of the 4x4 state matrix from input, key and constant (R121). -/
def loadState (input : Bytes 16) (key : Bytes 32) (const : Bytes 16) : Words 16 :=
  #v[wordAt const 0, wordAt key 0, wordAt key 1, wordAt key 2,
     wordAt key 3, wordAt const 1, wordAt input 0, wordAt input 1,
     wordAt input 2, wordAt input 3, wordAt const 2, wordAt key 4,
     wordAt key 5, wordAt key 6, wordAt key 7, wordAt const 3]

/-- The four words of a quarter-round. -/
structure Quarter where
  a : Word
  b : Word
  c : Word
  d : Word
  deriving DecidableEq, Repr

/-- The four lines of the quarter-round, each using the results of the lines before it (R122). -/
def quarter (q : Quarter) : Quarter :=
  let b := q.b ^^^ rotl32 (q.a + q.d) 7
  let c := q.c ^^^ rotl32 (b + q.a) 9
  let d := q.d ^^^ rotl32 (c + b) 13
  let a := q.a ^^^ rotl32 (d + c) 18
  ⟨a, b, c, d⟩

/-- `qr(x, a, b, c, d)`: the quarter-round on four different positions of x (R122). -/
def qr (x : Words 16) (a b c d : Fin 16) : Words 16 :=
  let q := quarter ⟨x[a], x[b], x[c], x[d]⟩
  (((x.set a q.a).set b q.b).set c q.c).set d q.d

/-- The column round (R123). -/
def colround (x : Words 16) : Words 16 :=
  qr (qr (qr (qr x 0 4 8 12) 5 9 13 1) 10 14 2 6) 15 3 7 11

/-- The row round (R124). -/
def rowround (x : Words 16) : Words 16 :=
  qr (qr (qr (qr x 0 1 2 3) 5 6 7 4) 10 11 8 9) 15 12 13 14

/-- n double-rounds: a column round, then a row round (R125). -/
def doubleRounds : Nat → Words 16 → Words 16
  | 0, z => z
  | n + 1, z => doubleRounds n (rowround (colround z))

/-- The 20 rounds: 10 double-rounds (R125). -/
def rounds20 (x : Words 16) : Words 16 := doubleRounds 10 x

/-- `salsa20_core(input16, key32, const16)`: the rounds, then the feed-forward, each word stored by `st32` (R126).
Irreducible so that no comparison of states unfolds it; `unfold`, `simp` and the kernel do. -/
@[irreducible] def salsa20Core (input : Bytes 16) (key : Bytes 32) (const : Bytes 16) : Bytes 64 :=
  let x := loadState input key const
  let z := rounds20 x
  storeWords (Vector.ofFn fun i : Fin 16 => z[i] + x[i])

/-- The positions HSalsa20 takes its eight words from, in order (R141). -/
def hsalsaIndex : Vector (Fin 16) 8 := #v[0, 5, 10, 15, 6, 7, 8, 9]

/-- `hsalsa20(nonce16, key32, const16)`: the rounds without the feed-forward, eight words of the result (R141).
Irreducible as the core is. -/
@[irreducible] def hsalsa20 (nonce : Bytes 16) (key : Bytes 32) (const : Bytes 16) : Bytes 32 :=
  let z := rounds20 (loadState nonce key const)
  storeWords (Vector.ofFn fun j : Fin 8 => z[hsalsaIndex[j]])

/-- A 32-byte result in `OUT[0..31]` and zero in `OUT[32..63]` (R142). Irreducible as the core is. -/
@[irreducible] def widenOut (b : Bytes 32) : Bytes 64 := Vector.ofFn fun i => b.getD i.val 0

/-- CORE (R128): `OUT[0..63] <- salsa20_core(IN, KEY, CONST)`. -/
def execCore (s : State) : Host.Outcome State Fault Refusal :=
  unlessLocked s (.next (s.setOut (salsa20Core s.inp s.key s.const)))

/-- HSAL (R142): `OUT[0..31] <- hsalsa20(IN, KEY, CONST)`, `OUT[32..63] <- 0`. -/
def execHsal (s : State) : Host.Outcome State Fault Refusal :=
  unlessLocked s (.next (s.setOut (widenOut (hsalsa20 s.inp s.key s.const))))

end Sys2Proof.Machine
end

