-- ==== Sys2Proof/Machine/Stream.lean ====
section
/-!
DEFINITION. Salsa20Stream and XSalsa20Stream, and the commands S20.XOR, S20.KS, XS20.XOR and XS20.KS (spec 42_stream R150
to R167).
-/

namespace Sys2Proof.Machine

/-- The input block of keystream block j: the nonce, then j as a 64-bit little-endian counter (R152). -/
def counterBlock (nonce : Bytes 8) (j : Nat) : Bytes 16 :=
  Vector.ofFn fun i => if i.val < 8 then nonce.getD i.val 0 else (stBytes 8 j).getD (i.val - 8) 0

/-- `ksblock(key32, nonce8, j)`: the core under the hardwired SIGMA (R154). -/
def ksBlock (key : Bytes 32) (nonce : Bytes 8) (j : Nat) : Bytes 64 :=
  salsa20Core (counterBlock nonce j) key Config.sigma

/-- `KS(key32, nonce8)[t]`: byte t of the blocks for counters 0, 1, 2, ... laid end to end (R155). -/
def keystreamByte (key : Bytes 32) (nonce : Bytes 8) (t : Nat) : Byte :=
  (ksBlock key nonce (t / 64)).getD (t % 64) 0

/-- How many blocks hold the keystream bytes below n. -/
def blockCount (n : Nat) : Nat := (n + 63) / 64

/-- The len keystream bytes from byte off on: the blocks for counters 0, 1, ... laid end to end (R155), without the first
off bytes and without what lies beyond (R157). -/
def keystream (key : Bytes 32) (nonce : Bytes 8) (off len : Nat) : List Byte :=
  (((List.range (blockCount (off + len))).flatMap fun j => (ksBlock key nonce j).toList).drop off).take len

/-- XOR of two byte strings of one length, byte by byte. -/
def xorBytes (a b : List Byte) : List Byte := List.zipWith (fun x y => x ^^^ y) a b

/-- `stream_apply(key32, nonce8, off, len, src_or_none)` (R156). -/
def streamApply (key : Bytes 32) (nonce : Bytes 8) (off len : Nat) (src : Option (List Byte)) : List Byte :=
  match src with
  | some m => xorBytes m (keystream key nonce off len)
  | none => keystream key nonce off len

/-- The subkey of XSalsa20, from the first 16 nonce bytes (R158). -/
def xsalsaSubkey (key : Bytes 32) (nonce : Bytes 24) : Bytes 32 := hsalsa20 (slice nonce 0 16) key Config.sigma

/-- `xstream_apply(key32, nonce24, off, len, src_or_none)` (R158). -/
def xstreamApply (key : Bytes 32) (nonce : Bytes 24) (off len : Nat) (src : Option (List Byte)) : List Byte :=
  streamApply (xsalsaSubkey key nonce) (slice nonce 16 8) off len src

/-- The source argument of a stream command: the source buffer of an .XOR command, none of a .KS command (R151). -/
def State.streamSource (s : State) (srcGiven : Bool) : Option (List Byte) :=
  if srcGiven then some s.sourceBytes else none

/-- The output bytes of an S20 command (R151). -/
def State.s20Output (s : State) (srcGiven : Bool) (off : Nat) : List Byte :=
  streamApply s.key (slice s.nonce 0 8) off s.len.toNat (s.streamSource srcGiven)

/-- The output bytes of an XS20 command (R151). -/
def State.xs20Output (s : State) (srcGiven : Bool) (off : Nat) : List Byte :=
  xstreamApply s.key s.nonce off s.len.toNat (s.streamSource srcGiven)

/-- The frame of the four stream commands (R151): locked, the checks in order, nothing when LEN = 0, and otherwise the
output bytes written from DST on. -/
def execStream (srcGiven : Bool) (output : List Byte) (s : State) : Host.Outcome State Fault Refusal :=
  unlessLocked s
    (match s.streamCheck srcGiven with
     | some code => .next (s.refuse code)
     | none => if s.len = 0 then .next s else .next (s.memWrite s.dst.toNat output))

/-- S20.XOR (R160). -/
def execS20Xor (off : Nat) (s : State) : Host.Outcome State Fault Refusal := execStream true (s.s20Output true off) s

/-- S20.KS (R161). -/
def execS20Ks (off : Nat) (s : State) : Host.Outcome State Fault Refusal := execStream false (s.s20Output false off) s

/-- XS20.XOR (R162). -/
def execXs20Xor (off : Nat) (s : State) : Host.Outcome State Fault Refusal := execStream true (s.xs20Output true off) s

/-- XS20.KS (R163). -/
def execXs20Ks (off : Nat) (s : State) : Host.Outcome State Fault Refusal := execStream false (s.xs20Output false off) s

/-! ### The same as a procedure (R153, R157) -/

/-- Add u to a little-endian number byte by byte, the carry out dropped (R153). -/
def addCarry : Nat → List Byte → List Byte
  | _, [] => []
  | u, b :: bs => BitVec.ofNat 8 (u + b.toNat) :: addCarry ((u + b.toNat) / 256) bs

/-- The counter in bytes 8 to 15 of the input block incremented by one, bytes 0 to 7 as they were (R153). -/
def incrementCounter (blk : Bytes 16) : Bytes 16 :=
  let counter := addCarry 1 (slice blk 8 8).toList
  Vector.ofFn fun i => if i.val < 8 then blk[i] else counter.getD (i.val - 8) 0

/-- The procedure by segments (R157), for at most `blocks` blocks: the next segment takes min(len, 64 - off) bytes of one
block from byte off on, then the counter is incremented and the next block starts at byte 0. -/
def streamSegments (key : Bytes 32) : (blocks : Nat) → (blk : Bytes 16) → (off len : Nat) →
    (src : Option (List Byte)) → List Byte
  | 0, _, _, _, _ => []
  | n + 1, blk, off, len, src =>
    let q := min len (64 - off)
    let ks := ((salsa20Core blk key Config.sigma).toList.drop off).take q
    match src with
    | none => ks ++ streamSegments key n (incrementCounter blk) 0 (len - q) none
    | some m => xorBytes (m.take q) ks ++ streamSegments key n (incrementCounter blk) 0 (len - q) (some (m.drop q))

/-- The stream as R157 states it: the initial counter is 0 (R153), and floor((off + len - 1) / 64) + 1 blocks are
generated for len > 0. -/
def streamProcedure (key : Bytes 32) (nonce : Bytes 8) (off len : Nat) (src : Option (List Byte)) : List Byte :=
  streamSegments key (blockCount (off + len)) (counterBlock nonce 0) off len src

end Sys2Proof.Machine
end

