-- ==== Sys2Proof/Machine/Dispatch.lean ====
section
/-!
DEFINITION. One arm per command (spec 30_encoding R95).
-/

namespace Sys2Proof.Machine

/-- What a decoded command does. -/
def exec (i : Instr) (s : State) : Host.Outcome State Fault Refusal :=
  match i with
  | .nop => Sys2Proof.Machine.execNop s
  | .core => Sys2Proof.Machine.execCore s
  | .hsal => Sys2Proof.Machine.execHsal s
  | .s20Xor off => Sys2Proof.Machine.execS20Xor off s
  | .s20Ks off => Sys2Proof.Machine.execS20Ks off s
  | .xs20Xor off => Sys2Proof.Machine.execXs20Xor off s
  | .xs20Ks off => Sys2Proof.Machine.execXs20Ks off s
  | .p1305Auth => Sys2Proof.Machine.execP1305Auth s
  | .p1305Vfy => Sys2Proof.Machine.execP1305Vfy s
  | .ceq16 => Sys2Proof.Machine.execCeq16 s
  | .ceq32 => Sys2Proof.Machine.execCeq32 s
  | .srst => Sys2Proof.Machine.execSrst s

end Sys2Proof.Machine
end

