-- ==== Sys2Proof/Machine/Window.lean ====
section
/-!
DEFINITION. The host's accesses: the register window (spec 10_state R41), a write to CMD (10_state R32, 30_encoding R93,
60_exceptions R236, R237), DMEM bytes (20_memory R72) and hardware reset (70_reset_and_hazards R260, R263).
-/

namespace Sys2Proof.Machine

/-- The registers of the window, by the names of R41. -/
inductive Reg where
  | id | status | cmd | src | dst | len | key | inp | const | nonce | out | pkey | tag | tagx | ca | cb
  deriving DecidableEq, Repr

/-- One row of the map of R41: a register, its first offset, its size in words. -/
structure WindowRow where
  reg : Reg
  base : Nat
  words : Nat
  deriving DecidableEq, Repr

/-- The map of R41. Offsets in no row are reserved. -/
def window : List WindowRow :=
  [⟨.id, 0x000, 1⟩, ⟨.status, 0x004, 1⟩, ⟨.cmd, 0x008, 1⟩, ⟨.src, 0x00C, 1⟩, ⟨.dst, 0x010, 1⟩, ⟨.len, 0x014, 1⟩,
   ⟨.key, 0x020, 8⟩, ⟨.inp, 0x040, 4⟩, ⟨.const, 0x050, 4⟩, ⟨.nonce, 0x060, 6⟩, ⟨.out, 0x080, 16⟩, ⟨.pkey, 0x0C0, 8⟩,
   ⟨.tag, 0x0E0, 4⟩, ⟨.tagx, 0x0F0, 4⟩, ⟨.ca, 0x100, 8⟩, ⟨.cb, 0x120, 8⟩]

/-- The register and the word of it at an offset, looked up in rows of the map; none for a reserved offset. -/
def findReg : List WindowRow → Nat → Option (Reg × Nat)
  | [], _ => none
  | r :: rs, off =>
    if r.base ≤ off ∧ off < r.base + 4 * r.words then some (r.reg, (off - r.base) / 4) else findReg rs off

/-- The register and the word of it at a window offset (R41). -/
def regAt (off : BitVec 12) : Option (Reg × Nat) := findReg window off.toNat

/-- What a host read of word k of a register returns (R30, R31, R32, R34, R41). Reads have no side effect (R64). -/
def State.readReg (s : State) (r : Reg) (k : Nat) : Word :=
  match r with
  | .id => Config.idValue
  | .status => s.statusWord
  | .cmd => 0
  | .src => s.src
  | .dst => s.dst
  | .len => s.len
  | .key => wordAt s.key k
  | .inp => wordAt s.inp k
  | .const => wordAt s.const k
  | .nonce => wordAt s.nonce k
  | .out => wordAt s.out k
  | .pkey => wordAt s.pkey k
  | .tag => wordAt s.tag k
  | .tagx => wordAt s.tagx k
  | .ca => wordAt s.ca k
  | .cb => wordAt s.cb k

/-- What a host write of w to word k of a register other than CMD does; writes to ID, OUT and TAG are ignored (R25, R27,
R30), any write to STATUS clears it (R31). CMD holds no state (R32); the command it starts is `commandWrite`. -/
def State.writeReg (s : State) (r : Reg) (k : Nat) (w : Word) : State :=
  match r with
  | .id => s
  | .status => s.clearStatus
  | .cmd => s
  | .src => { s with src := w }
  | .dst => { s with dst := w }
  | .len => { s with len := w }
  | .key => { s with key := putWord s.key k w }
  | .inp => { s with inp := putWord s.inp k w }
  | .const => { s with const := putWord s.const k w }
  | .nonce => { s with nonce := putWord s.nonce k w }
  | .out => s
  | .pkey => { s with pkey := putWord s.pkey k w }
  | .tag => s
  | .tagx => { s with tagx := putWord s.tagx k w }
  | .ca => { s with ca := putWord s.ca k w }
  | .cb => { s with cb := putWord s.cb k w }

/-- What a host read at a window offset returns; reserved offsets read 0 (R41). -/
def State.readWindow (s : State) (off : BitVec 12) : Word :=
  match regAt off with
  | some (r, k) => s.readReg r k
  | none => 0

/-- The offset of CMD (R32). -/
def cmdOffset : BitVec 12 := 0x008

/-- A write of w to CMD: the command w encodes runs (R32, R93); a word that encodes none is refused, E_OPCODE or E_FIELD
(R96, R97), or as locked (R237), which comes first (R238). -/
def commandWrite (w : Word) (s : State) : Host.Outcome State Fault Refusal :=
  match decode w with
  | .command i => exec i s
  | .illegal => .next (s.refuse .opcode)
  | .reserved => .next (s.refuse .field)

/-- "Aligned 32-bit reads and writes only" (R41). -/
def alignedWord (size : Nat) (off : BitVec 12) : Bool := decide (size = 4 ∧ off.toNat % 4 = 0)

/-- A host register write (R41). Writes take effect whether or not the block is locked; only commands are refused. -/
def hostRegWrite (size : Nat) (off : BitVec 12) (w : Word) (s : State) : Host.Outcome State Fault Refusal :=
  if alignedWord size off then
    match regAt off with
    | some (.cmd, _) => commandWrite w s
    | some (r, k) => .next (s.writeReg r k w)
    | none => .next s
  else .refused .unalignedRegisterAccess

/-- A host register read (R41, R110). -/
def hostRegRead (size : Nat) (off : BitVec 12) (s : State) : Host.Outcome State Fault Refusal :=
  if alignedWord size off then .next (s.pushRead (.word (s.readWindow off)))
  else .refused .unalignedRegisterAccess

/-- A host write of one DMEM byte (R39, R72). -/
def hostMemWrite (addr : Nat) (b : Byte) (s : State) : Host.Outcome State Fault Refusal :=
  if addr < s.dmemBytes then .next (s.memWrite addr [b]) else .fault .hostOutsideDmem

/-- A host read of one DMEM byte (R39, R72, R110). -/
def hostMemRead (addr : Nat) (s : State) : Host.Outcome State Fault Refusal :=
  if addr < s.dmemBytes then .next (s.pushRead (.byte (Dmem.read s.dmem addr))) else .fault .hostOutsideDmem

/-- A hardware reset while no command runs: every register to its reset value, DMEM unchanged (R260, R261). -/
def hostReset (s : State) : Host.Outcome State Fault Refusal := .next s.resetRegisters

/-- What a hardware reset leaves of a command that would have led from s to t: the registers at their reset values, the
bytes of the command's destination buffer old or new by a free value, and every other byte as it was (R263). A command
that writes no DMEM byte leaves DMEM as it was. -/
def abortedState (s t : State) : State :=
  { s.resetRegisters with
    dmem :=
      if t.dmem = s.dmem then s.dmem
      else Dmem.abortMix s.aborts s.dmem t.dmem s.dst.toNat s.len.toNat,
    aborts := s.aborts + 1 }

/-- A write of w to CMD that a hardware reset cuts short (R263). -/
def hostResetDuring (w : Word) (s : State) : Host.Outcome State Fault Refusal :=
  match commandWrite w s with
  | .next t => .next (abortedState s t)
  | .fault r => .fault r
  | .refused r => .refused r

/-- The read `ago` reads before the host's last one yielded this value. -/
def State.hasRead (s : State) (ago : Nat) (value : HostRead) : Bool := s.reads.reverse[ago]? == some value

/-- The host's list without its next count entries; nothing else changes. -/
def State.skipPending (s : State) (count : Nat) : State := s.setPending (s.pending.drop count)

/-- The host tests a value it has read (R110): it goes on where the test holds, and skips count entries where not. -/
def hostTest (ago : Nat) (value : HostRead) (count : Nat) (s : State) : Host.Outcome State Fault Refusal :=
  .next (if s.hasRead ago value then s else s.skipPending count)

/-- The host skips count entries of its list. -/
def hostSkip (count : Nat) (s : State) : Host.Outcome State Fault Refusal := .next (s.skipPending count)

/-- One transaction or move of the host. -/
def hostTransact (t : HostTxn) (s : State) : Host.Outcome State Fault Refusal :=
  match t with
  | .regWrite size off w => hostRegWrite size off w s
  | .regRead size off => hostRegRead size off s
  | .memWrite addr b => hostMemWrite addr b s
  | .memRead addr => hostMemRead addr s
  | .reset => hostReset s
  | .resetDuring w => hostResetDuring w s
  | .test ago value count => hostTest ago value count s
  | .skip count => hostSkip count s

/-- The host's next transaction, which leaves its list as it is done; with none to come the block is idle and keeps all
its state (R73, R250, R260). -/
def hostNext (s : State) : Host.Outcome State Fault Refusal :=
  match s.pending with
  | [] => .next s
  | t :: rest => hostTransact t (s.setPending rest)

/-- The transaction that starts the command with word w. -/
def commandTxn (w : Word) : HostTxn := .regWrite 4 cmdOffset w

end Sys2Proof.Machine
end

