-- ==== Sys2Proof/Machine/Step.lean ====
section
/-!
DEFINITION. One step: the host's next transaction (spec 00_scope R7, 20_memory R73, 30_encoding R110).
-/

namespace Sys2Proof.Machine

/-- One step of the machine. The block has no program counter and fetches nothing (R33, R76): a command comes as the data
of the host's write to CMD. -/
def step (s : State) : Host.Outcome State Fault Refusal := hostNext s

/-- The state with the host's next transaction a write to CMD of the word whose bits are w. -/
def State.withFetchWord (s : State) (nbits w : Nat) : State :=
  s.setPending (commandTxn (tableWord nbits w) :: s.pending)

end Sys2Proof.Machine
end

