-- ==== Sys2Proof/Machine/Assembler.lean ====
section
/-!
DEFINITION. The assembler: host transactions and pseudo-instructions (spec 30_encoding R110, R111), and the text of
command lines (R105). A host program becomes the list of entries `State.pending` takes.
-/

namespace Sys2Proof.Machine

/-! ### Statements of a host program -/

/-- The row of the map of R41 for a register, in rows of the map. -/
def rowOf : List WindowRow → Reg → Option WindowRow
  | [], _ => none
  | r :: rs, reg => if r.reg = reg then some r else rowOf rs reg

/-- The first offset of a register (R41). -/
def regBase (reg : Reg) : Nat := match rowOf window reg with | some r => r.base | none => 0

/-- The size of a register in words (R41). -/
def regWords (reg : Reg) : Nat := match rowOf window reg with | some r => r.words | none => 0

/-- The write of a value at `REG + k` (R110). -/
def wrTxn (reg : Reg) (k : Nat) (w : Word) : HostTxn := .regWrite 4 (BitVec.ofNat 12 (regBase reg + k)) w

/-- The read at `REG + k` (R110). -/
def rdTxn (reg : Reg) (k : Nat) : HostTxn := .regRead 4 (BitVec.ofNat 12 (regBase reg + k))

/-- A statement of a host program: the transactions of R110, the pseudo-instructions of R111, and a command. -/
inductive HostStmt where
  /-- `wr REG[+k], value`. -/
  | wr (reg : Reg) (k : Nat) (value : Word)
  /-- `rd REG[+k]`. -/
  | rd (reg : Reg) (k : Nat)
  /-- `mwr addr, hexbytes`. -/
  | mwr (addr : Nat) (bytes : List Byte)
  /-- `mrd addr, n`. -/
  | mrd (addr n : Nat)
  /-- `ldb REG, hexbytes`. -/
  | ldb (reg : Reg) (bytes : List Byte)
  /-- `rdb REG`. -/
  | rdb (reg : Reg)
  /-- `buf s, d, n`. -/
  | buf (src dst len : Word)
  /-- `clr`. -/
  | clr
  /-- A command with its offset. -/
  | command (i : Instr)
  deriving DecidableEq, Repr

/-- The byte writes of `mwr`: "one byte write per byte, ascending" (R110). -/
def mwrTxns : Nat → List Byte → List HostTxn
  | _, [] => []
  | a, b :: bs => .memWrite a b :: mwrTxns (a + 1) bs

/-- Word j of the bytes of `ldb`, `le32(hexbytes[4j..4j+3])` (R111). -/
def ldbWord (bytes : List Byte) (j : Nat) : Word :=
  le32 (bytes.getD (4 * j) 0) (bytes.getD (4 * j + 1) 0) (bytes.getD (4 * j + 2) 0) (bytes.getD (4 * j + 3) 0)

/-- `REG + k` lies in the window: "k a multiple of 4" (R110), and the window ends at 0xFFF (R41). -/
def inWindow (reg : Reg) (k : Nat) : Bool := decide (k % 4 = 0 ∧ regBase reg + k < 4096)

/-- The transactions a statement stands for (R105, R110, R111); none where the statement is not one of those rules'
forms: k not a multiple of 4 or past the window, a byte string of `ldb` that is not whole words or longer than the
register, an offset that cannot be encoded. -/
def HostStmt.expand : HostStmt → Option (List HostTxn)
  | .wr reg k w => if inWindow reg k then some [wrTxn reg k w] else none
  | .rd reg k => if inWindow reg k then some [rdTxn reg k] else none
  | .mwr a bytes => some (mwrTxns a bytes)
  | .mrd a n => some ((List.range n).map fun i => .memRead (a + i))
  | .ldb reg bytes =>
    if bytes.length % 4 = 0 ∧ bytes.length ≤ 4 * regWords reg then
      some ((List.range (bytes.length / 4)).map fun j => wrTxn reg (4 * j) (ldbWord bytes j))
    else none
  | .rdb reg => some ((List.range (regWords reg)).map fun j => rdTxn reg (4 * j))
  | .buf s d n => some [wrTxn .src 0 s, wrTxn .dst 0 d, wrTxn .len 0 n]
  | .clr => some [wrTxn .status 0 0]
  | .command i => match assemble i with | some w => some [wrTxn .cmd 0 w] | none => none

/-! ### What statements yield -/

/-- The four bytes `st32(w)` (R10). -/
def st32Bytes (w : Word) : List Byte := (List.range 4).map (st32Byte w)

/-- The bytes of one read: `st32` of a word, or the byte (R110, R111). -/
def HostRead.bytes : HostRead → List Byte
  | .word w => st32Bytes w
  | .byte b => [b]

/-- What the reads between two states of a run yielded, as one byte string: for `rdb`, "the concatenation of `st32` of
each word" (R111); for `mrd`, the bytes in order (R110). -/
def yielded (s t : State) : List Byte := (t.reads.drop s.reads.length).flatMap HostRead.bytes

/-! ### Host programs -/

/-- A host program (R110): statements in order, and "a host program may test a value it has read (`if rd STATUS == 1 then
... else ...`)". -/
inductive HostProgram where
  /-- The end of the program or of a part. -/
  | done
  /-- A statement, then the rest. -/
  | stmt (p : HostStmt) (rest : HostProgram)
  /-- If the read `ago` reads before the last one yielded `value` the first part, else the second; then the rest. -/
  | ifRead (ago : Nat) (value : HostRead) (thenPart elsePart rest : HostProgram)
  deriving DecidableEq, Repr

/-- `if rd REG[+k] == value then ... else ...`: the read, then the test of what it yielded. -/
def HostProgram.ifRd (reg : Reg) (k : Nat) (value : Word) (thenPart elsePart rest : HostProgram) : HostProgram :=
  .stmt (.rd reg k) (.ifRead 0 (.word value) thenPart elsePart rest)

/-- The program of a list of statements. -/
def HostProgram.ofList : List HostStmt → HostProgram
  | [] => .done
  | p :: ps => .stmt p (HostProgram.ofList ps)

/-- The entries of a conditional: the test skips the first part and its end, the end of the first part skips the second. -/
def branchTxns (ago : Nat) (value : HostRead) (thenPart elsePart : List HostTxn) : List HostTxn :=
  .test ago value (thenPart.length + 1) :: (thenPart ++ .skip elsePart.length :: elsePart)

/-- A host program as the list of entries `State.pending` takes, statement by statement in order (R110); none if a
statement does not expand. -/
def expandProgram : HostProgram → Option (List HostTxn)
  | .done => some []
  | .stmt p rest =>
    match p.expand, expandProgram rest with
    | some t, some ts => some (t ++ ts)
    | none, _ => none
    | some _, none => none
  | .ifRead ago value thenPart elsePart rest =>
    match expandProgram thenPart, expandProgram elsePart, expandProgram rest with
    | some a, some b, some ts => some (branchTxns ago value a b ++ ts)
    | none, _, _ => none
    | some _, none, _ => none
    | some _, some _, none => none

/-! ### The text of a command line -/

/-- The value of a digit below the base: 0 to 9, then a to f or A to F. -/
def digitValue (base : Nat) (c : Char) : Option Nat :=
  let v := if '0' ≤ c ∧ c ≤ '9' then c.toNat - '0'.toNat
    else if 'a' ≤ c ∧ c ≤ 'f' then c.toNat - 'a'.toNat + 10
    else if 'A' ≤ c ∧ c ≤ 'F' then c.toNat - 'A'.toNat + 10
    else base
  if v < base then some v else none

/-- The digits of a number after the value `acc` of those read so far. -/
def digitsValue (base : Nat) : Nat → List Char → Option Nat
  | acc, [] => some acc
  | acc, c :: cs => match digitValue base c with | some v => digitsValue base (acc * base + v) cs | none => none

/-- A number "in decimal or 0x hex" (R105). -/
def numeral : List Char → Option Nat
  | '0' :: 'x' :: c :: cs => digitsValue 16 0 (c :: cs)
  | c :: cs => digitsValue 10 0 (c :: cs)
  | [] => none

/-- The line without the comment a semicolon starts (R105). -/
def uncomment : List Char → List Char
  | [] => []
  | c :: cs => if c = ';' then [] else c :: uncomment cs

/-- The words of a line, between spaces; `cur` holds the characters of the word being read, last one first. -/
def splitWords : List Char → List Char → List (List Char)
  | cur, [] => if cur = [] then [] else [cur.reverse]
  | cur, c :: cs => if c = ' ' then (if cur = [] then splitWords [] cs else cur.reverse :: splitWords [] cs)
    else splitWords (c :: cur) cs

/-- The mnemonic of each command in lower case (R105). -/
def Instr.mnemonic : Instr → List Char
  | .nop => ['n', 'o', 'p']
  | .core => ['c', 'o', 'r', 'e']
  | .hsal => ['h', 's', 'a', 'l']
  | .s20Xor _ => ['s', '2', '0', '.', 'x', 'o', 'r']
  | .s20Ks _ => ['s', '2', '0', '.', 'k', 's']
  | .xs20Xor _ => ['x', 's', '2', '0', '.', 'x', 'o', 'r']
  | .xs20Ks _ => ['x', 's', '2', '0', '.', 'k', 's']
  | .p1305Auth => ['p', '1', '3', '0', '5', '.', 'a', 'u', 't', 'h']
  | .p1305Vfy => ['p', '1', '3', '0', '5', '.', 'v', 'f', 'y']
  | .ceq16 => ['c', 'e', 'q', '1', '6']
  | .ceq32 => ['c', 'e', 'q', '3', '2']
  | .srst => ['s', 'r', 's', 't']

/-- The commands without an operand (format N). -/
def plainCommands : List Instr := [.nop, .core, .hsal, .p1305Auth, .p1305Vfy, .ceq16, .ceq32, .srst]

/-- The stream commands with an offset (format S). -/
def streamCommands (off : Nat) : List Instr := [.s20Xor off, .s20Ks off, .xs20Xor off, .xs20Ks off]

/-- The command of a mnemonic and an optional offset: "off defaults to 0", and format N takes none (R105). -/
def commandOf (mnemonic : List Char) (off : Option Nat) : Option Instr :=
  match off with
  | some n => (streamCommands n).find? fun i => Instr.mnemonic i == mnemonic
  | none => (plainCommands ++ streamCommands 0).find? fun i => Instr.mnemonic i == mnemonic

/-- The command of one line of text (R105). -/
def parseCommand (line : List Char) : Option Instr :=
  match splitWords [] (uncomment line) with
  | [m] => commandOf m none
  | [m, n] => match numeral n with | some off => commandOf m (some off) | none => none
  | [] => none
  | _ :: _ :: _ :: _ => none

/-- The command word of one line of text; none where the line is no command or its offset is outside 0 to 63 (R105). -/
def assembleLine (line : List Char) : Option Word :=
  match parseCommand line with
  | some i => assemble i
  | none => none

end Sys2Proof.Machine
end

