-- ==== Sys2Proof/Machine/PolyLimbs.lean ====
section
/-!
DEFINITION. Poly1305 by the 17-limb procedure (spec 43_poly1305 R184 to R190). The commands use the canonical definition
of Machine/Poly1305.lean; the spec says both give the same tag.
-/

namespace Sys2Proof.Machine

/-- An array of 17 limbs, limb j of weight 2^(8j), limb 0 first (R184). -/
abbrev Limbs := List Nat

/-- The value of an array of limbs, `sum of 2^(8j) * h[j]` (R38). -/
def limbValue : Limbs → Nat
  | [] => 0
  | x :: xs => x + 256 * limbValue xs

/-- The limbs of a byte string, one byte a limb, filled with zero to 17 limbs (R184). -/
def limbsOfBytes (b : List Byte) : Limbs := (List.range 17).map fun j => (b.getD j 0).toNat

/-- `add(h, c)` with carry u in: limb-wise addition, each limb reduced to 8 bits, the last carry dropped (R185). -/
def limbAdd : Nat → Limbs → Limbs → Limbs
  | u, x :: xs, y :: ys => (u + x + y) % 256 :: limbAdd ((u + x + y) / 256) xs ys
  | _, [], _ => []
  | _, _, [] => []

/-- Limb i of the product: lower partial products, and upper ones folded with the factor 320 (R187). -/
def limbProduct (h r : Limbs) (i : Nat) : Nat :=
  ((List.range 17).map fun j =>
    if j ≤ i then h.getD j 0 * r.getD (i - j) 0 else 320 * h.getD j 0 * r.getD (i + 17 - j) 0).sum

/-- The first passes of `squeeze` over limbs 0 to 15: each limb to 8 bits, and the carry left at the end (R188). -/
def limbCarry : Nat → Limbs → Limbs × Nat
  | u, [] => ([], u)
  | u, x :: xs =>
    match limbCarry ((u + x) / 256) xs with
    | (limbs, carry) => ((u + x) % 256 :: limbs, carry)

/-- `squeeze(h)` (R188). -/
def squeeze (h : Limbs) : Limbs :=
  let first := limbCarry 0 (h.take 16)
  let top := first.2 + h.getD 16 0
  let second := limbCarry (5 * (top / 4)) first.1
  second.1 ++ [second.2 + top % 4]

/-- `mulmod(h, r)` (R187). -/
def mulmod (h r : Limbs) : Limbs := squeeze ((List.range 17).map (limbProduct h r))

/-- The limbs of a chunk with its terminator (R184). -/
def chunkLimbs (chunk : List Byte) : Limbs := limbsOfBytes (chunk ++ [0x01])

/-- The step for one chunk: add it, then multiply by r (R186). -/
def limbStep (r : Limbs) (h : Limbs) (chunk : List Byte) : Limbs := mulmod (limbAdd 0 h (chunkLimbs chunk)) r

/-- `freeze`: add MINUSP, and take back what stood there if bit 7 of the top limb is set, by mask and XOR (R190). -/
def freeze (h : Limbs) : Limbs :=
  let d := limbAdd 0 h Config.minusP
  let negative := (2 ^ 32 - d.getD 16 0 / 128) % 2 ^ 32
  List.zipWith (fun orig diff => diff ^^^ (negative &&& (orig ^^^ diff))) h d

/-- The tag by limbs: all chunks, freeze, add s, the low 16 limbs (R184, R186, R190). -/
def limbTag (msg : List Byte) (key : Bytes 32) : Bytes 16 :=
  let r := limbsOfBytes (clampedBytes key).toList
  let h := (chunks msg).foldl (limbStep r) (List.replicate 17 0)
  let t := limbAdd 0 (freeze h) (limbsOfBytes (slice key 16 16).toList)
  Vector.ofFn fun i => BitVec.ofNat 8 (t.getD i.val 0)

end Sys2Proof.Machine
end

