-- ==== Sys2Proof/Safety.lean ====
section
/-!
DEFINITION. What claims about a run are stated in: the invariant of the machine, when a command may run, and what a
command leaves unchanged.
-/

namespace Sys2Proof.Machine

/-- The invariant of the machine: DMEM is in its canonical form and lists addresses below DMEM_BYTES only (R61),
DMEM_BYTES is at most 2^32 (R61), ERR is one of the codes 0 to 4 (R231), and a locked block has EQ = 0 (R236, R237). -/
abbrev State.Inv (s : State) : Prop :=
  Dmem.wf s.dmem ∧ Dmem.below s.dmem s.dmemBytes ∧ s.dmemBytes ≤ 2 ^ 32 ∧ s.statusErr.toNat ≤ 4 ∧
    (s.statusErr ≠ 0 → s.statusEq = false)

/-- A buffer of len bytes at base that a command may use: it lies in DMEM, or it has no bytes (R66, R68). -/
abbrev State.bufferOk (s : State) (base : Word) : Prop := s.len = 0 ∨ base.toNat + s.len.toNat ≤ s.dmemBytes

/-- The two buffers of an .XOR command may be used together: no bytes, the same buffer, or disjoint buffers (R67, R68). -/
abbrev State.buffersOk (s : State) : Prop :=
  s.len = 0 ∨ s.src = s.dst ∨ s.src.toNat + s.len.toNat ≤ s.dst.toNat ∨ s.dst.toNat + s.len.toNat ≤ s.src.toNat

/-- An .XOR stream command runs: not locked, both buffers in DMEM, no partial overlap (R151). -/
abbrev State.xorReady (s : State) : Prop := s.statusErr = 0 ∧ s.bufferOk s.src ∧ s.bufferOk s.dst ∧ s.buffersOk

/-- A .KS stream command runs: not locked, the destination in DMEM (R151). -/
abbrev State.ksReady (s : State) : Prop := s.statusErr = 0 ∧ s.bufferOk s.dst

/-- A Poly1305 command runs: not locked, the message in DMEM (R191). -/
abbrev State.polyReady (s : State) : Prop := s.statusErr = 0 ∧ s.bufferOk s.src

/-- Every byte outside the len bytes from base on reads in m' as it reads in m. -/
def SameOutside (base len : Nat) (m m' : Dmem) : Prop :=
  ∀ a, a < base ∨ base + len ≤ a → Dmem.read m' a = Dmem.read m a

/-- The registers that no command but SRST writes (R21 to R24, R26, R28, R29, R34), the size of DMEM and the host's own
fields are in t as in s. -/
def SameOperands (s t : State) : Prop :=
  t.key = s.key ∧ t.inp = s.inp ∧ t.nonce = s.nonce ∧ t.const = s.const ∧ t.pkey = s.pkey ∧ t.tagx = s.tagx ∧
    t.ca = s.ca ∧ t.cb = s.cb ∧ t.src = s.src ∧ t.dst = s.dst ∧ t.len = s.len ∧ t.dmemBytes = s.dmemBytes ∧
    t.pending = s.pending ∧ t.reads = s.reads ∧ t.aborts = s.aborts

/-- The registers of t hold the reset values of R43. -/
def AtResetValues (t : State) : Prop :=
  t.key.toList = List.replicate 32 0 ∧ t.inp.toList = List.replicate 16 0 ∧ t.nonce.toList = List.replicate 24 0 ∧
    t.const.toList =
      [0x65, 0x78, 0x70, 0x61, 0x6e, 0x64, 0x20, 0x33, 0x32, 0x2d, 0x62, 0x79, 0x74, 0x65, 0x20, 0x6b] ∧
    t.out.toList = List.replicate 64 0 ∧ t.pkey.toList = List.replicate 32 0 ∧ t.tag.toList = List.replicate 16 0 ∧
    t.tagx.toList = List.replicate 16 0 ∧ t.ca.toList = List.replicate 32 0 ∧ t.cb.toList = List.replicate 32 0 ∧
    t.src = 0 ∧ t.dst = 0 ∧ t.len = 0 ∧ t.statusEq = false ∧ t.statusErr = 0

/-- The four stream commands, format S (R92). -/
def isStream (i : Instr) : Bool :=
  match i with
  | .s20Xor _ => true
  | .s20Ks _ => true
  | .xs20Xor _ => true
  | .xs20Ks _ => true
  | .nop => false
  | .core => false
  | .hsal => false
  | .p1305Auth => false
  | .p1305Vfy => false
  | .ceq16 => false
  | .ceq32 => false
  | .srst => false

/-- The mask of a command's row in the opcode map (R95). -/
def rowMask (i : Instr) : Word := if isStream i then 0xFFFFC0FF else 0xFFFFFFFF

/-- Window offsets of the words the host may write and read back (R41). -/
abbrev writableOffset (off : BitVec 12) : Prop :=
  off.toNat % 4 = 0 ∧
    ((0x00C ≤ off.toNat ∧ off.toNat ≤ 0x014) ∨ (0x020 ≤ off.toNat ∧ off.toNat ≤ 0x074) ∨
      (0x0C0 ≤ off.toNat ∧ off.toNat ≤ 0x0DC) ∨ (0x0F0 ≤ off.toNat ∧ off.toNat ≤ 0x13C))

/-- Window offsets of the read-only registers ID, OUT and TAG (R41). -/
abbrev readOnlyOffset (off : BitVec 12) : Prop :=
  off.toNat % 4 = 0 ∧
    (off.toNat = 0 ∨ (0x080 ≤ off.toNat ∧ off.toNat ≤ 0x0BC) ∨ (0x0E0 ≤ off.toNat ∧ off.toNat ≤ 0x0EC))

/-- Reserved window offsets (R41). -/
abbrev reservedOffset (off : BitVec 12) : Prop :=
  off.toNat % 4 = 0 ∧
    ((0x018 ≤ off.toNat ∧ off.toNat ≤ 0x01C) ∨ (0x078 ≤ off.toNat ∧ off.toNat ≤ 0x07C) ∨ 0x140 ≤ off.toNat)

/-- The low bytes of the opcode map (R95): format N, then format S. -/
def opcodesN : List Nat := [0x00, 0x01, 0x02, 0x20, 0x21, 0x30, 0x31, 0x7F]

/-- The opcodes of format S (R95). -/
def opcodesS : List Nat := [0x10, 0x11, 0x12, 0x13]

/-- The bytes of a string from index 0 on, and those of b after it. -/
def overlay {n : Nat} (bytes : List Byte) (b : Bytes n) : Bytes n := Vector.ofFn fun i => bytes.getD i.val b[i]

/-- A step from s whose transaction is an aligned 32-bit write of w at the offset leads to t. -/
def WritesTo (off : Nat) (w : Word) (s : State) (rest : List HostTxn) (t : State) : Prop :=
  step { s with pending := .regWrite 4 (BitVec.ofNat 12 off) w :: rest } = .next t

/-- `ldb reg, bytes` expands, to one transaction a word, and they lead from s to t (R111). -/
def LoadsTo (reg : Reg) (bytes : List Byte) (s : State) (rest : List HostTxn) (t : State) : Prop :=
  ∃ txns, (HostStmt.ldb reg bytes).expand = some txns ∧ txns.length = bytes.length / 4 ∧
    Host.Core.run Sys2Proof.core txns.length { s with pending := txns ++ rest } = .next t

/-- The statement expands, and its transactions run from s, yield the bytes, and change only the host's lists. -/
def YieldsBytes (p : HostStmt) (s : State) (rest : List HostTxn) (bytes : List Byte) : Prop :=
  ∃ txns t, p.expand = some txns ∧
    Host.Core.run Sys2Proof.core txns.length { s with pending := txns ++ rest } = .next t ∧
    t = { s with pending := rest, reads := t.reads } ∧ yielded s t = bytes

/-- The first offset of each register (R41). -/
def mapBases : List (Reg × Nat) :=
  [(.id, 0x000), (.status, 0x004), (.cmd, 0x008), (.src, 0x00C), (.dst, 0x010), (.len, 0x014), (.key, 0x020),
   (.inp, 0x040), (.const, 0x050), (.nonce, 0x060), (.out, 0x080), (.pkey, 0x0C0), (.tag, 0x0E0), (.tagx, 0x0F0),
   (.ca, 0x100), (.cb, 0x120)]

/-- A command line of format N: its text, its command, its word (R95, R105). -/
structure PlainLine where
  text : List Char
  instr : Instr
  opcode : Word
  deriving DecidableEq, Repr

/-- The command lines of format N. -/
def plainLines : List PlainLine :=
  [⟨['n', 'o', 'p'], .nop, 0x00⟩, ⟨['c', 'o', 'r', 'e'], .core, 0x01⟩, ⟨['h', 's', 'a', 'l'], .hsal, 0x02⟩,
   ⟨['p', '1', '3', '0', '5', '.', 'a', 'u', 't', 'h'], .p1305Auth, 0x20⟩,
   ⟨['p', '1', '3', '0', '5', '.', 'v', 'f', 'y'], .p1305Vfy, 0x21⟩, ⟨['c', 'e', 'q', '1', '6'], .ceq16, 0x30⟩,
   ⟨['c', 'e', 'q', '3', '2'], .ceq32, 0x31⟩, ⟨['s', 'r', 's', 't'], .srst, 0x7F⟩]

/-- A command line of format S without its operand: its text, the command of an offset, its opcode (R95, R105). -/
structure StreamLine where
  text : List Char
  form : Nat → Instr
  opcode : Nat

/-- The command lines of format S. -/
def streamLines : List StreamLine :=
  [⟨['s', '2', '0', '.', 'x', 'o', 'r'], .s20Xor, 0x10⟩, ⟨['s', '2', '0', '.', 'k', 's'], .s20Ks, 0x11⟩,
   ⟨['x', 's', '2', '0', '.', 'x', 'o', 'r'], .xs20Xor, 0x12⟩, ⟨['x', 's', '2', '0', '.', 'k', 's'], .xs20Ks, 0x13⟩]

/-- The base of a numeral and the mark before its digits: decimal, or hex after 0x (R105). -/
structure NumberBase where
  base : Nat
  mark : List Char
  deriving DecidableEq, Repr

end Sys2Proof.Machine
end

