-- ==== Sys2Proof/Certificates/Slice0/Obligations.lean ====
section
/-!
DEFINITION. The statements for the provers. Each docstring names the rules of spec/ it formalises; entries and quotes are
in OBLIGATIONS.json.
-/

open Sys2Proof Sys2Proof.Machine

/-- The words 0x00000000, 0x00000001, 0x00000002, 0x00000010, 0x00003C11, 0x00002012, 0x00003F13, 0x00000020,
0x00000021, 0x00000030, 0x00000031 and 0x0000007F decode to NOP, CORE, HSAL, S20.XOR 0, S20.KS 60, XS20.XOR 32,
XS20.KS 63, P1305.AUTH, P1305.VFY, CEQ16, CEQ32 and SRST. (30_encoding.md section 3 (R95), 30_encoding.md section 1
(R91, R92)) -/
def Obligations.SpecWordsDecode : Prop :=
  decode 0x00000000 = .command .nop ∧ decode 0x00000001 = .command .core ∧ decode 0x00000002 = .command .hsal ∧
    decode 0x00000010 = .command (.s20Xor 0) ∧ decode 0x00003C11 = .command (.s20Ks 60) ∧
    decode 0x00002012 = .command (.xs20Xor 32) ∧ decode 0x00003F13 = .command (.xs20Ks 63) ∧
    decode 0x00000020 = .command .p1305Auth ∧ decode 0x00000021 = .command .p1305Vfy ∧
    decode 0x00000030 = .command .ceq16 ∧ decode 0x00000031 = .command .ceq32 ∧ decode 0x0000007F = .command .srst

/-- For every command i that can be encoded (OFF 0 to 63), with every offset, decode (encode i) is i. (30_encoding.md
section 5 (R105), 30_encoding.md section 3 (R95)) -/
def Obligations.DecodeEncodeRoundTrip : Prop :=
  ∀ i : Instr, i.wellFormed = true → decode (encode i) = .command i

/-- For every word w and command i: w decodes to i exactly when w AND the mask of the row of i equals its opcode (the
match value) and, for a stream command, OFF is bits 13:8 of w. (R95) -/
def Obligations.DecodeSelectsTheMatchingRow : Prop :=
  ∀ (w : Word) (i : Instr), decode w = .command i ↔
    w &&& rowMask i = BitVec.ofNat 32 i.opcode ∧ (isStream i = true → i.off = w.toNat / 256 % 64)

/-- Each format-N mnemonic alone reads as its command and assembles to its opcode, a word that decodes to the command;
with an operand it reads as nothing. Each stream mnemonic alone reads as its command with off 0. Each stream
mnemonic followed by a blank and any decimal numeral, or 0x and any hex numeral (digits 0 to 9, a to f), reads as
its command with that off; if off is at most 63 the line assembles to OPC + 256*off, a word that decodes to that
command; if off is above 63 the line does not assemble. A comment after a semicolon changes nothing. (The blank and
the lower-case digits are the model's reading of the line, log 11.) (30_encoding.md section 5 (R105), 30_encoding.md
section 3 (R95), notes/assumptions/11.md) -/
def Obligations.AssembledTextDecodes : Prop :=
  (∀ p ∈ plainLines, parseCommand p.text = some p.instr ∧ assembleLine p.text = some p.opcode ∧
      decode p.opcode = .command p.instr ∧ ∀ operand, operand ≠ [] → ' ' ∉ operand → ';' ∉ operand →
        parseCommand (p.text ++ ' ' :: operand) = none) ∧
    (∀ p ∈ streamLines, parseCommand p.text = some (p.form 0) ∧
      assembleLine p.text = some (BitVec.ofNat 32 p.opcode) ∧
      decode (BitVec.ofNat 32 p.opcode) = .command (p.form 0) ∧
      ∀ b ∈ [NumberBase.mk 10 [], NumberBase.mk 16 ['0', 'x']], ∀ digits : List Nat,
        digits ≠ [] → (∀ d ∈ digits, d < b.base) →
        let off := digits.foldl (fun v d => b.base * v + d) 0
        let line := p.text ++ ' ' :: (b.mark ++ digits.map Nat.digitChar)
        let w := BitVec.ofNat 32 (p.opcode + 256 * off)
        parseCommand line = some (p.form off) ∧
          (off ≤ 63 → assembleLine line = some w ∧ w.toNat = p.opcode + 256 * off ∧
            decode w = .command (p.form off)) ∧
          (63 < off → assembleLine line = none)) ∧
    ∀ text comment : List Char, ';' ∉ text → parseCommand (text ++ ';' :: comment) = parseCommand text

/-- If the next transaction of the host is an aligned 32-bit write of w to CMD (offset 0x008) and w decodes to i, then
step is exec of i on the state without that transaction. (10_state.md section 3 (R32), 30_encoding.md section 2
(R93)) -/
def Obligations.StepRunsDecodedCommand : Prop :=
  ∀ (s : State) (w : Word) (rest : List HostTxn) (i : Instr),
    s.pending = .regWrite 4 0x008 w :: rest → decode w = .command i →
      step s = exec i { s with pending := rest }

/-- On a block that is not locked, a write to CMD of a word whose low byte is none of the twelve opcodes leads to the
state with ERR = 1, EQ = 0 and nothing else changed, whatever the other 24 bits are. (R232) -/
def Obligations.UnknownOpcodeRefused : Prop :=
  ∀ (s : State) (w : Word) (rest : List HostTxn),
    s.pending = .regWrite 4 0x008 w :: rest → s.statusErr = 0 →
    w.toNat % 256 ∉ opcodesN → w.toNat % 256 ∉ opcodesS →
      step s = .next { s with pending := rest, statusErr := 1, statusEq := false }

/-- On a block that is not locked, a write to CMD of a word whose low byte is an opcode of format N with bits 31:8 not
all zero, or of format S with bits 31:14 not all zero, leads to the state with ERR = 2, EQ = 0 and nothing else
changed. (R233) -/
def Obligations.ReservedBitsRefused : Prop :=
  ∀ (s : State) (w : Word) (rest : List HostTxn),
    s.pending = .regWrite 4 0x008 w :: rest → s.statusErr = 0 →
    ((w.toNat % 256 ∈ opcodesN ∧ w.toNat / 2 ^ 8 ≠ 0) ∨ (w.toNat % 256 ∈ opcodesS ∧ w.toNat / 2 ^ 14 ≠ 0)) →
      step s = .next { s with pending := rest, statusErr := 2, statusEq := false }

/-- While ERR is not 0: a write to CMD of any word but 0x0000007F clears EQ and changes nothing else (ERR keeps the
first code); the word 0x0000007F runs SRST and unlocks; a host write of any value to STATUS makes ERR and EQ 0 and
changes nothing else; a hardware reset unlocks. (60_exceptions.md section 3 (R237), 10_state.md section 3 (R31)) -/
def Obligations.LockedBlockRunsOnlySrst : Prop :=
  ∀ (s : State) (rest : List HostTxn), s.statusErr ≠ 0 →
    (∀ w : Word, s.pending = .regWrite 4 0x008 w :: rest → w ≠ 0x0000007F →
      step s = .next { s with pending := rest, statusEq := false }) ∧
    (s.pending = .regWrite 4 0x008 0x0000007F :: rest →
      ∃ t, step s = .next t ∧ AtResetValues t ∧ t.statusErr = 0) ∧
    (∀ v : Word, s.pending = .regWrite 4 0x004 v :: rest →
      step s = .next { s with pending := rest, statusErr := 0, statusEq := false }) ∧
    (s.pending = .reset :: rest → ∃ t, step s = .next t ∧ t.statusErr = 0)

/-- Whatever the state, locked or not, an aligned 32-bit write of any value to offset 0x004 leads to the state with EQ =
0, ERR = 0 and nothing else changed; and a read of STATUS returns EQ + 16*ERR. (10_state.md section 3 (R31)) -/
def Obligations.StatusWriteClearsEqAndErr : Prop :=
  (∀ (s : State) (v : Word) (rest : List HostTxn), s.pending = .regWrite 4 0x004 v :: rest →
      step s = .next { s with pending := rest, statusEq := false, statusErr := 0 }) ∧
    ∀ s : State, (s.readWindow 0x004).toNat = s.statusEq.toNat + 16 * s.statusErr.toNat

/-- For every state and word: if a write of the word to CMD leads to a state with ERR not 0, then that state is the old
one with EQ = 0 and that ERR and nothing else changed; and if the block was locked already, ERR is the code it was
locked with. (60_exceptions.md section 3 (R236), 70_reset_and_hazards.md section 4 (R278), 10_state.md section 4
(R36)) -/
def Obligations.RefusedCommandHasNoPartialEffect : Prop :=
  ∀ (s t : State) (w : Word) (rest : List HostTxn),
    s.pending = .regWrite 4 0x008 w :: rest → step s = .next t → t.statusErr ≠ 0 →
      t = { s with pending := rest, statusErr := t.statusErr, statusEq := false } ∧
        (s.statusErr ≠ 0 → t.statusErr = s.statusErr)

/-- Not locked, LEN > 0: if SRC + LEN > DMEM_BYTES in unbounded arithmetic, S20.XOR, XS20.XOR, P1305.AUTH and P1305.VFY
lead to ERR = 3, EQ = 0 and no other change; if DST + LEN > DMEM_BYTES, so do S20.XOR, S20.KS, XS20.XOR and XS20.KS.
S20.KS and XS20.KS with the destination in DMEM complete whatever SRC is, and P1305.AUTH and P1305.VFY with the
source in DMEM whatever DST is. (R66) -/
def Obligations.BufferOutsideDmemRefused : Prop :=
  ∀ (s : State) (off : Nat), s.statusErr = 0 → s.len ≠ 0 →
    (s.dmemBytes < s.src.toNat + s.len.toNat →
      ∀ i ∈ [Instr.s20Xor off, .xs20Xor off, .p1305Auth, .p1305Vfy],
        exec i s = .next { s with statusErr := 3, statusEq := false }) ∧
    (s.dmemBytes < s.dst.toNat + s.len.toNat →
      ∀ i ∈ [Instr.s20Xor off, .s20Ks off, .xs20Xor off, .xs20Ks off],
        exec i s = .next { s with statusErr := 3, statusEq := false }) ∧
    (s.dst.toNat + s.len.toNat ≤ s.dmemBytes →
      ∀ i ∈ [Instr.s20Ks off, .xs20Ks off], ∃ t, exec i s = .next t ∧ t.statusErr = 0) ∧
    (s.src.toNat + s.len.toNat ≤ s.dmemBytes →
      ∀ i ∈ [Instr.p1305Auth, .p1305Vfy], ∃ t, exec i s = .next t ∧ t.statusErr = 0)

/-- Not locked, LEN > 0, both buffers in DMEM: if SRC != DST and |SRC - DST| < LEN, S20.XOR and XS20.XOR lead to ERR =
4, EQ = 0 and no other change; if SRC = DST or |SRC - DST| >= LEN they complete with ERR = 0. (R67) -/
def Obligations.PartlyOverlappingBuffersRefused : Prop :=
  ∀ (s : State) (off : Nat), s.statusErr = 0 → s.len ≠ 0 →
    s.src.toNat + s.len.toNat ≤ s.dmemBytes → s.dst.toNat + s.len.toNat ≤ s.dmemBytes →
    ∀ i ∈ [Instr.s20Xor off, .xs20Xor off],
      (s.src ≠ s.dst → ((s.src.toNat : Int) - (s.dst.toNat : Int)).natAbs < s.len.toNat →
        exec i s = .next { s with statusErr := 4, statusEq := false }) ∧
      (s.src = s.dst ∨ s.len.toNat ≤ ((s.src.toNat : Int) - (s.dst.toNat : Int)).natAbs →
        ∃ t, exec i s = .next t ∧ t.statusErr = 0)

/-- Not locked and LEN = 0, whatever SRC, DST and the size of DMEM: each stream command leads to the same state;
P1305.AUTH completes with TAG = PKEY[16..31], the tag of the message with no chunks; P1305.VFY completes with EQ = 1
exactly when TAGX = PKEY[16..31] and TAG zero. Nothing else of the state changes, DMEM among it, and no result
depends on a byte of DMEM. (R68) -/
def Obligations.ZeroLengthIsChecklessNoOp : Prop :=
  ∀ (s : State) (off : Nat), s.statusErr = 0 → s.len = 0 →
    (∀ i ∈ [Instr.s20Xor off, .s20Ks off, .xs20Xor off, .xs20Ks off], exec i s = .next s) ∧
    (∃ t, exec .p1305Auth s = .next t ∧ t = { s with tag := t.tag } ∧ t.tag.toList = s.pkey.toList.drop 16) ∧
    (∃ t, exec .p1305Vfy s = .next t ∧ t = { s with statusEq := t.statusEq, tag := t.tag } ∧
      (t.statusEq = true ↔ s.tagx.toList = s.pkey.toList.drop 16) ∧ t.tag.toList = List.replicate 16 0)

/-- Not locked, NOP leads to the same state; locked, it leads to the state with EQ = 0; a word with low byte 0x00 and
any other bit set is reserved. (R221) -/
def Obligations.NopChangesNothing : Prop :=
  (∀ s : State, s.statusErr = 0 → exec .nop s = .next s) ∧
    (∀ s : State, s.statusErr ≠ 0 → exec .nop s = .next { s with statusEq := false }) ∧
    ∀ w : Word, w.toNat % 256 = 0 → w ≠ 0 → decode w = .reserved

/-- Whatever the state, SRST leads to a state with every register at its reset value and ERR = 0, with DMEM, its size
and the fields of the host as they were; it is the state a hardware reset leads to; and the word 0x0000017F is
reserved. (45_control.md (R222), 70_reset_and_hazards.md section 1 (R261)) -/
def Obligations.SrstResetsEveryRegister : Prop :=
  (∀ s : State, ∃ t, exec .srst s = .next t ∧ AtResetValues t ∧ t.dmem = s.dmem ∧ t.dmemBytes = s.dmemBytes ∧
      t.pending = s.pending ∧ t.reads = s.reads ∧ t.aborts = s.aborts ∧ hostReset s = .next t) ∧
    decode 0x0000017F = .reserved

/-- Not locked, CORE completes; word i of OUT (0 to 15, little-endian) is z[i] + x[i] mod 2^32, where x is the state
matrix of IN, KEY and CONST and z = rounds20(x); nothing but OUT changes. (R126) -/
def Obligations.CoreAddsTheInputWordsBack : Prop :=
  ∀ s : State, s.statusErr = 0 →
    ∃ t, exec .core s = .next t ∧ t = { s with out := t.out } ∧
      ∀ i : Fin 16, wordAt t.out i.val =
        (rounds20 (loadState s.inp s.key s.const))[i] + (loadState s.inp s.key s.const)[i]

/-- Not locked, HSAL completes; words 0 to 7 of OUT are the words 0, 5, 10, 15, 6, 7, 8, 9 of rounds20 of the state
matrix, with no feed-forward; words 8 to 15 are 0; nothing but OUT changes. (41_hsalsa20.md section 1 (R141),
41_hsalsa20.md section 2 (R142)) -/
def Obligations.HsalExtractsEightWords : Prop :=
  ∀ s : State, s.statusErr = 0 →
    ∃ t, exec .hsal s = .next t ∧ t = { s with out := t.out } ∧
      (∀ j : Fin 8, wordAt t.out j.val =
        (rounds20 (loadState s.inp s.key s.const))[(#v[0, 5, 10, 15, 6, 7, 8, 9] : Vector (Fin 16) 8)[j]]) ∧
      ∀ i, 32 ≤ i → (h : i < 64) → t.out[i] = 0

/-- Not locked, buffers in DMEM and not partly overlapping: S20.XOR completes; DMEM[DST+i] becomes DMEM[SRC+i] ^ KS(KEY,
NONCE[0..7])[OFF+i] for 0 <= i < LEN, with the source as it was at the start; exactly the LEN bytes from DST on are
written, every other byte of DMEM reads as before, and no register changes. (42_stream.md section 4 (R151, R160),
42_stream.md section 2 (R155), 20_memory.md section 6 (R70, R71)) -/
def Obligations.S20XorAppliesTheKeystream : Prop :=
  ∀ (s : State) (off : Nat), s.xorReady →
    ∃ t, exec (.s20Xor off) s = .next t ∧ t = { s with dmem := t.dmem } ∧
      (∀ i, i < s.len.toNat → Dmem.read t.dmem (s.dst.toNat + i) =
        Dmem.read s.dmem (s.src.toNat + i) ^^^ keystreamByte s.key (slice s.nonce 0 8) (off + i)) ∧
      SameOutside s.dst.toNat s.len.toNat s.dmem t.dmem

/-- Not locked and the destination in DMEM, whatever SRC: S20.KS completes; DMEM[DST+i] becomes KS(KEY,
NONCE[0..7])[OFF+i] for 0 <= i < LEN; exactly the LEN bytes from DST on are written, every other byte of DMEM reads
as before, and no register changes. (42_stream.md section 4 (R151, R161), 42_stream.md section 2 (R155),
20_memory.md section 6 (R71)) -/
def Obligations.S20KsWritesTheKeystream : Prop :=
  ∀ (s : State) (off : Nat), s.ksReady →
    ∃ t, exec (.s20Ks off) s = .next t ∧ t = { s with dmem := t.dmem } ∧
      (∀ i, i < s.len.toNat → Dmem.read t.dmem (s.dst.toNat + i) =
        keystreamByte s.key (slice s.nonce 0 8) (off + i)) ∧
      SameOutside s.dst.toNat s.len.toNat s.dmem t.dmem

/-- Not locked, buffers in DMEM and not partly overlapping: XS20.XOR completes; with subkey = hsalsa20(NONCE[0..15],
KEY, SIGMA), DMEM[DST+i] becomes DMEM[SRC+i] ^ KS(subkey, NONCE[16..23])[OFF+i] for 0 <= i < LEN; exactly the LEN
bytes from DST on are written, every other byte of DMEM reads as before, and no register changes. (42_stream.md
section 4 (R151, R162), 42_stream.md section 3 (R158), 20_memory.md section 6 (R70, R71)) -/
def Obligations.Xs20XorAppliesTheKeystream : Prop :=
  ∀ (s : State) (off : Nat), s.xorReady →
    ∃ t, exec (.xs20Xor off) s = .next t ∧ t = { s with dmem := t.dmem } ∧
      (∀ i, i < s.len.toNat → Dmem.read t.dmem (s.dst.toNat + i) =
        Dmem.read s.dmem (s.src.toNat + i) ^^^
          keystreamByte (hsalsa20 (slice s.nonce 0 16) s.key Config.sigma) (slice s.nonce 16 8) (off + i)) ∧
      SameOutside s.dst.toNat s.len.toNat s.dmem t.dmem

/-- Not locked and the destination in DMEM, whatever SRC: XS20.KS completes; with subkey = hsalsa20(NONCE[0..15], KEY,
SIGMA), DMEM[DST+i] becomes KS(subkey, NONCE[16..23])[OFF+i] for 0 <= i < LEN; exactly the LEN bytes from DST on are
written, every other byte of DMEM reads as before, and no register changes. (42_stream.md section 4 (R151, R163),
42_stream.md section 3 (R158), 20_memory.md section 6 (R71)) -/
def Obligations.Xs20KsWritesTheKeystream : Prop :=
  ∀ (s : State) (off : Nat), s.ksReady →
    ∃ t, exec (.xs20Ks off) s = .next t ∧ t = { s with dmem := t.dmem } ∧
      (∀ i, i < s.len.toNat → Dmem.read t.dmem (s.dst.toNat + i) =
        keystreamByte (hsalsa20 (slice s.nonce 0 16) s.key Config.sigma) (slice s.nonce 16 8) (off + i)) ∧
      SameOutside s.dst.toNat s.len.toNat s.dmem t.dmem

/-- Not locked and the message in DMEM: P1305.AUTH completes; TAG as a little-endian number is (h + s) mod 2^128, where
h starts at 0 and becomes ((h + le(chunk || 01)) * r) mod (2^130 - 5) for each 16-byte chunk of the message in
order, r is the clamped first half of PKEY and s its second half; nothing but TAG changes. (R183) -/
def Obligations.AuthWritesTheCanonicalTag : Prop :=
  ∀ s : State, s.polyReady →
    ∃ t, exec .p1305Auth s = .next t ∧ t = { s with tag := t.tag } ∧
      le t.tag.toList =
        ((chunks s.sourceBytes).foldl
            (fun h chunk => ((h + le (chunk ++ [0x01])) * le (clampedBytes s.pkey).toList) % (2 ^ 130 - 5)) 0 +
          le (s.pkey.toList.drop 16)) % 2 ^ 128

/-- Not locked and the message in DMEM: P1305.VFY completes; EQ = 1 exactly when TAGX equals poly1305_tag(message,
PKEY); TAG is 16 zero bytes; ERR stays 0; nothing but EQ and TAG changes. (43_poly1305.md section 4 (R192),
60_exceptions.md section 3 (R239)) -/
def Obligations.VerifySetsEqExactlyForTheTag : Prop :=
  ∀ s : State, s.polyReady →
    ∃ t, exec .p1305Vfy s = .next t ∧ t = { s with statusEq := t.statusEq, tag := t.tag } ∧
      (t.statusEq = true ↔ s.tagx = poly1305Tag s.sourceBytes s.pkey) ∧
      t.tag.toList = List.replicate 16 0

/-- Not locked, CEQ16 completes; EQ = 1 exactly when CA[i] = CB[i] for every i from 0 to 15 (bytes 16 to 31 may differ);
nothing but EQ changes. (44_cteq.md section 2 (R212), 44_cteq.md section 1 (R211)) -/
def Obligations.Ceq16ComparesTheFirstBytes : Prop :=
  ∀ s : State, s.statusErr = 0 →
    ∃ t, exec .ceq16 s = .next t ∧ t = { s with statusEq := t.statusEq } ∧
      (t.statusEq = true ↔ ∀ i, i < 16 → s.ca.getD i 0 = s.cb.getD i 0)

/-- Not locked, CEQ32 completes; EQ = 1 exactly when CA[i] = CB[i] for every i from 0 to 31; nothing but EQ changes.
(44_cteq.md section 2 (R213), 44_cteq.md section 1 (R211)) -/
def Obligations.Ceq32ComparesAllBytes : Prop :=
  ∀ s : State, s.statusErr = 0 →
    ∃ t, exec .ceq32 s = .next t ∧ t = { s with statusEq := t.statusEq } ∧
      (t.statusEq = true ↔ ∀ i, i < 32 → s.ca.getD i 0 = s.cb.getD i 0)

/-- For each of the 256 values acc: ((acc - 1) >> 8) & 1 on 32-bit unsigned words is 1 if acc = 0 and 0 otherwise.
(44_cteq.md section 1 (R211)) -/
def Obligations.BranchFreeResultBit : Prop :=
  ∀ acc : Byte, ctResultBit acc = if acc = 0 then 1 else 0

/-- For every command but SRST and every state: the operand registers KEY, IN, NONCE, CONST, PKEY, TAGX, CA, CB, SRC,
DST and LEN, the size of DMEM and the fields of the host are unchanged; OUT is unchanged except by CORE and HSAL;
TAG except by P1305.AUTH and P1305.VFY; DMEM is unchanged except by the stream commands, and by those every byte
outside DMEM[DST..DST+LEN-1] reads as before; ERR is unchanged once it is not 0; and whatever ERR was, no register
but STATUS changes when the command is refused. (10_state.md section 7 (R42), 20_memory.md section 6 (R71),
10_state.md section 4 (R35, R36)) -/
def Obligations.CommandsWriteOnlyWhatTheyMay : Prop :=
  ∀ (i : Instr) (s t : State), exec i s = .next t → i ≠ .srst →
    SameOperands s t ∧
    (i ≠ .core → i ≠ .hsal → t.out = s.out) ∧
    (i ≠ .p1305Auth → i ≠ .p1305Vfy → t.tag = s.tag) ∧
    (isStream i = false → t.dmem = s.dmem) ∧
    SameOutside s.dst.toNat s.len.toNat s.dmem t.dmem ∧
    (s.statusErr ≠ 0 → t.statusErr = s.statusErr) ∧
    (t.statusErr ≠ 0 → t.out = s.out ∧ t.tag = s.tag ∧ t.dmem = s.dmem)

/-- For every command but SRST: if it ends with ERR = 0 and is none of CEQ16, CEQ32, P1305.VFY, then EQ is unchanged; if
it ends with ERR not 0, EQ is 0. (10_state.md section 4 (R35)) -/
def Obligations.EqWrittenOnlyByComparisons : Prop :=
  ∀ (i : Instr) (s t : State), exec i s = .next t → i ≠ .srst →
    (t.statusErr = 0 → i ≠ .ceq16 → i ≠ .ceq32 → i ≠ .p1305Vfy → t.statusEq = s.statusEq) ∧
    (t.statusErr ≠ 0 → t.statusEq = false)

/-- For every command and every two states that differ in EQ only, the command leads to states that differ in EQ at
most. (10_state.md section 4 (R35), 45_control.md (R223)) -/
def Obligations.EqNeverReadByACommand : Prop :=
  ∀ (i : Instr) (s t : State) (b : Bool), exec i s = .next t →
    ∃ t', exec i { s with statusEq := b } = .next t' ∧ { t' with statusEq := t.statusEq } = t

/-- For every state: replacing CONST, IN and NONCE[8..23] by anything changes neither what S20.XOR and S20.KS write to
DMEM nor STATUS. (42_stream.md section 4 (R160, R161), 10_state.md section 2 (R22, R23, R24)) -/
def Obligations.S20IgnoresConstInAndUpperNonce : Prop :=
  ∀ (s : State) (off : Nat) (nonce' : Bytes 24) (const' inp' : Bytes 16),
    slice nonce' 0 8 = slice s.nonce 0 8 →
    ∀ i ∈ [Instr.s20Xor off, .s20Ks off], ∃ t,
      exec i s = .next t ∧
      exec i { s with nonce := nonce', const := const', inp := inp' } =
        .next { t with nonce := nonce', const := const', inp := inp' }

/-- For every state: if a step changes KEY, then its transaction was an aligned 32-bit write at an offset 0x020 to
0x03C, a write of 0x0000007F (SRST) to CMD, or a hardware reset. (10_state.md section 2 (R21), 10_state.md section 8
(R44)) -/
def Obligations.KeyChangesOnlyByHostOrReset : Prop :=
  ∀ s t : State, step s = .next t → t.key ≠ s.key →
    ∃ rest, (∃ (off : BitVec 12) (w : Word), s.pending = .regWrite 4 off w :: rest ∧
        off.toNat % 4 = 0 ∧ 0x020 ≤ off.toNat ∧ off.toNat ≤ 0x03C) ∨
      s.pending = .regWrite 4 0x008 0x0000007F :: rest ∨
      s.pending = .reset :: rest ∨ ∃ w, s.pending = .resetDuring w :: rest

/-- For every state: if a step changes what the byte at address a reads as, then its transaction was a host write of
that byte, or a write to CMD of a word that decodes to a stream command (perhaps cut short by a hardware reset) and
DST <= a < DST + LEN. (20_memory.md section 6 (R71, R72), 70_reset_and_hazards.md section 1 (R261, R263)) -/
def Obligations.DmemByteChangesOnlyWhereAllowed : Prop :=
  ∀ (s t : State) (a : Nat), step s = .next t → Dmem.read t.dmem a ≠ Dmem.read s.dmem a →
    ∃ rest, (∃ v, s.pending = .memWrite a v :: rest) ∨
      (s.dst.toNat ≤ a ∧ a < s.dst.toNat + s.len.toNat ∧ ∃ w i, decode w = .command i ∧ isStream i = true ∧
        (s.pending = .regWrite 4 0x008 w :: rest ∨ s.pending = .resetDuring w :: rest))

/-- For every state: if a step leads to a next state, its DMEM_BYTES is the one before. (00_scope.md section 5 (R8),
20_memory.md section 1 (R61)) -/
def Obligations.DmemSizeNeverChanges : Prop :=
  ∀ s t : State, step s = .next t → t.dmemBytes = s.dmemBytes

/-- For every state with DMEM in canonical form and inside DMEM_BYTES, DMEM_BYTES at most 2^32, ERR one of 0 to 4, and
EQ = 0 whenever ERR is not 0: if a step leads to a next state, that state has all of this too. (60_exceptions.md
section 2 (R231), 60_exceptions.md section 3 (R236, R237, R239), 20_memory.md section 1 (R61)) -/
def Obligations.InvariantKeptByStep : Prop :=
  ∀ s t : State, s.Inv → step s = .next t → t.Inv

/-- For every size at most 2^32 and every DMEM in canonical form inside that size, the state after power-on satisfies
the invariant; so does State.reset, whose DMEM_BYTES 4096 and unlisted bytes 0 are choices of the model (log 2, log
3). (10_state.md section 8 (R43), 70_reset_and_hazards.md section 1 (R262), notes/assumptions/2.md and 3.md) -/
def Obligations.InvariantHoldsAtLaunch : Prop :=
  (∀ (size : Nat) (contents : Dmem), size ≤ 2 ^ 32 → Dmem.wf contents → Dmem.below contents size →
      (State.powerOn size contents).Inv) ∧
    State.reset.Inv

/-- For every size and contents of DMEM: every register has its reset value, DMEM reads as the contents given, and a
step leaves the state as it is, no command running by itself; State.reset has the same registers. (10_state.md
section 8 (R43), 70_reset_and_hazards.md section 1 (R260, R262)) -/
def Obligations.LaunchLeavesResetValues : Prop :=
  (∀ (size : Nat) (contents : Dmem),
      AtResetValues (State.powerOn size contents) ∧
      (∀ a, Dmem.read (State.powerOn size contents).dmem a = Dmem.read contents a) ∧
      (State.powerOn size contents).dmemBytes = size ∧
      step (State.powerOn size contents) = .next (State.powerOn size contents)) ∧
    AtResetValues State.reset

/-- A hardware reset between commands leads, from every state, to a state with every register at its reset value, DMEM
unchanged and its size unchanged. (70_reset_and_hazards.md section 1 (R260, R261)) -/
def Obligations.HardwareResetSetsRegisters : Prop :=
  ∀ (s : State) (rest : List HostTxn), s.pending = .reset :: rest →
    ∃ t, step s = .next t ∧ AtResetValues t ∧ t.dmem = s.dmem ∧ t.dmemBytes = s.dmemBytes ∧
      t.pending = rest ∧ t.reads = s.reads ∧ t.aborts = s.aborts

/-- If a hardware reset cuts short the command of the word w, which run alone would lead to u: the registers have their
reset values; each byte of DMEM[DST..DST+LEN-1], DST and LEN as before, reads as before or as in u; every other byte
reads as before. (R263) -/
def Obligations.ResetDuringCommandLeavesOldOrNewBytes : Prop :=
  ∀ (s u : State) (w : Word) (rest : List HostTxn),
    s.pending = .resetDuring w :: rest → commandWrite w { s with pending := rest } = .next u →
    ∃ t, step s = .next t ∧ AtResetValues t ∧ t.dmemBytes = s.dmemBytes ∧ t.pending = rest ∧
      (∀ i, i < s.len.toNat →
        Dmem.read t.dmem (s.dst.toNat + i) = Dmem.read s.dmem (s.dst.toNat + i) ∨
        Dmem.read t.dmem (s.dst.toNat + i) = Dmem.read u.dmem (s.dst.toNat + i)) ∧
      SameOutside s.dst.toNat s.len.toNat s.dmem t.dmem

/-- For every state, locked or not, every word w and every writable offset of the map: an aligned 32-bit write of w
leads to a state in which that offset reads w, every other aligned offset reads as before, and DMEM is unchanged. A
write to 0x00C, 0x010 or 0x014 makes SRC, DST or LEN be w; and for every word k of the register, one to 0x020 + 4k,
0x040 + 4k, 0x050 + 4k, 0x060 + 4k, 0x0C0 + 4k, 0x0F0 + 4k, 0x100 + 4k or 0x120 + 4k puts w (little-endian) at bytes
4k to 4k+3 of KEY, IN, CONST, NONCE, PKEY, TAGX, CA or CB; nothing else changes. (10_state.md section 7 (R41),
10_state.md section 3 (R34)) -/
def Obligations.WindowWordsReadBack : Prop :=
  (∀ (s : State) (off : BitVec 12) (w : Word) (rest : List HostTxn),
      writableOffset off → s.pending = .regWrite 4 off w :: rest →
      ∃ t, step s = .next t ∧ t.readWindow off = w ∧
        (∀ off' : BitVec 12, off'.toNat % 4 = 0 → off' ≠ off → t.readWindow off' = s.readWindow off') ∧
        t.dmem = s.dmem ∧ t.dmemBytes = s.dmemBytes ∧ t.pending = rest ∧ t.reads = s.reads) ∧
  ∀ (s : State) (w : Word) (rest : List HostTxn),
    (WritesTo 0x00C w s rest { s with src := w, pending := rest } ∧
      WritesTo 0x010 w s rest { s with dst := w, pending := rest } ∧
      WritesTo 0x014 w s rest { s with len := w, pending := rest }) ∧
    ∀ k : Nat,
      (k < 8 → WritesTo (0x020 + 4 * k) w s rest { s with key := putWord s.key k w, pending := rest }) ∧
      (k < 4 → WritesTo (0x040 + 4 * k) w s rest { s with inp := putWord s.inp k w, pending := rest }) ∧
      (k < 4 → WritesTo (0x050 + 4 * k) w s rest { s with const := putWord s.const k w, pending := rest }) ∧
      (k < 6 → WritesTo (0x060 + 4 * k) w s rest { s with nonce := putWord s.nonce k w, pending := rest }) ∧
      (k < 8 → WritesTo (0x0C0 + 4 * k) w s rest { s with pkey := putWord s.pkey k w, pending := rest }) ∧
      (k < 4 → WritesTo (0x0F0 + 4 * k) w s rest { s with tagx := putWord s.tagx k w, pending := rest }) ∧
      (k < 8 → WritesTo (0x100 + 4 * k) w s rest { s with ca := putWord s.ca k w, pending := rest }) ∧
      (k < 8 → WritesTo (0x120 + 4 * k) w s rest { s with cb := putWord s.cb k w, pending := rest })

/-- For every state: an aligned 32-bit write to ID, OUT, TAG or a reserved offset changes nothing; ID reads 0x58533230,
CMD reads 0 and every reserved offset reads 0. (10_state.md section 7 (R41), 10_state.md section 3 (R30, R32)) -/
def Obligations.ReadOnlyAndReservedWritesIgnored : Prop :=
  (∀ (s : State) (off : BitVec 12) (w : Word) (rest : List HostTxn),
      readOnlyOffset off ∨ reservedOffset off → s.pending = .regWrite 4 off w :: rest →
      step s = .next { s with pending := rest }) ∧
    ∀ s : State, s.readWindow 0x000 = 0x58533230 ∧ s.readWindow 0x008 = 0 ∧
      ∀ off : BitVec 12, reservedOffset off → s.readWindow off = 0

/-- An aligned 32-bit read of the window yields the word at the offset; a read of a DMEM byte that exists yields that
byte; nothing else changes. The offsets 0x000, 0x004, 0x008, 0x00C, 0x010 and 0x014 read 0x58533230, EQ + 16*ERR, 0,
SRC, DST and LEN; and for every word k of the register, 0x020 + 4k, 0x040 + 4k, 0x050 + 4k, 0x060 + 4k, 0x080 + 4k,
0x0C0 + 4k, 0x0E0 + 4k, 0x0F0 + 4k, 0x100 + 4k and 0x120 + 4k read word k (little-endian) of KEY, IN, CONST, NONCE,
OUT, PKEY, TAG, TAGX, CA and CB. (20_memory.md section 4 (R64), 30_encoding.md section 5 (R110), 10_state.md section
7 (R41), 10_state.md section 3 (R30, R31, R32)) -/
def Obligations.HostReadsYieldAndChangeNothing : Prop :=
  (∀ (s : State) (off : BitVec 12) (rest : List HostTxn), off.toNat % 4 = 0 →
      s.pending = .regRead 4 off :: rest →
      step s = .next { s with pending := rest, reads := s.reads ++ [.word (s.readWindow off)] }) ∧
    (∀ (s : State) (a : Nat) (rest : List HostTxn), a < s.dmemBytes → s.pending = .memRead a :: rest →
      step s = .next { s with pending := rest, reads := s.reads ++ [.byte (Dmem.read s.dmem a)] }) ∧
  ∀ s : State,
    (s.readWindow 0x000 = 0x58533230 ∧ (s.readWindow 0x004).toNat = s.statusEq.toNat + 16 * s.statusErr.toNat ∧
      s.readWindow 0x008 = 0 ∧ s.readWindow 0x00C = s.src ∧ s.readWindow 0x010 = s.dst ∧
      s.readWindow 0x014 = s.len) ∧
    ∀ k : Nat,
      (k < 8 → s.readWindow (BitVec.ofNat 12 (0x020 + 4 * k)) = wordAt s.key k) ∧
      (k < 4 → s.readWindow (BitVec.ofNat 12 (0x040 + 4 * k)) = wordAt s.inp k) ∧
      (k < 4 → s.readWindow (BitVec.ofNat 12 (0x050 + 4 * k)) = wordAt s.const k) ∧
      (k < 6 → s.readWindow (BitVec.ofNat 12 (0x060 + 4 * k)) = wordAt s.nonce k) ∧
      (k < 16 → s.readWindow (BitVec.ofNat 12 (0x080 + 4 * k)) = wordAt s.out k) ∧
      (k < 8 → s.readWindow (BitVec.ofNat 12 (0x0C0 + 4 * k)) = wordAt s.pkey k) ∧
      (k < 4 → s.readWindow (BitVec.ofNat 12 (0x0E0 + 4 * k)) = wordAt s.tag k) ∧
      (k < 4 → s.readWindow (BitVec.ofNat 12 (0x0F0 + 4 * k)) = wordAt s.tagx k) ∧
      (k < 8 → s.readWindow (BitVec.ofNat 12 (0x100 + 4 * k)) = wordAt s.ca k) ∧
      (k < 8 → s.readWindow (BitVec.ofNat 12 (0x120 + 4 * k)) = wordAt s.cb k)

/-- A host write of b to an address a below DMEM_BYTES leads to a state where a reads b, every other address reads as
before, and nothing but DMEM has changed. (20_memory.md section 6 (R72), 10_state.md section 6 (R39)) -/
def Obligations.HostByteWriteChangesOneByte : Prop :=
  ∀ (s : State) (a : Nat) (b : Byte) (rest : List HostTxn), a < s.dmemBytes →
    s.pending = .memWrite a b :: rest →
    ∃ t, step s = .next t ∧ t = { s with pending := rest, dmem := t.dmem } ∧ Dmem.read t.dmem a = b ∧
      SameOutside a 1 s.dmem t.dmem

/-- A register read or write whose size is not 4 bytes or whose offset is not a multiple of 4 is refused by the model,
as the spec says. A host access to a DMEM byte at or above DMEM_BYTES is a fault: this clause is the choice of the
model (log 7, DEDUCED), since no rule says what such an access does. (10_state.md section 7 (R41),
93_implementation_defined.md U17, notes/assumptions/7.md) -/
def Obligations.HostAccessesWithoutMeaningStop : Prop :=
  ∀ (s : State) (rest : List HostTxn),
    (∀ (size : Nat) (off : BitVec 12) (w : Word), size ≠ 4 ∨ off.toNat % 4 ≠ 0 →
      (s.pending = .regWrite size off w :: rest → step s = .refused .unalignedRegisterAccess) ∧
      (s.pending = .regRead size off :: rest → step s = .refused .unalignedRegisterAccess)) ∧
    ∀ (a : Nat) (b : Byte), s.dmemBytes ≤ a →
      (s.pending = .memWrite a b :: rest → step s = .fault .hostOutsideDmem) ∧
      (s.pending = .memRead a :: rest → step s = .fault .hostOutsideDmem)

/-- For each of KEY, IN, CONST, NONCE, PKEY, TAGX, CA and CB, every byte string of a length that is a multiple of 4 and
at most the size of the register, and every state, locked or not: ldb of the string expands to as many transactions
as it has words, and after that many steps the register holds the string from index 0 on and its old bytes after it
(with the whole size: just the string), and nothing else of the state has changed. (30_encoding.md section 5 (R111),
10_state.md section 7 (R41)) -/
def Obligations.LoadBytesFillsTheRegister : Prop :=
  ∀ (bytes : List Byte) (s : State) (rest : List HostTxn), bytes.length % 4 = 0 →
    (bytes.length ≤ 32 → LoadsTo .key bytes s rest { s with key := overlay bytes s.key, pending := rest }) ∧
    (bytes.length ≤ 16 → LoadsTo .inp bytes s rest { s with inp := overlay bytes s.inp, pending := rest }) ∧
    (bytes.length ≤ 16 → LoadsTo .const bytes s rest { s with const := overlay bytes s.const, pending := rest }) ∧
    (bytes.length ≤ 24 → LoadsTo .nonce bytes s rest { s with nonce := overlay bytes s.nonce, pending := rest }) ∧
    (bytes.length ≤ 32 → LoadsTo .pkey bytes s rest { s with pkey := overlay bytes s.pkey, pending := rest }) ∧
    (bytes.length ≤ 16 → LoadsTo .tagx bytes s rest { s with tagx := overlay bytes s.tagx, pending := rest }) ∧
    (bytes.length ≤ 32 → LoadsTo .ca bytes s rest { s with ca := overlay bytes s.ca, pending := rest }) ∧
    (bytes.length ≤ 32 → LoadsTo .cb bytes s rest { s with cb := overlay bytes s.cb, pending := rest })

/-- st32(le32(B)) = B for every 4-byte string B; a word written to word k of a byte register reads back as that word,
puts byte j of the word (weight 2^(8j)) at index 4k+j, and leaves every other byte. (00_scope.md section 6 (R10),
10_state.md section 7 (R41)) -/
def Obligations.WordViewIsLittleEndian : Prop :=
  (∀ b0 b1 b2 b3 : Byte,
      [st32Byte (le32 b0 b1 b2 b3) 0, st32Byte (le32 b0 b1 b2 b3) 1, st32Byte (le32 b0 b1 b2 b3) 2,
        st32Byte (le32 b0 b1 b2 b3) 3] = [b0, b1, b2, b3]) ∧
    ∀ (n : Nat) (b : Bytes n) (k : Nat) (w : Word), 4 * k + 3 < n →
      wordAt (putWord b k w) k = w ∧
      (∀ j, j < 4 → ((putWord b k w).getD (4 * k + j) 0).toNat = w.toNat / 256 ^ j % 256) ∧
      ∀ i, i / 4 ≠ k → (putWord b k w).getD i 0 = b.getD i 0

/-- For every n and v, the little-endian value of st_n(v) is v mod 2^(8n). (00_scope.md section 6 (R10)) -/
def Obligations.StoredNumberReadsBack : Prop :=
  ∀ n v : Nat, le (stBytes n v).toList = v % 2 ^ (8 * n)

/-- rounds20 is injective and surjective on sixteen words; sixteen zero words go to sixteen zero words, and the core on
zero operands gives 64 zero bytes. (40_salsa20core.md section 3 (R125), 40_salsa20core.md section 5 (R129)) -/
def Obligations.RoundsAreABijection : Prop :=
  Function.Bijective rounds20 ∧ rounds20 (Vector.replicate 16 0) = Vector.replicate 16 0 ∧
    salsa20Core (zeroBytes 16) (zeroBytes 32) (zeroBytes 16) = zeroBytes 64

/-- For every nonce and j: the byte-by-byte increment with carry of bytes 8 to 15 of the input block of counter j gives
the input block of counter (j + 1) mod 2^64 under the same nonce. (42_stream.md section 2 (R152, R153)) -/
def Obligations.CounterIncrementIsPlusOne : Prop :=
  ∀ (nonce : Bytes 8) (j : Nat),
    incrementCounter (counterBlock nonce j) = counterBlock nonce ((j + 1) % 2 ^ 64)

/-- For every key, nonce, offset 0 to 63 and length, the procedure that takes min(len, 64 - off) bytes of the first
block, then whole blocks, then a prefix of one more, incrementing the counter between blocks, gives the same bytes
as stream_apply, for raw keystream and for a source of that length. (42_stream.md section 3 (R156, R157)) -/
def Obligations.SegmentProcedureGivesTheStream : Prop :=
  ∀ (key : Bytes 32) (nonce : Bytes 8) (off len : Nat), off ≤ 63 →
    streamProcedure key nonce off len none = streamApply key nonce off len none ∧
    ∀ m : List Byte, m.length = len →
      streamProcedure key nonce off len (some m) = streamApply key nonce off len (some m)

/-- For every key, nonce, offset, source and pad of OFF bytes, stream_apply with the offset gives the output of
stream_apply without offset on pad || source, less its first OFF bytes. (R159) -/
def Obligations.SplitStreamIsAWindow : Prop :=
  ∀ (key : Bytes 32) (nonce : Bytes 8) (off : Nat) (pad src : List Byte), pad.length = off →
    streamApply key nonce off src.length (some src) =
      (streamApply key nonce 0 (off + src.length) (some (pad ++ src))).drop off

/-- For every state ready for an .XOR command whose source bytes are all zero, S20.KS leads to the same state as
S20.XOR, and XS20.KS to the same as XS20.XOR. (42_stream.md section 4 (R161), 42_stream.md section 3 (R156)) -/
def Obligations.KsIsXorOfZeroBytes : Prop :=
  ∀ (s : State) (off : Nat), s.xorReady →
    (∀ i, i < s.len.toNat → Dmem.read s.dmem (s.src.toNat + i) = 0) →
      ∃ t u, exec (.s20Ks off) s = .next t ∧ exec (.s20Xor off) s = .next t ∧
        exec (.xs20Ks off) s = .next u ∧ exec (.xs20Xor off) s = .next u

/-- Let an .XOR command (S20 or XS20) that is ready lead from s to t, and the same command, with SRC at the first
destination and DST at any d for which it is ready, lead from there to u, KEY, NONCE, OFF and LEN being the same:
byte i of the buffer at d reads in u as byte i of the source buffer read in s. In place (SRC = DST = d) every byte
of DMEM reads as at first. (R165) -/
def Obligations.XorOfItsOwnOutputRestoresTheSource : Prop :=
  ∀ (s t u : State) (d : Word) (off : Nat) (i : Instr), i ∈ [Instr.s20Xor off, .xs20Xor off] →
    s.xorReady → exec i s = .next t →
    State.xorReady { t with src := s.dst, dst := d } → exec i { t with src := s.dst, dst := d } = .next u →
      (∀ k, k < s.len.toNat → Dmem.read u.dmem (d.toNat + k) = Dmem.read s.dmem (s.src.toNat + k)) ∧
      (s.src = s.dst → d = s.dst → ∀ a, Dmem.read u.dmem a = Dmem.read s.dmem a)

/-- Two states with the same KEY, NONCE and LEN, both ready for an .XOR command: after the same .XOR command on each,
the XOR of the two destination bytes i equals the XOR of the two source bytes i, for every i below LEN. (R166) -/
def Obligations.NonceReuseLeaksTheXor : Prop :=
  ∀ (s1 s2 t1 t2 : State) (off : Nat) (i : Instr), i ∈ [Instr.s20Xor off, .xs20Xor off] →
    s1.xorReady → s2.xorReady → s1.key = s2.key → s1.nonce = s2.nonce → s1.len = s2.len →
    exec i s1 = .next t1 → exec i s2 = .next t2 →
      ∀ k, k < s1.len.toNat →
        Dmem.read t1.dmem (s1.dst.toNat + k) ^^^ Dmem.read t2.dmem (s2.dst.toNat + k) =
          Dmem.read s1.dmem (s1.src.toNat + k) ^^^ Dmem.read s2.dmem (s2.src.toNat + k)

/-- For every state ready for a .KS command: run HSAL with IN = NONCE[0..15] and CONST = SIGMA, take OUT[0..31] as KEY
and any NONCE whose first 8 bytes are NONCE[16..23]; then S20.KS writes the same DMEM as XS20.KS does on the first
state. (42_stream.md section 3 (R158), 41_hsalsa20.md section 2 (R142, R143)) -/
def Obligations.Xs20IsHsalThenS20 : Prop :=
  ∀ (s t : State) (off : Nat) (nonce' : Bytes 24), s.ksReady →
    exec .hsal { s with inp := slice s.nonce 0 16, const := Config.sigma } = .next t →
    slice nonce' 0 8 = slice s.nonce 16 8 →
      ∃ u v, exec (.xs20Ks off) s = .next u ∧
        exec (.s20Ks off) { s with key := slice t.out 0 32, nonce := nonce' } = .next v ∧ u.dmem = v.dmem

/-- For every key: r < 2^124 and s < 2^128; in the clamped first half bytes 3, 7, 11, 15 are below 16, bytes 4, 8, 12
are multiples of 4, and bytes 0, 1, 2, 5, 6, 9, 10, 13, 14 are those of the key. (43_poly1305.md section 2 (R181)) -/
def Obligations.ClampMasksSevenBytes : Prop :=
  ∀ key : Bytes 32, polyR key < 2 ^ 124 ∧ polyS key < 2 ^ 128 ∧
    (∀ i ∈ [3, 7, 11, 15], ((clampedBytes key).getD i 0).toNat = (key.getD i 0).toNat % 16) ∧
    (∀ i ∈ [4, 8, 12], ((clampedBytes key).getD i 0).toNat = (key.getD i 0).toNat / 4 * 4) ∧
    ∀ i ∈ [0, 1, 2, 5, 6, 9, 10, 13, 14], (clampedBytes key).getD i 0 = key.getD i 0

/-- For every key whose clamped first half is zero and every message, the tag is key[16..31]. (43_poly1305.md section 5
(R193)) -/
def Obligations.ZeroMultiplierTagIsS : Prop :=
  ∀ (key : Bytes 32) (msg : List Byte), polyR key = 0 → (poly1305Tag msg key).toList = key.toList.drop 16

/-- For every message and every 32-byte key, the tag of the limb procedure (add, schoolbook multiply with the factor
320, squeeze, freeze, add s) equals the tag of the integer definition. (43_poly1305.md section 3 (R184 to R190),
43_poly1305.md section 2 (R183)) -/
def Obligations.LimbProcedureGivesTheCanonicalTag : Prop :=
  ∀ (msg : List Byte) (key : Bytes 32), limbTag msg key = poly1305Tag msg key

/-- For every key and message, after the chunks of the message the limb accumulator has 17 limbs, of which limbs 0 to 15
are at most 255 and limb 16 at most 4; its value is below 2^130 + 2^35. (43_poly1305.md section 3 (R189),
10_state.md section 5 (R38)) -/
def Obligations.LimbsStayInBounds : Prop :=
  ∀ (msg : List Byte) (key : Bytes 32),
    let h := (chunks msg).foldl (limbStep (limbsOfBytes (clampedBytes key).toList)) (List.replicate 17 0)
    h.length = 17 ∧ (∀ j, j < 16 → h.getD j 0 ≤ 255) ∧ h.getD 16 0 ≤ 4 ∧ limbValue h < 2 ^ 130 + 2 ^ 35

/-- For every register and k a multiple of 4 with base + k inside the window, wr and rd expand to the 32-bit write of
the value and the 32-bit read at base + k; mwr expands to one byte write per byte, ascending from addr; mrd to one
byte read per byte, and when the bytes exist it yields DMEM[addr..addr+n-1] and changes nothing of the block; buf
writes SRC, DST and LEN in this order; clr writes 0 to STATUS; a command with off at most 63 writes its encoding to
CMD. For every state and each of KEY, IN, CONST, NONCE, OUT, PKEY, TAG, TAGX, CA and CB, rdb expands, the
concatenation of st32 of each word read is the register, byte 0 first, and nothing but the lists of the host has
changed; for ID, STATUS, CMD, SRC, DST and LEN it is st32 of 0x58533230, EQ + 16*ERR, 0, SRC, DST and LEN.
(30_encoding.md section 5 (R110, R111), 10_state.md section 7 (R41)) -/
def Obligations.HostStatementsReachTheBlock : Prop :=
  (∀ (reg : Reg) (k base : Nat) (w : Word), (reg, base) ∈ mapBases → k % 4 = 0 → base + k < 0x1000 →
      (HostStmt.wr reg k w).expand = some [.regWrite 4 (BitVec.ofNat 12 (base + k)) w] ∧
      (HostStmt.rd reg k).expand = some [.regRead 4 (BitVec.ofNat 12 (base + k))]) ∧
    (∀ (addr : Nat) (bytes : List Byte), ∃ txns, (HostStmt.mwr addr bytes).expand = some txns ∧
      txns.length = bytes.length ∧
      ∀ i, (h : i < bytes.length) → txns[i]? = some (.memWrite (addr + i) bytes[i])) ∧
    (∀ (s : State) (addr n : Nat) (rest : List HostTxn), (n = 0 ∨ addr + n ≤ s.dmemBytes) →
      YieldsBytes (.mrd addr n) s rest (Dmem.readBytes s.dmem addr n)) ∧
    (∀ s d n : Word, (HostStmt.buf s d n).expand =
      some [.regWrite 4 0x00C s, .regWrite 4 0x010 d, .regWrite 4 0x014 n]) ∧
    HostStmt.clr.expand = some [.regWrite 4 0x004 0] ∧
    (∀ i : Instr, i.off ≤ 63 → (HostStmt.command i).expand = some [.regWrite 4 0x008 (encode i)]) ∧
  ∀ (s : State) (rest : List HostTxn),
    (YieldsBytes (.rdb .key) s rest s.key.toList ∧ YieldsBytes (.rdb .inp) s rest s.inp.toList ∧
      YieldsBytes (.rdb .const) s rest s.const.toList ∧ YieldsBytes (.rdb .nonce) s rest s.nonce.toList ∧
      YieldsBytes (.rdb .out) s rest s.out.toList ∧ YieldsBytes (.rdb .pkey) s rest s.pkey.toList ∧
      YieldsBytes (.rdb .tag) s rest s.tag.toList ∧ YieldsBytes (.rdb .tagx) s rest s.tagx.toList ∧
      YieldsBytes (.rdb .ca) s rest s.ca.toList ∧ YieldsBytes (.rdb .cb) s rest s.cb.toList) ∧
    YieldsBytes (.rdb .id) s rest (stBytes 4 0x58533230).toList ∧
    YieldsBytes (.rdb .status) s rest (stBytes 4 (s.statusEq.toNat + 16 * s.statusErr.toNat)).toList ∧
    YieldsBytes (.rdb .cmd) s rest (stBytes 4 0).toList ∧ YieldsBytes (.rdb .src) s rest (stBytes 4 s.src.toNat).toList ∧
    YieldsBytes (.rdb .dst) s rest (stBytes 4 s.dst.toNat).toList ∧
    YieldsBytes (.rdb .len) s rest (stBytes 4 s.len.toNat).toList

/-- For every state, register, k inside the window, value and programs that expand: the program if rd REG+k == value
then A else B, rest expands, and after two steps (the read, the test) the block is as it was, the read is recorded,
and what is to come is A, a jump over B, B and the rest if the word read is the value, else B and the rest; and at
the jump, one step leaves the rest and changes nothing else. That a host program may test a value it has read is the
rule R110; the form stated here, the test as a step of its own, the test and skip entries in the list and the jump
over B, is the choice of the model (log 12, DESIGN CHOICE), since no rule gives the conditional a form.
(30_encoding.md section 5 (R110), 45_control.md (R223), notes/assumptions/12.md) -/
def Obligations.HostConditionalTakesOnePart : Prop :=
  ∀ (s : State) (reg : Reg) (k base : Nat) (value : Word) (a b r : HostProgram) (ta tb tr more : List HostTxn),
    (reg, base) ∈ mapBases → k % 4 = 0 → base + k < 0x1000 →
    expandProgram a = some ta → expandProgram b = some tb → expandProgram r = some tr →
      let word := s.readWindow (BitVec.ofNat 12 (base + k))
      (∃ txns, expandProgram (.ifRd reg k value a b r) = some txns ∧
        Host.Core.run Sys2Proof.core 2 { s with pending := txns ++ more } =
          .next { s with
            reads := s.reads ++ [.word word],
            pending := if word = value then ta ++ .skip tb.length :: (tb ++ tr ++ more) else tb ++ tr ++ more }) ∧
      step { s with pending := .skip tb.length :: (tb ++ tr ++ more) } = .next { s with pending := tr ++ more }
end

