-- ==== Sys2Proof/Laws/Memory.lean ====
section
/-!
SUPPORT. The laws of DMEM: a read after a write, and that every operation keeps the canonical form and the bound on the
addresses.
-/

namespace Sys2Proof.Machine

/-! ### Read after write, for every list of cells -/

theorem Dmem.read_remove_self (m : Dmem) (a : Nat) : Dmem.read (Dmem.remove m a) a = Dmem.unlisted a := by
  induction m with
  | nil => rfl
  | cons c m ih =>
    obtain ⟨k, b⟩ := c
    by_cases h : k = a <;> simp [Dmem.remove, Dmem.read, h, ih]

theorem Dmem.read_remove_ne (m : Dmem) {a a' : Nat} (h : a' ≠ a) :
    Dmem.read (Dmem.remove m a) a' = Dmem.read m a' := by
  induction m with
  | nil => rfl
  | cons c m ih =>
    obtain ⟨k, b⟩ := c
    by_cases hk : k = a
    · subst hk; simp [Dmem.remove, Dmem.read, ih, Ne.symm h]
    · simp [Dmem.remove, Dmem.read, hk, ih]

theorem Dmem.mem_remove {m : Dmem} {a : Nat} {c : Host.Cell} : c ∈ Dmem.remove m a ↔ c ∈ m ∧ c.1 ≠ a := by
  induction m with
  | nil => simp [Dmem.remove]
  | cons d m ih =>
    obtain ⟨k, b⟩ := d
    by_cases hk : k = a
    · subst hk
      simp only [Dmem.remove, if_pos, ih, List.mem_cons]
      constructor
      · rintro ⟨h1, h2⟩; exact ⟨.inr h1, h2⟩
      · rintro ⟨rfl | h1, h2⟩
        · exact absurd rfl h2
        · exact ⟨h1, h2⟩
    · simp only [Dmem.remove, if_neg hk, List.mem_cons, ih]
      constructor
      · rintro (rfl | ⟨h1, h2⟩)
        · exact ⟨.inl rfl, hk⟩
        · exact ⟨.inr h1, h2⟩
      · rintro ⟨rfl | h1, h2⟩
        · exact .inl rfl
        · exact .inr ⟨h1, h2⟩

theorem Dmem.read_place_self {m : Dmem} {a : Nat} (v : Byte) (h : ∀ c ∈ m, c.1 ≠ a) :
    Dmem.read (Dmem.place m a v) a = v := by
  induction m with
  | nil => simp [Dmem.place, Dmem.read]
  | cons c m ih =>
    obtain ⟨k, b⟩ := c
    have hk : k ≠ a := h (k, b) (by simp)
    have hm := ih fun c hc => h c (by simp [hc])
    by_cases hlt : a < k <;> simp [Dmem.place, Dmem.read, hlt, hk, hm]

theorem Dmem.read_place_ne (m : Dmem) {a a' : Nat} (v : Byte) (h : a' ≠ a) :
    Dmem.read (Dmem.place m a v) a' = Dmem.read m a' := by
  induction m with
  | nil => simp [Dmem.place, Dmem.read, Ne.symm h]
  | cons c m ih =>
    obtain ⟨k, b⟩ := c
    by_cases hlt : a < k <;> simp [Dmem.place, Dmem.read, hlt, ih, Ne.symm h]

/-- A read after a write to the same address gives the value written. -/
@[simp] theorem Dmem.read_write_self (m : Dmem) (a : Nat) (v : Byte) : Dmem.read (Dmem.write m a v) a = v := by
  unfold Dmem.write
  split
  · next h => rw [Dmem.read_remove_self, h]
  · exact Dmem.read_place_self v fun c hc => (Dmem.mem_remove.1 hc).2

/-- A write leaves every other address alone. -/
theorem Dmem.read_write_ne (m : Dmem) {a a' : Nat} (v : Byte) (h : a' ≠ a) :
    Dmem.read (Dmem.write m a v) a' = Dmem.read m a' := by
  unfold Dmem.write
  split
  · exact Dmem.read_remove_ne m h
  · rw [Dmem.read_place_ne _ v h, Dmem.read_remove_ne m h]

/-- A byte string written leaves every byte outside it alone. -/
theorem Dmem.read_writeBytes_outside (m : Dmem) (addr : Nat) (bs : List Byte) {a : Nat}
    (h : a < addr ∨ addr + bs.length ≤ a) : Dmem.read (Dmem.writeBytes m addr bs) a = Dmem.read m a := by
  induction bs generalizing m addr with
  | nil => rfl
  | cons b bs ih =>
    simp only [List.length_cons] at h
    rw [Dmem.writeBytes, ih _ _ (by omega), Dmem.read_write_ne _ _ (by omega)]

/-- Byte i of a byte string written at addr is read back at addr + i. -/
theorem Dmem.read_writeBytes_inside (m : Dmem) (addr : Nat) (bs : List Byte) {i : Nat} (h : i < bs.length) :
    Dmem.read (Dmem.writeBytes m addr bs) (addr + i) = bs[i] := by
  induction bs generalizing m addr i with
  | nil => simp at h
  | cons b bs ih =>
    cases i with
    | zero => rw [Dmem.writeBytes, Dmem.read_writeBytes_outside _ _ _ (by omega)]; simp
    | succ i =>
      have hi : i < bs.length := by simpa using h
      have := ih (Dmem.write m addr b) (addr + 1) hi
      rw [show addr + 1 + i = addr + (i + 1) by omega] at this
      simpa [Dmem.writeBytes] using this

@[simp] theorem Dmem.length_readBytes (m : Dmem) (addr n : Nat) : (Dmem.readBytes m addr n).length = n := by
  simp [Dmem.readBytes]

@[simp] theorem Dmem.getElem_readBytes (m : Dmem) (addr n i : Nat) (h : i < (Dmem.readBytes m addr n).length) :
    (Dmem.readBytes m addr n)[i] = Dmem.read m (addr + i) := by
  simp [Dmem.readBytes]

/-! ### The canonical form -/

/-- Where every address of the list is above a, so is every address after an entry for a was removed. -/
theorem Dmem.wf_remove {m : Dmem} (h : Dmem.wf m) (a : Nat) : Dmem.wf (Dmem.remove m a) := by
  refine ⟨?_, fun c hc => h.2 c (Dmem.mem_remove.1 hc).1⟩
  have hs := h.1
  clear h
  induction m with
  | nil => exact List.Pairwise.nil
  | cons d m ih =>
    obtain ⟨k, b⟩ := d
    rw [List.pairwise_cons] at hs
    by_cases hk : k = a
    · simpa [Dmem.remove, hk] using ih hs.2
    · rw [Dmem.remove, if_neg hk, List.pairwise_cons]
      exact ⟨fun c hc => hs.1 c (Dmem.mem_remove.1 hc).1, ih hs.2⟩

theorem Dmem.mem_place {m : Dmem} {a : Nat} {v : Byte} {c : Host.Cell} :
    c ∈ Dmem.place m a v ↔ c = (a, v) ∨ c ∈ m := by
  induction m with
  | nil => simp [Dmem.place]
  | cons d m ih =>
    obtain ⟨k, b⟩ := d
    by_cases h : a < k
    · simp [Dmem.place, h]
    · simp only [Dmem.place, if_neg h, List.mem_cons, ih]
      constructor
      · rintro (rfl | rfl | hm)
        · exact .inr (.inl rfl)
        · exact .inl rfl
        · exact .inr (.inr hm)
      · rintro (rfl | rfl | hm)
        · exact .inr (.inl rfl)
        · exact .inl rfl
        · exact .inr (.inr hm)

theorem Dmem.wf_place {m : Dmem} (h : Dmem.wf m) {a : Nat} {v : Byte} (ha : ∀ c ∈ m, c.1 ≠ a)
    (hv : v ≠ Dmem.unlisted a) : Dmem.wf (Dmem.place m a v) := by
  refine ⟨?_, fun c hc => ?_⟩
  · have hs := h.1
    clear h
    induction m with
    | nil => simp [Dmem.place]
    | cons d m ih =>
      obtain ⟨k, b⟩ := d
      rw [List.pairwise_cons] at hs
      have hk : k ≠ a := ha (k, b) (by simp)
      by_cases hlt : a < k
      · rw [Dmem.place, if_pos hlt, List.pairwise_cons, List.pairwise_cons]
        refine ⟨fun c hc => ?_, hs⟩
        rcases List.mem_cons.1 hc with rfl | hc
        · exact hlt
        · exact Nat.lt_trans hlt (hs.1 c hc)
      · rw [Dmem.place, if_neg hlt, List.pairwise_cons]
        refine ⟨fun c hc => ?_, ih (fun c hc => ha c (by simp [hc])) hs.2⟩
        rcases Dmem.mem_place.1 hc with rfl | hc
        · show k < a; omega
        · exact hs.1 c hc
  · rcases Dmem.mem_place.1 hc with rfl | hc
    · exact hv
    · exact h.2 c hc

/-- A write keeps the canonical form. -/
theorem Dmem.wf_write {m : Dmem} (h : Dmem.wf m) (a : Nat) (v : Byte) : Dmem.wf (Dmem.write m a v) := by
  unfold Dmem.write
  split
  · exact Dmem.wf_remove h a
  · next hv => exact Dmem.wf_place (Dmem.wf_remove h a) (fun c hc => (Dmem.mem_remove.1 hc).2) hv

/-- Writing a byte string keeps the canonical form. -/
theorem Dmem.wf_writeBytes {m : Dmem} (h : Dmem.wf m) (addr : Nat) (bs : List Byte) :
    Dmem.wf (Dmem.writeBytes m addr bs) := by
  induction bs generalizing m addr with
  | nil => exact h
  | cons b bs ih => exact ih (Dmem.wf_write h addr b) (addr + 1)

/-- A hardware reset during a command keeps the canonical form. -/
theorem Dmem.wf_abortMix {old : Dmem} (h : Dmem.wf old) (n : Nat) (new : Dmem) (dst len : Nat) :
    Dmem.wf (Dmem.abortMix n old new dst len) := Dmem.wf_writeBytes h _ _

/-- The memory of State.reset is in canonical form. -/
theorem State.reset_dmem_wf : Dmem.wf State.reset.dmem := by decide

/-- Two canonical memories that read alike everywhere are the same list. -/
theorem Dmem.ext_of_wf {m m' : Dmem} (h : Dmem.wf m) (h' : Dmem.wf m') (hr : ∀ a, Dmem.read m a = Dmem.read m' a) :
    m = m' := by
  have read_lt : ∀ {l : Dmem} {a : Nat}, (∀ c ∈ l, a < c.1) → Dmem.read l a = Dmem.unlisted a := by
    intro l a hl
    induction l with
    | nil => rfl
    | cons c l ih =>
      obtain ⟨k, b⟩ := c
      have : k ≠ a := by have := hl (k, b) (by simp); simp at this; omega
      rw [Dmem.read, if_neg this, ih fun c hc => hl c (by simp [hc])]
  induction m generalizing m' with
  | nil =>
    cases m' with
    | nil => rfl
    | cons c' m' =>
      have := hr c'.1
      exact absurd (by simpa [Dmem.read] using this.symm) (h'.2 c' (by simp))
  | cons c m ih =>
    obtain ⟨k, b⟩ := c
    have hs := List.pairwise_cons.1 h.1
    have hb : b ≠ Dmem.unlisted k := h.2 (k, b) (by simp)
    cases m' with
    | nil => exact absurd (by simpa [Dmem.read] using hr k) hb
    | cons c' m' =>
      obtain ⟨k', b'⟩ := c'
      have hs' := List.pairwise_cons.1 h'.1
      have hb' : b' ≠ Dmem.unlisted k' := h'.2 (k', b') (by simp)
      have hkk : k = k' := by
        rcases Nat.lt_trichotomy k k' with hlt | heq | hgt
        · have h1 := hr k
          have h2 : Dmem.read ((k', b') :: m') k = Dmem.unlisted k := read_lt fun c hc => by
            rcases List.mem_cons.1 hc with rfl | hc
            · exact hlt
            · exact Nat.lt_trans hlt (hs'.1 c hc)
          rw [h2] at h1
          exact absurd (by simpa [Dmem.read] using h1) hb
        · exact heq
        · have h1 := hr k'
          have h2 : Dmem.read ((k, b) :: m) k' = Dmem.unlisted k' := read_lt fun c hc => by
            rcases List.mem_cons.1 hc with rfl | hc
            · exact hgt
            · exact Nat.lt_trans hgt (hs.1 c hc)
          rw [h2] at h1
          exact absurd (by simpa [Dmem.read] using h1.symm) hb'
      subst hkk
      have hbb : b = b' := by simpa [Dmem.read] using hr k
      subst hbb
      congr 1
      refine ih ⟨hs.2, fun c hc => h.2 c (by simp [hc])⟩ ⟨hs'.2, fun c hc => h'.2 c (by simp [hc])⟩ fun a => ?_
      by_cases ha : k = a
      · subst ha; rw [read_lt hs.1, read_lt hs'.1]
      · simpa [Dmem.read, ha] using hr a

/-! ### The bound on the addresses -/

/-- A write below the bound keeps it; so does writing, at any address, what an unlisted address reads as. -/
theorem Dmem.below_write {m : Dmem} {n : Nat} (h : Dmem.below m n) {a : Nat} {v : Byte}
    (ha : a < n ∨ v = Dmem.unlisted a) : Dmem.below (Dmem.write m a v) n := by
  intro c hc
  unfold Dmem.write at hc
  split at hc
  · exact h c (Dmem.mem_remove.1 hc).1
  · next hv =>
    rcases Dmem.mem_place.1 hc with rfl | hc
    · exact ha.resolve_right hv
    · exact h c (Dmem.mem_remove.1 hc).1

/-- Writing a byte string that ends at or below the bound keeps it. -/
theorem Dmem.below_writeBytes {m : Dmem} {n : Nat} (h : Dmem.below m n) {addr : Nat} {bs : List Byte}
    (ha : bs = [] ∨ addr + bs.length ≤ n) : Dmem.below (Dmem.writeBytes m addr bs) n := by
  induction bs generalizing m addr with
  | nil => exact h
  | cons b bs ih =>
    simp only [List.length_cons, reduceCtorEq, false_or] at ha
    exact ih (Dmem.below_write h (.inl (by omega))) (.inr (by omega))

/-- An address at or above the bound is not listed. -/
theorem Dmem.read_of_below {m : Dmem} {n a : Nat} (h : Dmem.below m n) (ha : n ≤ a) :
    Dmem.read m a = Dmem.unlisted a := by
  induction m with
  | nil => rfl
  | cons c m ih =>
    obtain ⟨k, b⟩ := c
    have : k ≠ a := by have := h (k, b) (by simp); simp at this; omega
    rw [Dmem.read, if_neg this, ih fun c hc => h c (by simp [hc])]

end Sys2Proof.Machine
end

