-- ==== Sys2Proof/Laws/Bytes.lean ====
section
/-!
SUPPORT. Bytes of the byte strings the operations build, and the lengths of the streams.
-/

namespace Sys2Proof.Machine

/-- A byte of a byte string read with a default, inside it. -/
theorem getD_of_lt {n : Nat} (b : Bytes n) (d : Byte) {i : Nat} (h : i < n) : b.getD i d = b[i] := by
  simp [Vector.getD, h]

/-- A byte of a byte string read with a default, beyond its end. -/
theorem getD_of_le {n : Nat} (b : Bytes n) (d : Byte) {i : Nat} (h : n ≤ i) : b.getD i d = d := by
  simp [Vector.getD, Array.getD, Nat.not_lt.2 h]

@[simp] theorem getD_slice {n : Nat} (b : Bytes n) (start len i : Nat) (h : i < len) (d : Byte) :
    (slice b start len).getD i d = b.getD (start + i) 0 := by
  simp [slice, Vector.getD, h]

@[simp] theorem getElem_slice {n : Nat} (b : Bytes n) (start len i : Nat) (h : i < len) :
    (slice b start len)[i] = b.getD (start + i) 0 := by
  simp [slice]

@[simp] theorem getElem_stBytes (n v i : Nat) (h : i < n) : (stBytes n v)[i] = BitVec.ofNat 8 (v / 256 ^ i) := by
  simp [stBytes]

@[simp] theorem getElem_storeWords {m : Nat} (x : Words m) (i : Nat) (h : i < 4 * m) :
    (storeWords x)[i] = st32Byte (x[i / 4]'(by omega)) (i % 4) := by
  simp [storeWords]

@[simp] theorem getElem_putWord {n : Nat} (b : Bytes n) (k : Nat) (w : Word) (i : Nat) (h : i < n) :
    (putWord b k w)[i] = if i / 4 = k then st32Byte w (i % 4) else b[i] := by
  simp [putWord]

@[simp] theorem getElem_widenOut (b : Bytes 32) (i : Nat) (h : i < 64) : (widenOut b)[i] = b.getD i 0 := by
  simp [widenOut]

/-- `le32` of the four bytes of `st32(w)` is w (R10). -/
theorem le32_st32Byte (w : Word) : le32 (st32Byte w 0) (st32Byte w 1) (st32Byte w 2) (st32Byte w 3) = w := by
  apply BitVec.eq_of_toNat_eq
  have := w.isLt
  simp only [st32Byte, le32, BitVec.extractLsb'_toNat, BitVec.toNat_ofNat, Nat.shiftRight_eq_div_pow]
  omega

/-- A byte string whose bytes 4k to 4k+3 are those of `st32(w)` has w as its word k. -/
theorem wordAt_of_bytes {n : Nat} {b : Bytes n} {k : Nat} {w : Word}
    (h : ∀ j, j < 4 → b.getD (4 * k + j) 0 = st32Byte w j) : wordAt b k = w := by
  have h0 := h 0 (by omega)
  rw [Nat.add_zero] at h0
  rw [wordAt, h0, h 1 (by omega), h 2 (by omega), h 3 (by omega), le32_st32Byte]

/-- Word k of stored words is the word stored there. -/
theorem wordAt_storeWords {m : Nat} (x : Words m) {k : Nat} (h : k < m) : wordAt (storeWords x) k = x[k] := by
  refine wordAt_of_bytes fun j hj => ?_
  rw [getD_of_lt _ _ (by omega), getElem_storeWords]
  have h1 : (4 * k + j) / 4 = k := by omega
  have h2 : (4 * k + j) % 4 = j := by omega
  simp only [h1, h2]

/-- A word put at k is read back at k. -/
theorem wordAt_putWord_self {n : Nat} (b : Bytes n) {k : Nat} (w : Word) (h : 4 * k + 3 < n) :
    wordAt (putWord b k w) k = w := by
  refine wordAt_of_bytes fun j hj => ?_
  rw [getD_of_lt _ _ (by omega), getElem_putWord, if_pos (by omega), show (4 * k + j) % 4 = j by omega]

/-- The blocks generated for n keystream bytes hold at least n bytes. -/
theorem le_blockCount (n : Nat) : n ≤ 64 * blockCount n := by unfold blockCount; omega

/-- n blocks laid end to end. -/
theorem length_blocks (key : Bytes 32) (nonce : Bytes 8) (n : Nat) :
    ((List.range n).flatMap fun j => (ksBlock key nonce j).toList).length = 64 * n := by
  simp [List.length_flatMap]; omega

@[simp] theorem length_keystream (key : Bytes 32) (nonce : Bytes 8) (off len : Nat) :
    (keystream key nonce off len).length = len := by
  have := le_blockCount (off + len)
  simp only [keystream, List.length_take, List.length_drop, length_blocks]
  omega

/-- Byte t of n blocks laid end to end. -/
theorem getD_blocks (key : Bytes 32) (nonce : Bytes 8) {n t : Nat} (h : t < 64 * n) :
    ((List.range n).flatMap fun j => (ksBlock key nonce j).toList).getD t 0 = keystreamByte key nonce t := by
  induction n with
  | zero => omega
  | succ n ih =>
    rw [List.range_succ, List.flatMap_append]
    have hl := length_blocks key nonce n
    by_cases ht : t < 64 * n
    · rw [List.getD_append _ _ _ _ (by omega), ih ht]
    · rw [List.getD_append_right _ _ _ _ (by omega), hl]
      have h1 : t / 64 = n := by omega
      have h2 : t % 64 = t - 64 * n := by omega
      rw [keystreamByte, h1, h2, getD_of_lt _ _ (by omega)]
      simp [List.getD_eq_getElem?_getD, show t - 64 * n < 64 by omega]

/-- Byte i of the keystream from off on is keystream byte off + i (R155). -/
@[simp] theorem getElem_keystream (key : Bytes 32) (nonce : Bytes 8) (off len i : Nat)
    (h : i < (keystream key nonce off len).length) :
    (keystream key nonce off len)[i] = keystreamByte key nonce (off + i) := by
  have hi : i < len := by simpa using h
  have hn := le_blockCount (off + len)
  rw [← getD_blocks key nonce (n := blockCount (off + len)) (by omega), ← List.getD_eq_getElem _ 0 h]
  simp only [keystream, List.getD_eq_getElem?_getD]
  rw [List.getElem?_take_of_lt hi, List.getElem?_drop]

/-- A stream command's output has LEN bytes. -/
@[simp] theorem State.length_s20Output (s : State) (srcGiven : Bool) (off : Nat) :
    (s.s20Output srcGiven off).length = s.len.toNat := by
  cases srcGiven <;>
    simp [State.s20Output, State.streamSource, streamApply, xorBytes, State.sourceBytes]

/-- A stream command's output has LEN bytes. -/
@[simp] theorem State.length_xs20Output (s : State) (srcGiven : Bool) (off : Nat) :
    (s.xs20Output srcGiven off).length = s.len.toNat := by
  cases srcGiven <;>
    simp [State.xs20Output, xstreamApply, State.streamSource, streamApply, xorBytes, State.sourceBytes]

/-- Byte i of the output of an S20 command (R156). -/
theorem State.getElem_s20Output (s : State) (srcGiven : Bool) (off i : Nat)
    (h : i < (s.s20Output srcGiven off).length) :
    (s.s20Output srcGiven off)[i] =
      (if srcGiven then Dmem.read s.dmem (s.src.toNat + i) else 0) ^^^
        keystreamByte s.key (slice s.nonce 0 8) (off + i) := by
  cases srcGiven <;> simp [State.s20Output, State.streamSource, streamApply, xorBytes, State.sourceBytes]

/-- Byte i of the output of an XS20 command (R156, R158). -/
theorem State.getElem_xs20Output (s : State) (srcGiven : Bool) (off i : Nat)
    (h : i < (s.xs20Output srcGiven off).length) :
    (s.xs20Output srcGiven off)[i] =
      (if srcGiven then Dmem.read s.dmem (s.src.toNat + i) else 0) ^^^
        keystreamByte (xsalsaSubkey s.key s.nonce) (slice s.nonce 16 8) (off + i) := by
  cases srcGiven <;>
    simp [State.xs20Output, xstreamApply, State.streamSource, streamApply, xorBytes, State.sourceBytes]

end Sys2Proof.Machine
end

