-- ==== Sys2Proof/Laws/Decode.lean ====
section
/-!
SUPPORT. The fields of a command word as numbers (spec 30_encoding R91 to R94).
-/

namespace Sys2Proof

theorem toNat_opcField (w : Word) : (opcField w).toNat = w.toNat % 256 := by
  simp [opcField, BitVec.extractLsb'_toNat]

theorem opcField_eq_iff (w : Word) (k : BitVec 8) : opcField w = k ↔ w.toNat % 256 = k.toNat := by
  rw [← BitVec.toNat_inj, toNat_opcField]

theorem offField_eq (w : Word) : offField w = w.toNat / 256 % 64 := by
  simp [offField, BitVec.extractLsb'_toNat, Nat.shiftRight_eq_div_pow]

theorem reservedN_eq_zero_iff (w : Word) : reservedN w = 0 ↔ w.toNat / 2 ^ 8 = 0 := by
  have := w.isLt
  rw [← BitVec.toNat_inj]
  simp [reservedN, BitVec.extractLsb'_toNat, Nat.shiftRight_eq_div_pow]
  omega

theorem reservedS_eq_zero_iff (w : Word) : reservedS w = 0 ↔ w.toNat / 2 ^ 14 = 0 := by
  have := w.isLt
  rw [← BitVec.toNat_inj]
  simp [reservedS, BitVec.extractLsb'_toNat, Nat.shiftRight_eq_div_pow]
  omega

/-- The decoder on the numbers of the fields. -/
theorem decodeN_eq (w : Word) (i : Instr) :
    decodeN w i = if w.toNat / 2 ^ 8 = 0 then .command i else .reserved := by
  by_cases h : reservedN w = 0
  · rw [decodeN, if_pos h, if_pos ((reservedN_eq_zero_iff w).1 h)]
  · rw [decodeN, if_neg h, if_neg (mt (reservedN_eq_zero_iff w).2 h)]

/-- The decoder on the numbers of the fields. -/
theorem decodeS_eq (w : Word) (form : Nat → Instr) :
    decodeS w form = if w.toNat / 2 ^ 14 = 0 then .command (form (w.toNat / 256 % 64)) else .reserved := by
  by_cases h : reservedS w = 0
  · rw [decodeS, if_pos h, if_pos ((reservedS_eq_zero_iff w).1 h), offField_eq]
  · rw [decodeS, if_neg h, if_neg (mt (reservedS_eq_zero_iff w).2 h)]

/-- The decoder as a choice on the low byte of the word. -/
theorem decode_eq (w : Word) : decode w =
    if w.toNat % 256 = 0x00 then decodeN w .nop
    else if w.toNat % 256 = 0x01 then decodeN w .core
    else if w.toNat % 256 = 0x02 then decodeN w .hsal
    else if w.toNat % 256 = 0x10 then decodeS w .s20Xor
    else if w.toNat % 256 = 0x11 then decodeS w .s20Ks
    else if w.toNat % 256 = 0x12 then decodeS w .xs20Xor
    else if w.toNat % 256 = 0x13 then decodeS w .xs20Ks
    else if w.toNat % 256 = 0x20 then decodeN w .p1305Auth
    else if w.toNat % 256 = 0x21 then decodeN w .p1305Vfy
    else if w.toNat % 256 = 0x30 then decodeN w .ceq16
    else if w.toNat % 256 = 0x31 then decodeN w .ceq32
    else if w.toNat % 256 = 0x7F then decodeN w .srst
    else .illegal := by
  have h (k : BitVec 8) {α : Type} (x y : α) : (if opcField w = k then x else y) = if w.toNat % 256 = k.toNat then x else y :=
    if_congr (opcField_eq_iff w k) rfl rfl
  unfold decode
  iterate 12 rw [h]
  rfl

/-- What the format N decoder answers, if it answers a command. -/
theorem decodeN_command {w : Word} {i j : Instr} (h : decodeN w i = .command j) : i = j ∧ w.toNat / 2 ^ 8 = 0 := by
  rw [decodeN_eq] at h
  split at h
  · next hz => exact ⟨by simpa using h, hz⟩
  · cases h

/-- What the format S decoder answers, if it answers a command. -/
theorem decodeS_command {w : Word} {form : Nat → Instr} {j : Instr} (h : decodeS w form = .command j) :
    form (w.toNat / 256 % 64) = j ∧ w.toNat / 2 ^ 14 = 0 := by
  rw [decodeS_eq] at h
  split at h
  · next hz => exact ⟨by simpa using h, hz⟩
  · cases h

/-- The two ways a choice answers. -/
theorem ite_eq_cases {c : Prop} [Decidable c] {α : Type} {x y z : α} (h : (if c then x else y) = z) :
    (c ∧ x = z) ∨ (¬c ∧ y = z) := by
  by_cases hc : c
  · exact .inl ⟨hc, by rwa [if_pos hc] at h⟩
  · exact .inr ⟨hc, by rwa [if_neg hc] at h⟩

/-- A word that decodes to SRST is 0x0000007F. -/
theorem eq_of_decode_srst {w : Word} (h : decode w = .command .srst) : w = 0x0000007F := by
  rw [decode_eq] at h
  iterate 3
    rcases ite_eq_cases h with ⟨_, h⟩ | ⟨_, h⟩
    · exact absurd (decodeN_command h).1 nofun
  iterate 4
    rcases ite_eq_cases h with ⟨_, h⟩ | ⟨_, h⟩
    · exact absurd (decodeS_command h).1 nofun
  iterate 4
    rcases ite_eq_cases h with ⟨_, h⟩ | ⟨_, h⟩
    · exact absurd (decodeN_command h).1 nofun
  rcases ite_eq_cases h with ⟨hc, h⟩ | ⟨_, h⟩
  · have := (decodeN_command h).2
    apply BitVec.eq_of_toNat_eq
    show w.toNat = 127
    omega
  · cases h

end Sys2Proof
end

