-- ==== Sys2Proof/Laws/State.lean ====
section
/-!
SUPPORT. What each named update of State leaves in each field, and that it keeps the lock where it does not write
STATUS.ERR.
-/

namespace Sys2Proof.Machine

/-! ### setOut -/

@[simp] theorem State.setOut_key (s : State) (b : Bytes 64) : (s.setOut b).key = s.key := rfl
@[simp] theorem State.setOut_inp (s : State) (b : Bytes 64) : (s.setOut b).inp = s.inp := rfl
@[simp] theorem State.setOut_nonce (s : State) (b : Bytes 64) : (s.setOut b).nonce = s.nonce := rfl
@[simp] theorem State.setOut_const (s : State) (b : Bytes 64) : (s.setOut b).const = s.const := rfl
@[simp] theorem State.setOut_out (s : State) (b : Bytes 64) : (s.setOut b).out = b := rfl
@[simp] theorem State.setOut_pkey (s : State) (b : Bytes 64) : (s.setOut b).pkey = s.pkey := rfl
@[simp] theorem State.setOut_tag (s : State) (b : Bytes 64) : (s.setOut b).tag = s.tag := rfl
@[simp] theorem State.setOut_tagx (s : State) (b : Bytes 64) : (s.setOut b).tagx = s.tagx := rfl
@[simp] theorem State.setOut_ca (s : State) (b : Bytes 64) : (s.setOut b).ca = s.ca := rfl
@[simp] theorem State.setOut_cb (s : State) (b : Bytes 64) : (s.setOut b).cb = s.cb := rfl
@[simp] theorem State.setOut_src (s : State) (b : Bytes 64) : (s.setOut b).src = s.src := rfl
@[simp] theorem State.setOut_dst (s : State) (b : Bytes 64) : (s.setOut b).dst = s.dst := rfl
@[simp] theorem State.setOut_len (s : State) (b : Bytes 64) : (s.setOut b).len = s.len := rfl
@[simp] theorem State.setOut_statusEq (s : State) (b : Bytes 64) : (s.setOut b).statusEq = s.statusEq := rfl
@[simp] theorem State.setOut_statusErr (s : State) (b : Bytes 64) : (s.setOut b).statusErr = s.statusErr := rfl
@[simp] theorem State.setOut_dmem (s : State) (b : Bytes 64) : (s.setOut b).dmem = s.dmem := rfl
@[simp] theorem State.setOut_dmemBytes (s : State) (b : Bytes 64) : (s.setOut b).dmemBytes = s.dmemBytes := rfl
@[simp] theorem State.setOut_pending (s : State) (b : Bytes 64) : (s.setOut b).pending = s.pending := rfl
@[simp] theorem State.setOut_reads (s : State) (b : Bytes 64) : (s.setOut b).reads = s.reads := rfl
@[simp] theorem State.setOut_aborts (s : State) (b : Bytes 64) : (s.setOut b).aborts = s.aborts := rfl
@[simp] theorem State.setOut_locked (s : State) (b : Bytes 64) : (s.setOut b).locked = s.locked := rfl

/-! ### setTag -/

@[simp] theorem State.setTag_key (s : State) (b : Bytes 16) : (s.setTag b).key = s.key := rfl
@[simp] theorem State.setTag_inp (s : State) (b : Bytes 16) : (s.setTag b).inp = s.inp := rfl
@[simp] theorem State.setTag_nonce (s : State) (b : Bytes 16) : (s.setTag b).nonce = s.nonce := rfl
@[simp] theorem State.setTag_const (s : State) (b : Bytes 16) : (s.setTag b).const = s.const := rfl
@[simp] theorem State.setTag_out (s : State) (b : Bytes 16) : (s.setTag b).out = s.out := rfl
@[simp] theorem State.setTag_pkey (s : State) (b : Bytes 16) : (s.setTag b).pkey = s.pkey := rfl
@[simp] theorem State.setTag_tag (s : State) (b : Bytes 16) : (s.setTag b).tag = b := rfl
@[simp] theorem State.setTag_tagx (s : State) (b : Bytes 16) : (s.setTag b).tagx = s.tagx := rfl
@[simp] theorem State.setTag_ca (s : State) (b : Bytes 16) : (s.setTag b).ca = s.ca := rfl
@[simp] theorem State.setTag_cb (s : State) (b : Bytes 16) : (s.setTag b).cb = s.cb := rfl
@[simp] theorem State.setTag_src (s : State) (b : Bytes 16) : (s.setTag b).src = s.src := rfl
@[simp] theorem State.setTag_dst (s : State) (b : Bytes 16) : (s.setTag b).dst = s.dst := rfl
@[simp] theorem State.setTag_len (s : State) (b : Bytes 16) : (s.setTag b).len = s.len := rfl
@[simp] theorem State.setTag_statusEq (s : State) (b : Bytes 16) : (s.setTag b).statusEq = s.statusEq := rfl
@[simp] theorem State.setTag_statusErr (s : State) (b : Bytes 16) : (s.setTag b).statusErr = s.statusErr := rfl
@[simp] theorem State.setTag_dmem (s : State) (b : Bytes 16) : (s.setTag b).dmem = s.dmem := rfl
@[simp] theorem State.setTag_dmemBytes (s : State) (b : Bytes 16) : (s.setTag b).dmemBytes = s.dmemBytes := rfl
@[simp] theorem State.setTag_pending (s : State) (b : Bytes 16) : (s.setTag b).pending = s.pending := rfl
@[simp] theorem State.setTag_reads (s : State) (b : Bytes 16) : (s.setTag b).reads = s.reads := rfl
@[simp] theorem State.setTag_aborts (s : State) (b : Bytes 16) : (s.setTag b).aborts = s.aborts := rfl
@[simp] theorem State.setTag_locked (s : State) (b : Bytes 16) : (s.setTag b).locked = s.locked := rfl

/-! ### setEq -/

@[simp] theorem State.setEq_key (s : State) (e : Bool) : (s.setEq e).key = s.key := rfl
@[simp] theorem State.setEq_inp (s : State) (e : Bool) : (s.setEq e).inp = s.inp := rfl
@[simp] theorem State.setEq_nonce (s : State) (e : Bool) : (s.setEq e).nonce = s.nonce := rfl
@[simp] theorem State.setEq_const (s : State) (e : Bool) : (s.setEq e).const = s.const := rfl
@[simp] theorem State.setEq_out (s : State) (e : Bool) : (s.setEq e).out = s.out := rfl
@[simp] theorem State.setEq_pkey (s : State) (e : Bool) : (s.setEq e).pkey = s.pkey := rfl
@[simp] theorem State.setEq_tag (s : State) (e : Bool) : (s.setEq e).tag = s.tag := rfl
@[simp] theorem State.setEq_tagx (s : State) (e : Bool) : (s.setEq e).tagx = s.tagx := rfl
@[simp] theorem State.setEq_ca (s : State) (e : Bool) : (s.setEq e).ca = s.ca := rfl
@[simp] theorem State.setEq_cb (s : State) (e : Bool) : (s.setEq e).cb = s.cb := rfl
@[simp] theorem State.setEq_src (s : State) (e : Bool) : (s.setEq e).src = s.src := rfl
@[simp] theorem State.setEq_dst (s : State) (e : Bool) : (s.setEq e).dst = s.dst := rfl
@[simp] theorem State.setEq_len (s : State) (e : Bool) : (s.setEq e).len = s.len := rfl
@[simp] theorem State.setEq_statusEq (s : State) (e : Bool) : (s.setEq e).statusEq = e := rfl
@[simp] theorem State.setEq_statusErr (s : State) (e : Bool) : (s.setEq e).statusErr = s.statusErr := rfl
@[simp] theorem State.setEq_dmem (s : State) (e : Bool) : (s.setEq e).dmem = s.dmem := rfl
@[simp] theorem State.setEq_dmemBytes (s : State) (e : Bool) : (s.setEq e).dmemBytes = s.dmemBytes := rfl
@[simp] theorem State.setEq_pending (s : State) (e : Bool) : (s.setEq e).pending = s.pending := rfl
@[simp] theorem State.setEq_reads (s : State) (e : Bool) : (s.setEq e).reads = s.reads := rfl
@[simp] theorem State.setEq_aborts (s : State) (e : Bool) : (s.setEq e).aborts = s.aborts := rfl
@[simp] theorem State.setEq_locked (s : State) (e : Bool) : (s.setEq e).locked = s.locked := rfl

/-! ### memWrite -/

@[simp] theorem State.memWrite_key (s : State) (a : Nat) (bs : List Byte) : (s.memWrite a bs).key = s.key := rfl
@[simp] theorem State.memWrite_inp (s : State) (a : Nat) (bs : List Byte) : (s.memWrite a bs).inp = s.inp := rfl
@[simp] theorem State.memWrite_nonce (s : State) (a : Nat) (bs : List Byte) : (s.memWrite a bs).nonce = s.nonce := rfl
@[simp] theorem State.memWrite_const (s : State) (a : Nat) (bs : List Byte) : (s.memWrite a bs).const = s.const := rfl
@[simp] theorem State.memWrite_out (s : State) (a : Nat) (bs : List Byte) : (s.memWrite a bs).out = s.out := rfl
@[simp] theorem State.memWrite_pkey (s : State) (a : Nat) (bs : List Byte) : (s.memWrite a bs).pkey = s.pkey := rfl
@[simp] theorem State.memWrite_tag (s : State) (a : Nat) (bs : List Byte) : (s.memWrite a bs).tag = s.tag := rfl
@[simp] theorem State.memWrite_tagx (s : State) (a : Nat) (bs : List Byte) : (s.memWrite a bs).tagx = s.tagx := rfl
@[simp] theorem State.memWrite_ca (s : State) (a : Nat) (bs : List Byte) : (s.memWrite a bs).ca = s.ca := rfl
@[simp] theorem State.memWrite_cb (s : State) (a : Nat) (bs : List Byte) : (s.memWrite a bs).cb = s.cb := rfl
@[simp] theorem State.memWrite_src (s : State) (a : Nat) (bs : List Byte) : (s.memWrite a bs).src = s.src := rfl
@[simp] theorem State.memWrite_dst (s : State) (a : Nat) (bs : List Byte) : (s.memWrite a bs).dst = s.dst := rfl
@[simp] theorem State.memWrite_len (s : State) (a : Nat) (bs : List Byte) : (s.memWrite a bs).len = s.len := rfl
@[simp] theorem State.memWrite_statusEq (s : State) (a : Nat) (bs : List Byte) : (s.memWrite a bs).statusEq = s.statusEq := rfl
@[simp] theorem State.memWrite_statusErr (s : State) (a : Nat) (bs : List Byte) : (s.memWrite a bs).statusErr = s.statusErr := rfl
@[simp] theorem State.memWrite_dmem (s : State) (a : Nat) (bs : List Byte) : (s.memWrite a bs).dmem = Dmem.writeBytes s.dmem a bs := rfl
@[simp] theorem State.memWrite_dmemBytes (s : State) (a : Nat) (bs : List Byte) : (s.memWrite a bs).dmemBytes = s.dmemBytes := rfl
@[simp] theorem State.memWrite_pending (s : State) (a : Nat) (bs : List Byte) : (s.memWrite a bs).pending = s.pending := rfl
@[simp] theorem State.memWrite_reads (s : State) (a : Nat) (bs : List Byte) : (s.memWrite a bs).reads = s.reads := rfl
@[simp] theorem State.memWrite_aborts (s : State) (a : Nat) (bs : List Byte) : (s.memWrite a bs).aborts = s.aborts := rfl
@[simp] theorem State.memWrite_locked (s : State) (a : Nat) (bs : List Byte) : (s.memWrite a bs).locked = s.locked := rfl

/-! ### pushRead -/

@[simp] theorem State.pushRead_key (s : State) (r : HostRead) : (s.pushRead r).key = s.key := rfl
@[simp] theorem State.pushRead_inp (s : State) (r : HostRead) : (s.pushRead r).inp = s.inp := rfl
@[simp] theorem State.pushRead_nonce (s : State) (r : HostRead) : (s.pushRead r).nonce = s.nonce := rfl
@[simp] theorem State.pushRead_const (s : State) (r : HostRead) : (s.pushRead r).const = s.const := rfl
@[simp] theorem State.pushRead_out (s : State) (r : HostRead) : (s.pushRead r).out = s.out := rfl
@[simp] theorem State.pushRead_pkey (s : State) (r : HostRead) : (s.pushRead r).pkey = s.pkey := rfl
@[simp] theorem State.pushRead_tag (s : State) (r : HostRead) : (s.pushRead r).tag = s.tag := rfl
@[simp] theorem State.pushRead_tagx (s : State) (r : HostRead) : (s.pushRead r).tagx = s.tagx := rfl
@[simp] theorem State.pushRead_ca (s : State) (r : HostRead) : (s.pushRead r).ca = s.ca := rfl
@[simp] theorem State.pushRead_cb (s : State) (r : HostRead) : (s.pushRead r).cb = s.cb := rfl
@[simp] theorem State.pushRead_src (s : State) (r : HostRead) : (s.pushRead r).src = s.src := rfl
@[simp] theorem State.pushRead_dst (s : State) (r : HostRead) : (s.pushRead r).dst = s.dst := rfl
@[simp] theorem State.pushRead_len (s : State) (r : HostRead) : (s.pushRead r).len = s.len := rfl
@[simp] theorem State.pushRead_statusEq (s : State) (r : HostRead) : (s.pushRead r).statusEq = s.statusEq := rfl
@[simp] theorem State.pushRead_statusErr (s : State) (r : HostRead) : (s.pushRead r).statusErr = s.statusErr := rfl
@[simp] theorem State.pushRead_dmem (s : State) (r : HostRead) : (s.pushRead r).dmem = s.dmem := rfl
@[simp] theorem State.pushRead_dmemBytes (s : State) (r : HostRead) : (s.pushRead r).dmemBytes = s.dmemBytes := rfl
@[simp] theorem State.pushRead_pending (s : State) (r : HostRead) : (s.pushRead r).pending = s.pending := rfl
@[simp] theorem State.pushRead_reads (s : State) (r : HostRead) : (s.pushRead r).reads = s.reads ++ [r] := rfl
@[simp] theorem State.pushRead_aborts (s : State) (r : HostRead) : (s.pushRead r).aborts = s.aborts := rfl
@[simp] theorem State.pushRead_locked (s : State) (r : HostRead) : (s.pushRead r).locked = s.locked := rfl

/-! ### setPending -/

@[simp] theorem State.setPending_key (s : State) (rest : List HostTxn) : (s.setPending rest).key = s.key := rfl
@[simp] theorem State.setPending_inp (s : State) (rest : List HostTxn) : (s.setPending rest).inp = s.inp := rfl
@[simp] theorem State.setPending_nonce (s : State) (rest : List HostTxn) : (s.setPending rest).nonce = s.nonce := rfl
@[simp] theorem State.setPending_const (s : State) (rest : List HostTxn) : (s.setPending rest).const = s.const := rfl
@[simp] theorem State.setPending_out (s : State) (rest : List HostTxn) : (s.setPending rest).out = s.out := rfl
@[simp] theorem State.setPending_pkey (s : State) (rest : List HostTxn) : (s.setPending rest).pkey = s.pkey := rfl
@[simp] theorem State.setPending_tag (s : State) (rest : List HostTxn) : (s.setPending rest).tag = s.tag := rfl
@[simp] theorem State.setPending_tagx (s : State) (rest : List HostTxn) : (s.setPending rest).tagx = s.tagx := rfl
@[simp] theorem State.setPending_ca (s : State) (rest : List HostTxn) : (s.setPending rest).ca = s.ca := rfl
@[simp] theorem State.setPending_cb (s : State) (rest : List HostTxn) : (s.setPending rest).cb = s.cb := rfl
@[simp] theorem State.setPending_src (s : State) (rest : List HostTxn) : (s.setPending rest).src = s.src := rfl
@[simp] theorem State.setPending_dst (s : State) (rest : List HostTxn) : (s.setPending rest).dst = s.dst := rfl
@[simp] theorem State.setPending_len (s : State) (rest : List HostTxn) : (s.setPending rest).len = s.len := rfl
@[simp] theorem State.setPending_statusEq (s : State) (rest : List HostTxn) : (s.setPending rest).statusEq = s.statusEq := rfl
@[simp] theorem State.setPending_statusErr (s : State) (rest : List HostTxn) : (s.setPending rest).statusErr = s.statusErr := rfl
@[simp] theorem State.setPending_dmem (s : State) (rest : List HostTxn) : (s.setPending rest).dmem = s.dmem := rfl
@[simp] theorem State.setPending_dmemBytes (s : State) (rest : List HostTxn) : (s.setPending rest).dmemBytes = s.dmemBytes := rfl
@[simp] theorem State.setPending_pending (s : State) (rest : List HostTxn) : (s.setPending rest).pending = rest := rfl
@[simp] theorem State.setPending_reads (s : State) (rest : List HostTxn) : (s.setPending rest).reads = s.reads := rfl
@[simp] theorem State.setPending_aborts (s : State) (rest : List HostTxn) : (s.setPending rest).aborts = s.aborts := rfl
@[simp] theorem State.setPending_locked (s : State) (rest : List HostTxn) : (s.setPending rest).locked = s.locked := rfl

/-! ### refuse -/

@[simp] theorem State.refuse_key (s : State) (c : RefuseCode) : (s.refuse c).key = s.key := rfl
@[simp] theorem State.refuse_inp (s : State) (c : RefuseCode) : (s.refuse c).inp = s.inp := rfl
@[simp] theorem State.refuse_nonce (s : State) (c : RefuseCode) : (s.refuse c).nonce = s.nonce := rfl
@[simp] theorem State.refuse_const (s : State) (c : RefuseCode) : (s.refuse c).const = s.const := rfl
@[simp] theorem State.refuse_out (s : State) (c : RefuseCode) : (s.refuse c).out = s.out := rfl
@[simp] theorem State.refuse_pkey (s : State) (c : RefuseCode) : (s.refuse c).pkey = s.pkey := rfl
@[simp] theorem State.refuse_tag (s : State) (c : RefuseCode) : (s.refuse c).tag = s.tag := rfl
@[simp] theorem State.refuse_tagx (s : State) (c : RefuseCode) : (s.refuse c).tagx = s.tagx := rfl
@[simp] theorem State.refuse_ca (s : State) (c : RefuseCode) : (s.refuse c).ca = s.ca := rfl
@[simp] theorem State.refuse_cb (s : State) (c : RefuseCode) : (s.refuse c).cb = s.cb := rfl
@[simp] theorem State.refuse_src (s : State) (c : RefuseCode) : (s.refuse c).src = s.src := rfl
@[simp] theorem State.refuse_dst (s : State) (c : RefuseCode) : (s.refuse c).dst = s.dst := rfl
@[simp] theorem State.refuse_len (s : State) (c : RefuseCode) : (s.refuse c).len = s.len := rfl
@[simp] theorem State.refuse_statusEq (s : State) (c : RefuseCode) : (s.refuse c).statusEq = false := rfl
@[simp] theorem State.refuse_statusErr (s : State) (c : RefuseCode) : (s.refuse c).statusErr = if s.statusErr = 0 then c.err else s.statusErr := rfl
@[simp] theorem State.refuse_dmem (s : State) (c : RefuseCode) : (s.refuse c).dmem = s.dmem := rfl
@[simp] theorem State.refuse_dmemBytes (s : State) (c : RefuseCode) : (s.refuse c).dmemBytes = s.dmemBytes := rfl
@[simp] theorem State.refuse_pending (s : State) (c : RefuseCode) : (s.refuse c).pending = s.pending := rfl
@[simp] theorem State.refuse_reads (s : State) (c : RefuseCode) : (s.refuse c).reads = s.reads := rfl
@[simp] theorem State.refuse_aborts (s : State) (c : RefuseCode) : (s.refuse c).aborts = s.aborts := rfl

/-! ### refuseLocked -/

@[simp] theorem State.refuseLocked_key (s : State) : (s.refuseLocked).key = s.key := rfl
@[simp] theorem State.refuseLocked_inp (s : State) : (s.refuseLocked).inp = s.inp := rfl
@[simp] theorem State.refuseLocked_nonce (s : State) : (s.refuseLocked).nonce = s.nonce := rfl
@[simp] theorem State.refuseLocked_const (s : State) : (s.refuseLocked).const = s.const := rfl
@[simp] theorem State.refuseLocked_out (s : State) : (s.refuseLocked).out = s.out := rfl
@[simp] theorem State.refuseLocked_pkey (s : State) : (s.refuseLocked).pkey = s.pkey := rfl
@[simp] theorem State.refuseLocked_tag (s : State) : (s.refuseLocked).tag = s.tag := rfl
@[simp] theorem State.refuseLocked_tagx (s : State) : (s.refuseLocked).tagx = s.tagx := rfl
@[simp] theorem State.refuseLocked_ca (s : State) : (s.refuseLocked).ca = s.ca := rfl
@[simp] theorem State.refuseLocked_cb (s : State) : (s.refuseLocked).cb = s.cb := rfl
@[simp] theorem State.refuseLocked_src (s : State) : (s.refuseLocked).src = s.src := rfl
@[simp] theorem State.refuseLocked_dst (s : State) : (s.refuseLocked).dst = s.dst := rfl
@[simp] theorem State.refuseLocked_len (s : State) : (s.refuseLocked).len = s.len := rfl
@[simp] theorem State.refuseLocked_statusEq (s : State) : (s.refuseLocked).statusEq = false := rfl
@[simp] theorem State.refuseLocked_statusErr (s : State) : (s.refuseLocked).statusErr = s.statusErr := rfl
@[simp] theorem State.refuseLocked_dmem (s : State) : (s.refuseLocked).dmem = s.dmem := rfl
@[simp] theorem State.refuseLocked_dmemBytes (s : State) : (s.refuseLocked).dmemBytes = s.dmemBytes := rfl
@[simp] theorem State.refuseLocked_pending (s : State) : (s.refuseLocked).pending = s.pending := rfl
@[simp] theorem State.refuseLocked_reads (s : State) : (s.refuseLocked).reads = s.reads := rfl
@[simp] theorem State.refuseLocked_aborts (s : State) : (s.refuseLocked).aborts = s.aborts := rfl
@[simp] theorem State.refuseLocked_locked (s : State) : (s.refuseLocked).locked = s.locked := rfl

/-! ### clearStatus -/

@[simp] theorem State.clearStatus_key (s : State) : (s.clearStatus).key = s.key := rfl
@[simp] theorem State.clearStatus_inp (s : State) : (s.clearStatus).inp = s.inp := rfl
@[simp] theorem State.clearStatus_nonce (s : State) : (s.clearStatus).nonce = s.nonce := rfl
@[simp] theorem State.clearStatus_const (s : State) : (s.clearStatus).const = s.const := rfl
@[simp] theorem State.clearStatus_out (s : State) : (s.clearStatus).out = s.out := rfl
@[simp] theorem State.clearStatus_pkey (s : State) : (s.clearStatus).pkey = s.pkey := rfl
@[simp] theorem State.clearStatus_tag (s : State) : (s.clearStatus).tag = s.tag := rfl
@[simp] theorem State.clearStatus_tagx (s : State) : (s.clearStatus).tagx = s.tagx := rfl
@[simp] theorem State.clearStatus_ca (s : State) : (s.clearStatus).ca = s.ca := rfl
@[simp] theorem State.clearStatus_cb (s : State) : (s.clearStatus).cb = s.cb := rfl
@[simp] theorem State.clearStatus_src (s : State) : (s.clearStatus).src = s.src := rfl
@[simp] theorem State.clearStatus_dst (s : State) : (s.clearStatus).dst = s.dst := rfl
@[simp] theorem State.clearStatus_len (s : State) : (s.clearStatus).len = s.len := rfl
@[simp] theorem State.clearStatus_statusEq (s : State) : (s.clearStatus).statusEq = false := rfl
@[simp] theorem State.clearStatus_statusErr (s : State) : (s.clearStatus).statusErr = 0 := rfl
@[simp] theorem State.clearStatus_dmem (s : State) : (s.clearStatus).dmem = s.dmem := rfl
@[simp] theorem State.clearStatus_dmemBytes (s : State) : (s.clearStatus).dmemBytes = s.dmemBytes := rfl
@[simp] theorem State.clearStatus_pending (s : State) : (s.clearStatus).pending = s.pending := rfl
@[simp] theorem State.clearStatus_reads (s : State) : (s.clearStatus).reads = s.reads := rfl
@[simp] theorem State.clearStatus_aborts (s : State) : (s.clearStatus).aborts = s.aborts := rfl

/-! ### resetRegisters -/

@[simp] theorem State.resetRegisters_key (s : State) : (s.resetRegisters).key = zeroBytes 32 := rfl
@[simp] theorem State.resetRegisters_inp (s : State) : (s.resetRegisters).inp = zeroBytes 16 := rfl
@[simp] theorem State.resetRegisters_nonce (s : State) : (s.resetRegisters).nonce = zeroBytes 24 := rfl
@[simp] theorem State.resetRegisters_const (s : State) : (s.resetRegisters).const = Config.sigma := rfl
@[simp] theorem State.resetRegisters_out (s : State) : (s.resetRegisters).out = zeroBytes 64 := rfl
@[simp] theorem State.resetRegisters_pkey (s : State) : (s.resetRegisters).pkey = zeroBytes 32 := rfl
@[simp] theorem State.resetRegisters_tag (s : State) : (s.resetRegisters).tag = zeroBytes 16 := rfl
@[simp] theorem State.resetRegisters_tagx (s : State) : (s.resetRegisters).tagx = zeroBytes 16 := rfl
@[simp] theorem State.resetRegisters_ca (s : State) : (s.resetRegisters).ca = zeroBytes 32 := rfl
@[simp] theorem State.resetRegisters_cb (s : State) : (s.resetRegisters).cb = zeroBytes 32 := rfl
@[simp] theorem State.resetRegisters_src (s : State) : (s.resetRegisters).src = 0 := rfl
@[simp] theorem State.resetRegisters_dst (s : State) : (s.resetRegisters).dst = 0 := rfl
@[simp] theorem State.resetRegisters_len (s : State) : (s.resetRegisters).len = 0 := rfl
@[simp] theorem State.resetRegisters_statusEq (s : State) : (s.resetRegisters).statusEq = false := rfl
@[simp] theorem State.resetRegisters_statusErr (s : State) : (s.resetRegisters).statusErr = 0 := rfl
@[simp] theorem State.resetRegisters_dmem (s : State) : (s.resetRegisters).dmem = s.dmem := rfl
@[simp] theorem State.resetRegisters_dmemBytes (s : State) : (s.resetRegisters).dmemBytes = s.dmemBytes := rfl
@[simp] theorem State.resetRegisters_pending (s : State) : (s.resetRegisters).pending = s.pending := rfl
@[simp] theorem State.resetRegisters_reads (s : State) : (s.resetRegisters).reads = s.reads := rfl
@[simp] theorem State.resetRegisters_aborts (s : State) : (s.resetRegisters).aborts = s.aborts := rfl

/-! ### Laws between updates -/

@[simp] theorem State.setPending_setPending (s : State) (r r' : List HostTxn) :
    (s.setPending r).setPending r' = s.setPending r' := rfl

@[simp] theorem State.setPending_pending_self (s : State) : s.setPending s.pending = s := rfl

@[simp] theorem State.clearStatus_locked (s : State) : s.clearStatus.locked = false := rfl

@[simp] theorem State.resetRegisters_locked (s : State) : s.resetRegisters.locked = false := rfl

/-- The block is locked exactly when ERR is not 0 (R237). -/
theorem State.locked_iff (s : State) : s.locked = true ↔ s.statusErr ≠ 0 := by
  simp [State.locked, bne_iff_ne]

/-- The block is not locked exactly when ERR is 0. -/
theorem State.locked_eq_false_iff (s : State) : s.locked = false ↔ s.statusErr = 0 := by
  simp [State.locked]

/-- On a block that is not locked a refusal writes the code (R236). -/
theorem State.refuse_of_unlocked {s : State} (h : s.statusErr = 0) (c : RefuseCode) :
    s.refuse c = { s with statusErr := c.err, statusEq := false } := by
  simp [State.refuse, h]

/-- On a locked block a refusal with any code is the refusal of R237. -/
theorem State.refuse_of_locked {s : State} (h : s.statusErr ≠ 0) (c : RefuseCode) :
    s.refuse c = s.refuseLocked := by
  rw [State.refuse, if_neg h]; rfl

/-- No refusal code is 0, the value that means no error (R231). -/
theorem RefuseCode.err_ne_zero (c : RefuseCode) : c.err ≠ 0 := by cases c <;> decide

/-- The block is locked after every refusal (R236). -/
theorem State.refuse_statusErr_ne_zero (s : State) (c : RefuseCode) : (s.refuse c).statusErr ≠ 0 := by
  by_cases h : s.statusErr = 0
  · rw [State.refuse_statusErr, if_pos h]; exact c.err_ne_zero
  · rw [State.refuse_statusErr, if_neg h]; exact h

end Sys2Proof.Machine
end

