-- ==== Sys2Proof/Laws/Exec.lean ====
section
/-!
SUPPORT. What the shared operations of the commands can do: the lock, the checks, the frames of the stream and Poly1305
commands; and that every command ends in a next state.
-/

namespace Sys2Proof.Machine

/-! ### The lock -/

theorem unlessLocked_of_locked {s : State} (h : s.locked = true) (run : Host.Outcome State Fault Refusal) :
    unlessLocked s run = .next s.refuseLocked := by simp [unlessLocked, h]

theorem unlessLocked_of_unlocked {s : State} (h : s.locked = false) (run : Host.Outcome State Fault Refusal) :
    unlessLocked s run = run := by simp [unlessLocked, h]

/-- A command under the lock either is refused as locked or runs unlocked. -/
theorem unlessLocked_cases {s t : State} {run : Host.Outcome State Fault Refusal}
    (h : unlessLocked s run = .next t) :
    (s.locked = true ∧ t = s.refuseLocked) ∨ (s.locked = false ∧ run = .next t) := by
  unfold unlessLocked at h
  split at h
  · next hl => exact .inl ⟨hl, by injection h with h; exact h.symm⟩
  · next hl => exact .inr ⟨by simpa using hl, h⟩

/-! ### The checks -/

theorem outsideDmem_eq_false_iff (size base len : Nat) :
    outsideDmem size base len = false ↔ len = 0 ∨ base + len ≤ size := by
  simp [outsideDmem]; omega

theorem partlyOverlap_eq_false_iff (src dst len : Nat) :
    partlyOverlap src dst len = false ↔ len = 0 ∨ src = dst ∨ src + len ≤ dst ∨ dst + len ≤ src := by
  simp only [partlyOverlap, decide_eq_false_iff_not]; omega

theorem len_eq_zero_iff (w : Word) : w = 0 ↔ w.toNat = 0 :=
  ⟨fun h => by simp [h], fun h => BitVec.eq_of_toNat_eq (by simpa using h)⟩

theorem State.sourceOutside_eq_false_iff (s : State) : s.sourceOutside = false ↔ s.bufferOk s.src := by
  simp only [State.sourceOutside, outsideDmem_eq_false_iff, State.bufferOk, len_eq_zero_iff]

theorem State.destOutside_eq_false_iff (s : State) : s.destOutside = false ↔ s.bufferOk s.dst := by
  simp only [State.destOutside, outsideDmem_eq_false_iff, State.bufferOk, len_eq_zero_iff]

theorem State.buffersOverlap_eq_false_iff (s : State) : s.buffersOverlap = false ↔ s.buffersOk := by
  simp only [State.buffersOverlap, partlyOverlap_eq_false_iff, State.buffersOk, len_eq_zero_iff]
  constructor
  · rintro (h | h | h)
    · exact .inl h
    · exact .inr (.inl (BitVec.eq_of_toNat_eq h))
    · exact .inr (.inr h)
  · rintro (h | h | h)
    · exact .inl h
    · exact .inr (.inl (by rw [h]))
    · exact .inr (.inr h)

/-- The checks of an .XOR command pass exactly when its buffers are in DMEM and not partly overlapping. -/
theorem State.streamCheck_true_eq_none_iff (s : State) :
    s.streamCheck true = none ↔ s.bufferOk s.src ∧ s.bufferOk s.dst ∧ s.buffersOk := by
  rw [← State.sourceOutside_eq_false_iff, ← State.destOutside_eq_false_iff, ← State.buffersOverlap_eq_false_iff]
  unfold State.streamCheck
  cases s.sourceOutside <;> cases s.destOutside <;> cases s.buffersOverlap <;> simp

/-- The checks of a .KS command pass exactly when its destination is in DMEM. -/
theorem State.streamCheck_false_eq_none_iff (s : State) : s.streamCheck false = none ↔ s.bufferOk s.dst := by
  rw [← State.destOutside_eq_false_iff]
  unfold State.streamCheck
  cases s.destOutside <;> simp

theorem State.messageCheck_eq_none_iff (s : State) : s.messageCheck = none ↔ s.bufferOk s.src := by
  rw [← State.sourceOutside_eq_false_iff]
  unfold State.messageCheck
  cases s.sourceOutside <;> simp

/-- Whichever stream command passes its checks has its destination in DMEM. -/
theorem State.destOk_of_streamCheck {s : State} {srcGiven : Bool} (h : s.streamCheck srcGiven = none) :
    s.bufferOk s.dst := by
  cases srcGiven
  · exact (State.streamCheck_false_eq_none_iff s).1 h
  · exact ((State.streamCheck_true_eq_none_iff s).1 h).2.1

/-! ### The frames of the stream and Poly1305 commands -/

/-- Everything a stream command can do: it is refused as locked, refused with a code, or writes its output from DST on
(with LEN = 0 it changes nothing). -/
theorem execStream_cases {srcGiven : Bool} {output : List Byte} {s t : State}
    (h : execStream srcGiven output s = .next t) :
    (s.locked = true ∧ t = s.refuseLocked) ∨
    (s.locked = false ∧ ∃ code, s.streamCheck srcGiven = some code ∧ t = s.refuse code) ∨
    (s.locked = false ∧ s.streamCheck srcGiven = none ∧ s.len = 0 ∧ t = s) ∨
    (s.locked = false ∧ s.streamCheck srcGiven = none ∧ s.len ≠ 0 ∧ t = s.memWrite s.dst.toNat output) := by
  rcases unlessLocked_cases h with hl | ⟨hl, h⟩
  · exact .inl hl
  · refine .inr ?_
    cases hc : s.streamCheck srcGiven with
    | some code =>
      rw [hc] at h
      injection h with h
      exact .inl ⟨hl, code, rfl, h.symm⟩
    | none =>
      rw [hc] at h
      by_cases h0 : s.len = 0
      · simp only [h0, if_true] at h
        injection h with h
        exact .inr (.inl ⟨hl, rfl, h0, h.symm⟩)
      · simp only [h0, if_false] at h
        injection h with h
        exact .inr (.inr ⟨hl, rfl, h0, h.symm⟩)

/-- A stream command that passes its checks writes its output from DST on, when LEN is not 0. -/
theorem execStream_of_ready {srcGiven : Bool} {s : State} (hl : s.locked = false)
    (hc : s.streamCheck srcGiven = none) (output : List Byte) :
    execStream srcGiven output s = if s.len = 0 then .next s else .next (s.memWrite s.dst.toNat output) := by
  simp [execStream, unlessLocked, hl, hc]

/-- A stream command that fails a check is refused with the code of that check. -/
theorem execStream_of_refused {srcGiven : Bool} {s : State} {code : RefuseCode} (hl : s.locked = false)
    (hc : s.streamCheck srcGiven = some code) (output : List Byte) :
    execStream srcGiven output s = .next (s.refuse code) := by
  simp [execStream, unlessLocked, hl, hc]

/-- Everything a Poly1305 command can do. -/
theorem execPoly_cases {finish : Bytes 16 → State} {s t : State} (h : execPoly finish s = .next t) :
    (s.locked = true ∧ t = s.refuseLocked) ∨
    (s.locked = false ∧ s.sourceOutside = true ∧ t = s.refuse .range) ∨
    (s.locked = false ∧ s.sourceOutside = false ∧ t = finish (poly1305Tag s.sourceBytes s.pkey)) := by
  rcases unlessLocked_cases h with hl | ⟨hl, h⟩
  · exact .inl hl
  · refine .inr ?_
    cases hc : s.sourceOutside with
    | true =>
      simp only [State.messageCheck, hc, if_true] at h
      injection h with h
      exact .inl ⟨hl, rfl, h.symm⟩
    | false =>
      simp only [State.messageCheck, hc] at h
      injection h with h
      exact .inr ⟨hl, rfl, h.symm⟩

/-- A Poly1305 command whose message lies in DMEM completes. -/
theorem execPoly_of_ready {finish : Bytes 16 → State} {s : State} (hl : s.locked = false)
    (hc : s.messageCheck = none) : execPoly finish s = .next (finish (poly1305Tag s.sourceBytes s.pkey)) := by
  simp [execPoly, unlessLocked, hl, hc]

/-! ### What a command can do -/

/-- What a command that completes on a block that is not locked leaves, by the registers it may write (R42). -/
inductive Completed (i : Instr) (s : State) : State → Prop
  /-- Nothing is written: NOP, and a stream command with LEN = 0. -/
  | unchanged (h : i = .nop ∨ (isStream i = true ∧ s.len = 0)) : Completed i s s
  /-- CORE and HSAL write OUT. -/
  | out (b : Bytes 64) (h : i = .core ∨ i = .hsal) : Completed i s (s.setOut b)
  /-- CEQ16 and CEQ32 write EQ. -/
  | eq (e : Bool) (h : i = .ceq16 ∨ i = .ceq32) : Completed i s (s.setEq e)
  /-- P1305.AUTH writes TAG. -/
  | tag (b : Bytes 16) (h : i = .p1305Auth) : Completed i s (s.setTag b)
  /-- P1305.VFY writes EQ, and zero to TAG. -/
  | verify (e : Bool) (h : i = .p1305Vfy) : Completed i s ((s.setEq e).setTag (zeroBytes 16))
  /-- A stream command writes LEN bytes from DST on, inside DMEM. -/
  | stream (bs : List Byte) (h : isStream i = true) (hlen : bs.length = s.len.toNat) (hdst : s.bufferOk s.dst) :
      Completed i s (s.memWrite s.dst.toNat bs)

/-- Everything a command other than SRST can do: be refused as locked, be refused with a code, or complete. -/
inductive CommandEnd (i : Instr) (s : State) : State → Prop
  | locked (h : s.statusErr ≠ 0) : CommandEnd i s s.refuseLocked
  | refused (h : s.statusErr = 0) (c : RefuseCode) : CommandEnd i s (s.refuse c)
  | completed (h : s.statusErr = 0) {t : State} (ht : Completed i s t) : CommandEnd i s t

/-- A completing command keeps ERR. -/
theorem Completed.statusErr_eq {i : Instr} {s t : State} (h : Completed i s t) : t.statusErr = s.statusErr := by
  cases h <;> simp

theorem CommandEnd.of_unlessLocked {i : Instr} {s t t' : State} (h : unlessLocked s (.next t') = .next t)
    (hc : Completed i s t') : CommandEnd i s t := by
  rcases unlessLocked_cases h with ⟨hl, rfl⟩ | ⟨hl, ht⟩
  · exact .locked ((State.locked_iff s).1 hl)
  · injection ht with ht
    exact ht ▸ .completed ((State.locked_eq_false_iff s).1 hl) hc

theorem CommandEnd.of_execStream {i : Instr} {srcGiven : Bool} {output : List Byte} {s t : State}
    (h : execStream srcGiven output s = .next t) (hi : isStream i = true) (hlen : output.length = s.len.toNat) :
    CommandEnd i s t := by
  rcases execStream_cases h with ⟨hl, rfl⟩ | ⟨hl, code, _, rfl⟩ | ⟨hl, _, h0, rfl⟩ | ⟨hl, hc, _, rfl⟩
  · exact .locked ((State.locked_iff s).1 hl)
  · exact .refused ((State.locked_eq_false_iff s).1 hl) code
  · exact .completed ((State.locked_eq_false_iff _).1 hl) (.unchanged (.inr ⟨hi, h0⟩))
  · exact .completed ((State.locked_eq_false_iff s).1 hl) (.stream output hi hlen (State.destOk_of_streamCheck hc))

theorem CommandEnd.of_execPoly {i : Instr} {finish : Bytes 16 → State} {s t : State}
    (h : execPoly finish s = .next t) (hc : ∀ tag, Completed i s (finish tag)) : CommandEnd i s t := by
  rcases execPoly_cases h with ⟨hl, rfl⟩ | ⟨hl, _, rfl⟩ | ⟨hl, _, rfl⟩
  · exact .locked ((State.locked_iff s).1 hl)
  · exact .refused ((State.locked_eq_false_iff s).1 hl) .range
  · exact .completed ((State.locked_eq_false_iff s).1 hl) (hc _)

/-- The inversion lemma of exec: everything a command other than SRST can do. -/
theorem exec_cases {i : Instr} {s t : State} (h : exec i s = .next t) (hs : i ≠ .srst) : CommandEnd i s t := by
  cases i with
  | nop => exact .of_unlessLocked h (.unchanged (.inl rfl))
  | core => exact .of_unlessLocked h (.out _ (.inl rfl))
  | hsal => exact .of_unlessLocked h (.out _ (.inr rfl))
  | s20Xor off => exact .of_execStream h rfl (State.length_s20Output s true off)
  | s20Ks off => exact .of_execStream h rfl (State.length_s20Output s false off)
  | xs20Xor off => exact .of_execStream h rfl (State.length_xs20Output s true off)
  | xs20Ks off => exact .of_execStream h rfl (State.length_xs20Output s false off)
  | p1305Auth => exact .of_execPoly (finish := fun t => s.setTag t) h fun tag => .tag tag rfl
  | p1305Vfy =>
    exact .of_execPoly (finish := fun t => (s.setEq (ctEqual t s.tagx)).setTag (zeroBytes 16)) h
      fun tag => .verify _ rfl
  | ceq16 => exact .of_unlessLocked h (.eq _ (.inl rfl))
  | ceq32 => exact .of_unlessLocked h (.eq _ (.inr rfl))
  | srst => exact absurd rfl hs

/-- SRST resets every register, whatever the state. -/
theorem exec_srst (s : State) : exec .srst s = .next s.resetRegisters := rfl

/-- Everything a write to CMD can do: SRST, a command, or a refusal of a word that encodes none. -/
theorem commandWrite_cases {w : Word} {s t : State} (h : commandWrite w s = .next t) :
    (decode w = .command .srst ∧ t = s.resetRegisters) ∨
    (∃ i, decode w = .command i ∧ i ≠ .srst ∧ CommandEnd i s t) ∨
    ((decode w = .illegal ∨ decode w = .reserved) ∧ ∃ c, t = s.refuse c) := by
  unfold commandWrite at h
  split at h
  · next i hd =>
    by_cases hs : i = .srst
    · subst hs
      rw [exec_srst] at h
      injection h with h
      exact .inl ⟨hd, h.symm⟩
    · exact .inr (.inl ⟨i, hd, hs, exec_cases h hs⟩)
  · next hd => injection h with h; exact .inr (.inr ⟨.inl hd, _, h.symm⟩)
  · next hd => injection h with h; exact .inr (.inr ⟨.inr hd, _, h.symm⟩)

/-! ### Every command ends in a next state -/

theorem unlessLocked_next {s : State} {run : Host.Outcome State Fault Refusal} (h : ∃ t, run = .next t) :
    ∃ t, unlessLocked s run = .next t := by
  unfold unlessLocked
  split
  · exact ⟨_, rfl⟩
  · exact h

theorem execStream_next (srcGiven : Bool) (output : List Byte) (s : State) :
    ∃ t, execStream srcGiven output s = .next t := by
  refine unlessLocked_next ?_
  split
  · exact ⟨_, rfl⟩
  · split <;> exact ⟨_, rfl⟩

theorem execPoly_next (finish : Bytes 16 → State) (s : State) : ∃ t, execPoly finish s = .next t := by
  refine unlessLocked_next ?_
  split <;> exact ⟨_, rfl⟩

/-- No command stops the machine: a refusal of the block is a next state (R236). -/
theorem exec_next (i : Instr) (s : State) : ∃ t, exec i s = .next t := by
  cases i with
  | nop => exact unlessLocked_next ⟨_, rfl⟩
  | core => exact unlessLocked_next ⟨_, rfl⟩
  | hsal => exact unlessLocked_next ⟨_, rfl⟩
  | s20Xor off => exact execStream_next _ _ _
  | s20Ks off => exact execStream_next _ _ _
  | xs20Xor off => exact execStream_next _ _ _
  | xs20Ks off => exact execStream_next _ _ _
  | p1305Auth => exact execPoly_next _ _
  | p1305Vfy => exact execPoly_next (fun t => (s.setEq (ctEqual t s.tagx)).setTag (zeroBytes 16)) s
  | ceq16 => exact unlessLocked_next ⟨_, rfl⟩
  | ceq32 => exact unlessLocked_next ⟨_, rfl⟩
  | srst => exact ⟨_, rfl⟩

/-- No write to CMD stops the machine. -/
theorem commandWrite_next (w : Word) (s : State) : ∃ t, commandWrite w s = .next t := by
  unfold commandWrite
  split
  · exact exec_next _ _
  · exact ⟨_, rfl⟩
  · exact ⟨_, rfl⟩

end Sys2Proof.Machine
end

