-- ==== Sys2Proof/Laws/PerInstr.lean ====
section
/-!
SUPPORT. Per command: the fields of its encoding (spec 30_encoding R91, R92, R95).
-/

namespace Sys2Proof.Laws

/-- For a command that can be encoded: its encoding has its opcode in bits 7:0, its offset in bits 13:8, and nothing
above. -/
def EncodeFields.Statement (i : Instr) : Prop :=
  i.wellFormed = true →
    (encode i).toNat % 256 = i.opcode ∧ (encode i).toNat / 256 % 64 = i.off ∧ (encode i).toNat / 2 ^ 14 = 0

/-- The fields of `OPC + 256*OFF` for an opcode of 8 bits. -/
theorem EncodeFields.of_opcode {i : Instr} (h : i.opcode < 256) : EncodeFields.Statement i := by
  intro hw
  have hoff : i.off ≤ 63 := by simpa [Instr.wellFormed] using hw
  simp only [encode, BitVec.toNat_ofNat]
  omega

theorem EncodeFields.nop : EncodeFields.Statement .nop := EncodeFields.of_opcode (by decide)
theorem EncodeFields.core : EncodeFields.Statement .core := EncodeFields.of_opcode (by decide)
theorem EncodeFields.hsal : EncodeFields.Statement .hsal := EncodeFields.of_opcode (by decide)
theorem EncodeFields.s20Xor (off : Nat) : EncodeFields.Statement (.s20Xor off) := EncodeFields.of_opcode (by simp [Instr.opcode])
theorem EncodeFields.s20Ks (off : Nat) : EncodeFields.Statement (.s20Ks off) := EncodeFields.of_opcode (by simp [Instr.opcode])
theorem EncodeFields.xs20Xor (off : Nat) : EncodeFields.Statement (.xs20Xor off) := EncodeFields.of_opcode (by simp [Instr.opcode])
theorem EncodeFields.xs20Ks (off : Nat) : EncodeFields.Statement (.xs20Ks off) := EncodeFields.of_opcode (by simp [Instr.opcode])
theorem EncodeFields.p1305Auth : EncodeFields.Statement .p1305Auth := EncodeFields.of_opcode (by decide)
theorem EncodeFields.p1305Vfy : EncodeFields.Statement .p1305Vfy := EncodeFields.of_opcode (by decide)
theorem EncodeFields.ceq16 : EncodeFields.Statement .ceq16 := EncodeFields.of_opcode (by decide)
theorem EncodeFields.ceq32 : EncodeFields.Statement .ceq32 := EncodeFields.of_opcode (by decide)
theorem EncodeFields.srst : EncodeFields.Statement .srst := EncodeFields.of_opcode (by decide)

end Sys2Proof.Laws
end

