-- ==== Sys2Proof/Laws/Window.lean ====
section
/-!
SUPPORT. The host's side of a step: which transaction a step takes, everything a transaction can do, and the offsets of
the window.
-/

namespace Sys2Proof.Machine

/-! ### The offsets of the window -/

/-- A register found in rows of the map lies in a row of it, with the word the offset names. -/
theorem findReg_some {rows : List WindowRow} {off : Nat} {r : Reg} {k : Nat} (h : findReg rows off = some (r, k)) :
    ∃ row ∈ rows, row.reg = r ∧ row.base ≤ off ∧ off < row.base + 4 * row.words ∧ k = (off - row.base) / 4 := by
  induction rows with
  | nil => simp [findReg] at h
  | cons row rows ih =>
    by_cases hr : row.base ≤ off ∧ off < row.base + 4 * row.words
    · rw [findReg, if_pos hr] at h
      simp only [Option.some.injEq, Prod.mk.injEq] at h
      exact ⟨row, by simp, h.1, hr.1, hr.2, h.2.symm⟩
    · rw [findReg, if_neg hr] at h
      obtain ⟨row', hm, h'⟩ := ih h
      exact ⟨row', by simp [hm], h'⟩

/-- An offset in no row of the map is found nowhere. -/
theorem findReg_none {rows : List WindowRow} {off : Nat}
    (h : ∀ row ∈ rows, off < row.base ∨ row.base + 4 * row.words ≤ off) : findReg rows off = none := by
  induction rows with
  | nil => rfl
  | cons row rows ih =>
    have := h row (by simp)
    rw [findReg, if_neg (by omega), ih fun r hr => h r (by simp [hr])]

/-- An offset inside a row of a map whose rows are disjoint is found there. -/
theorem findReg_of_mem {rows : List WindowRow}
    (hd : rows.Pairwise fun x y => x.base + 4 * x.words ≤ y.base) {row : WindowRow} (hm : row ∈ rows) {off : Nat}
    (hlo : row.base ≤ off) (hhi : off < row.base + 4 * row.words) :
    findReg rows off = some (row.reg, (off - row.base) / 4) := by
  induction rows with
  | nil => simp at hm
  | cons x rows ih =>
    rw [List.pairwise_cons] at hd
    rcases List.mem_cons.1 hm with rfl | hm
    · rw [findReg, if_pos ⟨hlo, hhi⟩]
    · have := hd.1 row hm
      rw [findReg, if_neg (by omega), ih hd.2 hm]

/-- The rows of the map do not overlap (R41). -/
theorem window_disjoint : window.Pairwise fun x y => x.base + 4 * x.words ≤ y.base := by decide

/-- The register and word at an offset inside a row of the map. -/
theorem regAt_of_mem {row : WindowRow} (hm : row ∈ window) {off : BitVec 12} (hlo : row.base ≤ off.toNat)
    (hhi : off.toNat < row.base + 4 * row.words) : regAt off = some (row.reg, (off.toNat - row.base) / 4) :=
  findReg_of_mem window_disjoint hm hlo hhi

/-- Word k of a row of the map stands at the row's first offset + 4k, an aligned offset (R41). -/
theorem regAt_word {row : WindowRow} (hm : row ∈ window) {k : Nat} (hk : k < row.words) :
    regAt (BitVec.ofNat 12 (row.base + 4 * k)) = some (row.reg, k) ∧
      (BitVec.ofNat 12 (row.base + 4 * k)).toNat % 4 = 0 := by
  have hrows : ∀ x ∈ window, x.base + 4 * x.words ≤ 4096 ∧ x.base % 4 = 0 := by decide
  obtain ⟨hend, halign⟩ := hrows _ hm
  have hoff : (BitVec.ofNat 12 (row.base + 4 * k)).toNat = row.base + 4 * k := by simp; omega
  refine ⟨?_, by omega⟩
  rw [regAt_of_mem hm (by omega) (by omega), hoff]
  simp

/-- The offset of CMD. -/
theorem regAt_cmd : regAt 0x008 = some (.cmd, 0) := by decide

/-- The offset of STATUS. -/
theorem regAt_status : regAt 0x004 = some (.status, 0) := by decide

/-- The only aligned offset of CMD. -/
theorem eq_cmdOffset {off : BitVec 12} {k : Nat} (h : regAt off = some (.cmd, k)) (ha : off.toNat % 4 = 0) :
    off = 0x008 := by
  obtain ⟨row, hm, hr, hlo, hhi, _⟩ := findReg_some h
  apply BitVec.eq_of_toNat_eq
  show off.toNat = 8
  simp only [window, List.mem_cons, List.not_mem_nil, or_false] at hm
  rcases hm with rfl | rfl | rfl | rfl | rfl | rfl | rfl | rfl | rfl | rfl | rfl | rfl | rfl | rfl | rfl | rfl <;>
    first
      | (simp only [reduceCtorEq] at hr; done)
      | (simp only at hlo hhi; omega)

theorem alignedWord_iff (size : Nat) (off : BitVec 12) :
    alignedWord size off = true ↔ size = 4 ∧ off.toNat % 4 = 0 := by simp [alignedWord]

/-! ### What a host register write leaves -/

@[simp] theorem State.writeReg_out (s : State) (r : Reg) (k : Nat) (w : Word) : (s.writeReg r k w).out = s.out := by
  cases r <;> simp only [State.writeReg, State.clearStatus]

@[simp] theorem State.writeReg_tag (s : State) (r : Reg) (k : Nat) (w : Word) : (s.writeReg r k w).tag = s.tag := by
  cases r <;> simp only [State.writeReg, State.clearStatus]

@[simp] theorem State.writeReg_dmem (s : State) (r : Reg) (k : Nat) (w : Word) : (s.writeReg r k w).dmem = s.dmem := by
  cases r <;> simp only [State.writeReg, State.clearStatus]

@[simp] theorem State.writeReg_dmemBytes (s : State) (r : Reg) (k : Nat) (w : Word) : (s.writeReg r k w).dmemBytes = s.dmemBytes := by
  cases r <;> simp only [State.writeReg, State.clearStatus]

@[simp] theorem State.writeReg_pending (s : State) (r : Reg) (k : Nat) (w : Word) : (s.writeReg r k w).pending = s.pending := by
  cases r <;> simp only [State.writeReg, State.clearStatus]

@[simp] theorem State.writeReg_reads (s : State) (r : Reg) (k : Nat) (w : Word) : (s.writeReg r k w).reads = s.reads := by
  cases r <;> simp only [State.writeReg, State.clearStatus]

@[simp] theorem State.writeReg_aborts (s : State) (r : Reg) (k : Nat) (w : Word) : (s.writeReg r k w).aborts = s.aborts := by
  cases r <;> simp only [State.writeReg, State.clearStatus]

/-- A register write leaves STATUS, or clears it. -/
theorem State.writeReg_status (s : State) (r : Reg) (k : Nat) (w : Word) :
    (r ≠ .status ∧ (s.writeReg r k w).statusEq = s.statusEq ∧ (s.writeReg r k w).statusErr = s.statusErr) ∨
    (r = .status ∧ s.writeReg r k w = s.clearStatus) := by
  cases r
  case status => right; simp only [State.writeReg, and_self]
  all_goals left; simp [State.writeReg]

/-! ### What an aborted command leaves -/

@[simp] theorem abortedState_key (s t : State) : (abortedState s t).key = s.resetRegisters.key := rfl
@[simp] theorem abortedState_inp (s t : State) : (abortedState s t).inp = s.resetRegisters.inp := rfl
@[simp] theorem abortedState_nonce (s t : State) : (abortedState s t).nonce = s.resetRegisters.nonce := rfl
@[simp] theorem abortedState_const (s t : State) : (abortedState s t).const = s.resetRegisters.const := rfl
@[simp] theorem abortedState_out (s t : State) : (abortedState s t).out = s.resetRegisters.out := rfl
@[simp] theorem abortedState_pkey (s t : State) : (abortedState s t).pkey = s.resetRegisters.pkey := rfl
@[simp] theorem abortedState_tag (s t : State) : (abortedState s t).tag = s.resetRegisters.tag := rfl
@[simp] theorem abortedState_tagx (s t : State) : (abortedState s t).tagx = s.resetRegisters.tagx := rfl
@[simp] theorem abortedState_ca (s t : State) : (abortedState s t).ca = s.resetRegisters.ca := rfl
@[simp] theorem abortedState_cb (s t : State) : (abortedState s t).cb = s.resetRegisters.cb := rfl
@[simp] theorem abortedState_src (s t : State) : (abortedState s t).src = s.resetRegisters.src := rfl
@[simp] theorem abortedState_dst (s t : State) : (abortedState s t).dst = s.resetRegisters.dst := rfl
@[simp] theorem abortedState_len (s t : State) : (abortedState s t).len = s.resetRegisters.len := rfl
@[simp] theorem abortedState_statusEq (s t : State) : (abortedState s t).statusEq = s.resetRegisters.statusEq := rfl
@[simp] theorem abortedState_statusErr (s t : State) : (abortedState s t).statusErr = s.resetRegisters.statusErr := rfl
@[simp] theorem abortedState_dmemBytes (s t : State) : (abortedState s t).dmemBytes = s.resetRegisters.dmemBytes := rfl
@[simp] theorem abortedState_pending (s t : State) : (abortedState s t).pending = s.resetRegisters.pending := rfl
@[simp] theorem abortedState_reads (s t : State) : (abortedState s t).reads = s.resetRegisters.reads := rfl

/-- The bytes of the destination buffer are old or new, the others old (R263). -/
theorem read_abortMix (n : Nat) (old new : Dmem) (dst len a : Nat) :
    Dmem.read (Dmem.abortMix n old new dst len) a = Dmem.read old a ∨
    (dst ≤ a ∧ a < dst + len ∧ Dmem.read (Dmem.abortMix n old new dst len) a = Dmem.read new a) := by
  by_cases h : dst ≤ a ∧ a < dst + len
  · obtain ⟨i, rfl⟩ := Nat.exists_eq_add_of_le h.1
    rw [Dmem.abortMix, Dmem.read_writeBytes_inside _ _ _ (by simpa using h.2)]
    simp only [List.getElem_map, List.getElem_range]
    split
    · exact .inl rfl
    · exact .inr ⟨h.1, h.2, rfl⟩
  · exact .inl (Dmem.read_writeBytes_outside _ _ _ (by simp; omega))

/-! ### The host's moves inside its own program -/

theorem State.skipPending_eq (s : State) (count : Nat) :
    s.skipPending count = { s with pending := s.pending.drop count } := rfl

/-- The host's last read is the one it made last. -/
@[simp] theorem State.hasRead_zero_pushRead (s : State) (r value : HostRead) :
    (s.pushRead r).hasRead 0 value = (r == value) := by
  simp [State.hasRead, State.pushRead]

/-! ### The step -/

/-- With no transaction to come the block is idle. -/
theorem step_idle {s : State} (h : s.pending = []) : step s = .next s := by
  simp [step, hostNext, h]

/-- A step takes the host's next transaction. -/
theorem step_cons {s : State} {t : HostTxn} {rest : List HostTxn} (h : s.pending = t :: rest) :
    step s = hostTransact t (s.setPending rest) := by
  simp [step, hostNext, h]

/-- A write to CMD starts a command. -/
theorem hostTransact_command (w : Word) (s : State) : hostTransact (.regWrite 4 0x008 w) s = commandWrite w s := by
  rw [hostTransact, hostRegWrite, if_pos (by decide), regAt_cmd]

/-- A step whose next transaction is a write to CMD runs that command. -/
theorem step_command {s : State} {w : Word} {rest : List HostTxn} (h : s.pending = .regWrite 4 0x008 w :: rest) :
    step s = commandWrite w (s.setPending rest) := by
  rw [step_cons h, hostTransact_command]

/-- A step whose next transaction is a register read records the word and changes nothing else. -/
theorem step_regRead (s : State) {off : BitVec 12} (rest : List HostTxn) (ha : off.toNat % 4 = 0) :
    step { s with pending := .regRead 4 off :: rest } =
      .next { s with pending := rest, reads := s.reads ++ [.word (s.readWindow off)] } := by
  rw [step_cons (s := { s with pending := .regRead 4 off :: rest }) rfl, hostTransact, hostRegRead,
    if_pos ((alignedWord_iff _ _).2 ⟨rfl, ha⟩)]
  rfl

/-- A step whose next transaction is a register write other than to CMD does that write. -/
theorem step_regWrite (s : State) {off : BitVec 12} {r : Reg} {k : Nat} (w : Word) (rest : List HostTxn)
    (ha : off.toNat % 4 = 0) (hr : regAt off = some (r, k)) (hc : r ≠ .cmd) :
    step { s with pending := .regWrite 4 off w :: rest } = .next ((s.setPending rest).writeReg r k w) := by
  rw [step_cons (s := { s with pending := .regWrite 4 off w :: rest }) rfl, hostTransact, hostRegWrite,
    if_pos ((alignedWord_iff _ _).2 ⟨rfl, ha⟩), hr]
  cases r <;> first | rfl | exact absurd rfl hc

/-- A step whose next entry is a test of a value read goes on, or skips. -/
theorem step_test (s : State) (ago : Nat) (value : HostRead) (count : Nat) (rest : List HostTxn) :
    step { s with pending := .test ago value count :: rest } =
      .next { s with pending := if s.hasRead ago value then rest else rest.drop count } := by
  rw [step_cons (s := { s with pending := .test ago value count :: rest }) rfl, hostTransact, hostTest]
  cases hr : s.hasRead ago value with
  | true => exact congrArg _ (if_pos hr)
  | false => exact congrArg _ (if_neg fun h => Bool.noConfusion (hr.symm.trans h))

/-- A step whose next entry is a skip. -/
theorem step_skip (s : State) (count : Nat) (rest : List HostTxn) :
    step { s with pending := .skip count :: rest } = .next { s with pending := rest.drop count } :=
  step_cons (s := { s with pending := .skip count :: rest }) rfl

/-! ### Runs -/

theorem run_zero (s : State) : Host.Core.run Sys2Proof.core 0 s = .next s := rfl

/-- A run of one step more, by its first step. -/
theorem run_succ {s t : State} (h : step s = .next t) (n : Nat) :
    Host.Core.run Sys2Proof.core (n + 1) s = Host.Core.run Sys2Proof.core n t := by
  have hc : Sys2Proof.core.step s = .next t := h
  simp only [Host.Core.run, hc]

/-- One run after another. -/
theorem run_add {s t : State} {m : Nat} (h : Host.Core.run Sys2Proof.core m s = .next t) (n : Nat) :
    Host.Core.run Sys2Proof.core (m + n) s = Host.Core.run Sys2Proof.core n t := by
  induction m generalizing s with
  | zero =>
    rw [run_zero] at h
    injection h with h
    rw [Nat.zero_add, h]
  | succ m ih =>
    cases hs : step s with
    | next u =>
      rw [run_succ hs] at h
      rw [Nat.add_right_comm, run_succ hs, ih h]
    | fault r =>
      have hc : Sys2Proof.core.step s = .fault r := hs
      simp only [Host.Core.run, hc] at h
      cases h
    | refused r =>
      have hc : Sys2Proof.core.step s = .refused r := hs
      simp only [Host.Core.run, hc] at h
      cases h

/-- The host's next transaction after `withFetchWord` is the write of that word to CMD, on the state as it was. -/
theorem step_withFetchWord (s : State) (nbits w : Nat) :
    step (s.withFetchWord nbits w) = commandWrite (tableWord nbits w) s := by
  rw [step_command (s := s.withFetchWord nbits w) (w := tableWord nbits w) (rest := s.pending) rfl]
  rfl

/-- Everything a transaction of the host can lead to. -/
inductive TxnEnd (s : State) : HostTxn → State → Prop
  /-- A register write other than to CMD. -/
  | wrote (off : BitVec 12) (w : Word) (r : Reg) (k : Nat) (ha : off.toNat % 4 = 0) (hr : regAt off = some (r, k))
      (hc : r ≠ .cmd) : TxnEnd s (.regWrite 4 off w) (s.writeReg r k w)
  /-- A write to a reserved offset. -/
  | ignored (off : BitVec 12) (w : Word) (ha : off.toNat % 4 = 0) (hr : regAt off = none) :
      TxnEnd s (.regWrite 4 off w) s
  /-- A write to CMD. -/
  | command (w : Word) {t : State} (h : commandWrite w s = .next t) : TxnEnd s (.regWrite 4 0x008 w) t
  /-- A register read. -/
  | read (off : BitVec 12) (ha : off.toNat % 4 = 0) :
      TxnEnd s (.regRead 4 off) (s.pushRead (.word (s.readWindow off)))
  /-- A write of a DMEM byte. -/
  | byteWritten (a : Nat) (b : Byte) (h : a < s.dmemBytes) : TxnEnd s (.memWrite a b) (s.memWrite a [b])
  /-- A read of a DMEM byte. -/
  | byteRead (a : Nat) (h : a < s.dmemBytes) : TxnEnd s (.memRead a) (s.pushRead (.byte (Dmem.read s.dmem a)))
  /-- A hardware reset. -/
  | reset : TxnEnd s .reset s.resetRegisters
  /-- A hardware reset during a command that would have led to u. -/
  | aborted (w : Word) {u : State} (h : commandWrite w s = .next u) : TxnEnd s (.resetDuring w) (abortedState s u)
  /-- A test that holds. -/
  | tested (ago : Nat) (value : HostRead) (count : Nat) (h : s.hasRead ago value = true) :
      TxnEnd s (.test ago value count) s
  /-- A test that does not hold. -/
  | testedNot (ago : Nat) (value : HostRead) (count : Nat) (h : s.hasRead ago value = false) :
      TxnEnd s (.test ago value count) (s.skipPending count)
  /-- Entries skipped. -/
  | skipped (count : Nat) : TxnEnd s (.skip count) (s.skipPending count)

/-- The inversion lemma of a transaction. -/
theorem hostTransact_cases {x : HostTxn} {s t : State} (h : hostTransact x s = .next t) : TxnEnd s x t := by
  cases x with
  | regWrite size off w =>
    simp only [hostTransact, hostRegWrite] at h
    split at h
    · next ha =>
      obtain ⟨rfl, hal⟩ := (alignedWord_iff _ _).1 ha
      cases hr : regAt off with
      | none =>
        rw [hr] at h
        injection h with h
        exact h ▸ .ignored off w hal hr
      | some rk =>
        obtain ⟨r, k⟩ := rk
        rw [hr] at h
        by_cases hc : r = .cmd
        · subst hc
          obtain rfl := eq_cmdOffset hr hal
          exact .command w h
        · have h' : (Host.Outcome.next (s.writeReg r k w) : Host.Outcome State Fault Refusal) = .next t := by
            rw [← h]; cases r <;> first | rfl | exact absurd rfl hc
          injection h' with h'
          exact h' ▸ .wrote off w r k hal hr hc
    · cases h
  | regRead size off =>
    simp only [hostTransact, hostRegRead] at h
    split at h
    · next ha =>
      obtain ⟨rfl, hal⟩ := (alignedWord_iff _ _).1 ha
      injection h with h
      exact h ▸ .read off hal
    · cases h
  | memWrite a b =>
    simp only [hostTransact, hostMemWrite] at h
    split at h
    · next ha => injection h with h; exact h ▸ .byteWritten a b ha
    · cases h
  | memRead a =>
    simp only [hostTransact, hostMemRead] at h
    split at h
    · next ha => injection h with h; exact h ▸ .byteRead a ha
    · cases h
  | reset =>
    simp only [hostTransact, hostReset] at h
    injection h with h
    exact h ▸ .reset
  | resetDuring w =>
    simp only [hostTransact, hostResetDuring] at h
    split at h
    · next u hu => injection h with h; exact h ▸ .aborted w hu
    · cases h
    · cases h
  | test ago value count =>
    simp only [hostTransact, hostTest] at h
    injection h with h
    subst h
    cases hr : s.hasRead ago value with
    | true => exact .tested ago value count hr
    | false => exact .testedNot ago value count hr
  | skip count =>
    simp only [hostTransact, hostSkip] at h
    injection h with h
    exact h ▸ .skipped count

/-- The inversion lemma of step: an idle block stays as it is, or the next transaction is done. -/
theorem step_cases {s t : State} (h : step s = .next t) :
    (s.pending = [] ∧ t = s) ∨ ∃ x rest, s.pending = x :: rest ∧ TxnEnd (s.setPending rest) x t := by
  cases hp : s.pending with
  | nil =>
    rw [step_idle hp] at h
    injection h with h
    exact .inl ⟨rfl, h.symm⟩
  | cons x rest =>
    rw [step_cons hp] at h
    exact .inr ⟨x, rest, rfl, hostTransact_cases h⟩

end Sys2Proof.Machine
end

