-- ==== Sys2Proof/Tests/Slice0.lean ====
section
/-!
SUPPORT. Tests: expected values are those of spec/95_test_vectors.md (V<n>) or are worked out by hand from the rule named;
and for each obligation with hypotheses a witness that its hypotheses can be met together.
-/

namespace Sys2Proof.Tests

-- One test at a time: checked side by side, the evaluations below need more memory than a check of the package has.
set_option Elab.async false

open Sys2Proof Sys2Proof.Machine

/-! ### Helpers -/

/-- A byte register that holds the bytes of a list, filled with zero. -/
def bytesOf (n : Nat) (l : List Byte) : Bytes n := Vector.ofFn fun i => l.getD i.val 0

/-- The n bytes start, start + 1, ... -/
def counting (start n : Nat) : List Byte := (List.range n).map fun i => BitVec.ofNat 8 (start + i)

/-- The next state, or the state itself where the machine stops. -/
def stepped (s : State) : State :=
  match step s with
  | .next t => t
  | .fault _ => s
  | .refused _ => s

/-- The machine makes a step. -/
def completes (s : State) : Bool :=
  match step s with
  | .next _ => true
  | .fault _ => false
  | .refused _ => false

theorem step_eq_stepped {s : State} (h : completes s = true) : step s = .next (stepped s) := by
  unfold completes at h
  unfold stepped
  cases hs : step s with
  | next t => rfl
  | fault r => rw [hs] at h; cases h
  | refused r => rw [hs] at h; cases h

/-- The state a command leads to. -/
def after (i : Instr) (s : State) : State :=
  match exec i s with
  | .next t => t
  | .fault _ => s
  | .refused _ => s

theorem exec_eq_after (i : Instr) (s : State) : exec i s = .next (after i s) := by
  obtain ⟨t, h⟩ := exec_next i s
  rw [after, h]

/-- The state after reset with one transaction of the host to come. -/
def fresh (x : HostTxn) : State := State.reset.setPending [x]

/-- What a write of w to CMD leaves of a state. -/
def ran (w : Word) (s : State) : State := stepped (s.setPending [commandTxn w])

/-- The state after reset with buffers. -/
def buffers (src dst len : Word) : State := { State.reset with src := src, dst := dst, len := len }

/-- The state after reset, locked by E_RANGE, with EQ still 0. -/
def lockedState : State := { State.reset with statusErr := 3 }

/-! ### Well-formedness: each stream command refuses OFF = 64 (R94, R105) -/

theorem test_illformed_s20xor : (Instr.s20Xor 64).wellFormed = false := by decide
theorem test_illformed_s20ks : (Instr.s20Ks 64).wellFormed = false := by decide
theorem test_illformed_xs20xor : (Instr.xs20Xor 64).wellFormed = false := by decide
theorem test_illformed_xs20ks : (Instr.xs20Ks 64).wellFormed = false := by decide

/-- And the assembler gives no word for it. -/
theorem test_illformed_assemble : assemble (.xs20Ks 64) = none ∧ assemble (.xs20Ks 63) = some 0x00003F13 := by decide

/-! ### Decoding: words written bit by bit, reserved field, OFF, OPC (R91, R92, R95) -/

theorem test_decode_nop : decode 0b000000000000000000000000_00000000 = .command .nop := by decide
theorem test_decode_core : decode 0b000000000000000000000000_00000001 = .command .core := by decide
theorem test_decode_hsal : decode 0b000000000000000000000000_00000010 = .command .hsal := by decide
theorem test_decode_s20xor : decode 0b000000000000000000_000001_00010000 = .command (.s20Xor 1) := by decide
theorem test_decode_s20ks : decode 0b000000000000000000_111100_00010001 = .command (.s20Ks 60) := by decide
theorem test_decode_xs20xor : decode 0b000000000000000000_100000_00010010 = .command (.xs20Xor 32) := by decide
theorem test_decode_xs20ks : decode 0b000000000000000000_111111_00010011 = .command (.xs20Ks 63) := by decide
theorem test_decode_p1305auth : decode 0b000000000000000000000000_00100000 = .command .p1305Auth := by decide
theorem test_decode_p1305vfy : decode 0b000000000000000000000000_00100001 = .command .p1305Vfy := by decide
theorem test_decode_ceq16 : decode 0b000000000000000000000000_00110000 = .command .ceq16 := by decide
theorem test_decode_ceq32 : decode 0b000000000000000000000000_00110001 = .command .ceq32 := by decide
theorem test_decode_srst : decode 0b000000000000000000000000_01111111 = .command .srst := by decide

/-- V60 to V64: no such opcode before a reserved field that is not zero. -/
theorem test_decode_refused :
    decode 0x00000003 = .illegal ∧ decode 0x00000103 = .illegal ∧ decode 0xFFFFFFFF = .illegal ∧
      decode 0x00000101 = .reserved ∧ decode 0x00004010 = .reserved := by decide

/-- The first step after withFetchWord from reset runs the command, for each row's word. -/
theorem test_every_word_runs :
    ([0x00, 0x01, 0x02, 0x10, 0x11, 0x12, 0x13, 0x20, 0x21, 0x30, 0x31, 0x7F] : List Nat).all
      (fun w => completes (State.reset.withFetchWord 32 w)) = true := by decide +kernel

/-! ### The assembler (R105, R110, R111) -/

/-- P2: `xs20.xor 32` is 0x00002012. -/
theorem test_assemble_line :
    assembleLine ['x', 's', '2', '0', '.', 'x', 'o', 'r', ' ', '3', '2'] = some 0x00002012 := by decide

/-- R105: a 0x operand, and the comment after it. -/
theorem test_assemble_hex_comment :
    assembleLine ['s', '2', '0', '.', 'k', 's', ' ', '0', 'x', '3', 'c', ' ', ';', 'n'] = some 0x00003C11 := by decide

/-- R110: k is any multiple of 4, so `rd LEN+4` is the read of the reserved offset 0x018. -/
theorem test_rd_past_register : (HostStmt.rd .len 4).expand = some [.regRead 4 0x018] := by decide

/-- The machine after n steps. -/
def steps : Nat → State → State
  | 0, s => s
  | n + 1, s => steps n (stepped s)

/-- R110: `if rd STATUS == 1 then nop else clr`, then `rd ID`, by the value of EQ: four or three more steps to the end. -/
theorem test_host_conditional :
    let p := HostProgram.ifRd .status 0 1 (.ofList [.command .nop]) (.ofList [.clr]) (.ofList [.rd .id 0])
    expandProgram p = some [.regRead 4 0x004, .test 0 (.word 1) 2, .regWrite 4 0x008 0, .skip 1, .regWrite 4 0x004 0,
      .regRead 4 0x000] ∧
    (steps 5 ({ State.reset with statusEq := true }.setPending ((expandProgram p).getD []))).statusWord = 1 ∧
    (steps 5 (lockedState.setPending ((expandProgram p).getD []))).statusWord = 0 ∧
    (steps 5 ({ State.reset with statusEq := true }.setPending ((expandProgram p).getD []))).reads =
      [.word 1, .word 0x58533230] ∧
    (steps 5 (lockedState.setPending ((expandProgram p).getD []))).reads = [.word 0x30, .word 0x58533230] := by
  decide +kernel

/-- P2: `ldb PKEY` starts with the write (W, 0x0C0, 0x25A7A6EE). -/
theorem test_ldb_first_word :
    (HostStmt.ldb .pkey [0xee, 0xa6, 0xa7, 0x25]).expand = some [.regWrite 4 0x0C0 0x25A7A6EE] := by decide +kernel

/-- R111: the result of `rdb TAG` is the sixteen bytes of TAG in order (here those of P2). -/
theorem test_rdb_result :
    let tag : List Byte := [0xf3, 0xff, 0xc7, 0x70, 0x3f, 0x94, 0x00, 0xe5, 0x2a, 0x7d, 0xfb, 0x4b, 0x3d, 0x33, 0x05, 0xd9]
    let s : State := { State.reset with tag := bytesOf 16 tag }
    let t := steps 4 (s.setPending (((HostStmt.rdb .tag).expand).getD []))
    t.reads = [.word 0x70C7FFF3, .word 0xE500943F, .word 0x4BFB7D2A, .word 0xD905333D] ∧ yielded s t = tag := by
  decide +kernel

/-! ### Salsa20 and HSalsa20 -/

/-- V3, row 6. -/
theorem test_quarter :
    quarter ⟨0xe7e8c006, 0xc4f9417d, 0x6479b4b2, 0x68c67137⟩ =
      ⟨0xe876d72b, 0x9361dfd5, 0xf1460244, 0x948541a3⟩ := by decide +kernel

/-- V5. -/
theorem test_rowround :
    rowround #v[1, 0, 0, 0, 1, 0, 0, 0, 1, 0, 0, 0, 1, 0, 0, 0] =
      #v[0x08008145, 0x00000080, 0x00010200, 0x20500000, 0x20100001, 0x00048044, 0x00000080, 0x00010000,
         0x00000001, 0x00002000, 0x80040000, 0x00000000, 0x00000001, 0x00000200, 0x00402000, 0x88000100] := by
  decide +kernel

/-- V4. -/
theorem test_colround :
    colround #v[1, 0, 0, 0, 1, 0, 0, 0, 1, 0, 0, 0, 1, 0, 0, 0] =
      #v[0x10090288, 0, 0, 0, 0x00000101, 0, 0, 0, 0x00020401, 0, 0, 0, 0x40a04001, 0, 0, 0] := by
  decide +kernel

/-- V2, all sixteen words. -/
theorem test_core_zero_key :
    (List.range 16).map (wordAt (ran 0x00000001 State.reset).out) =
      [0x5bf6979a, 0x1b724c9b, 0x21670a96, 0xd4a8fc45, 0xf9672ee3, 0x79a91e11, 0x26489cce, 0xe6ee6a80,
       0xdac0e93d, 0x1ef9d72b, 0x9b63b2bc, 0x25c689f9, 0x38bf291b, 0xdc9b9ad3, 0x4b5fc5e7, 0x392ac12a] := by
  decide +kernel

/-- The operands of V6. -/
def operandsV6 : State :=
  { State.reset with key := bytesOf 32 (counting 1 16 ++ counting 201 16), inp := bytesOf 16 (counting 101 16) }

/-- V6, the first and the last four bytes. -/
theorem test_core_operands :
    (ran 0x00000001 operandsV6).out.toList.take 4 = [0x45, 0x25, 0x44, 0x27] ∧
      (ran 0x00000001 operandsV6).out.toList.drop 60 = [0xea, 0x67, 0xf6, 0x4a] := by decide +kernel

/-- V10. -/
theorem test_hsal_zero_key :
    (ran 0x00000002 State.reset).out.toList =
      [0x35, 0x1f, 0x86, 0xfa, 0xa3, 0xb9, 0x88, 0x46, 0x8a, 0x85, 0x01, 0x22, 0xb6, 0x5b, 0x0a, 0xce,
       0xce, 0x9c, 0x48, 0x26, 0x80, 0x6a, 0xee, 0xe6, 0x3d, 0xe9, 0xc0, 0xda, 0x2b, 0xd7, 0xf9, 0x1e] ++
        List.replicate 32 0 := by decide +kernel

/-- V12, the first and the last four bytes of the result. -/
theorem test_hsal_operands :
    (ran 0x00000002 operandsV6).out.toList.take 4 = [0xe0, 0xac, 0xd3, 0xc5] ∧
      ((ran 0x00000002 operandsV6).out.toList.drop 28).take 5 = [0x54, 0x27, 0xac, 0x8d, 0x00] := by decide +kernel

/-! ### The stream commands -/

/-- V19: bytes 60 to 63 of block 0, then bytes 0 to 3 of block 1. -/
theorem test_s20ks_crosses_blocks :
    Dmem.readBytes (ran 0x00003C11 (buffers 0 0x100 8)).dmem 0x0FF 10 =
      [0x00, 0x2a, 0xc1, 0x2a, 0x39, 0xab, 0xea, 0x8a, 0x17, 0x00] := by decide +kernel

/-- V67: the destination leaves DMEM by one byte. -/
theorem test_s20ks_range : (ran 0x00000011 (buffers 0 0xFC0 65)).statusWord = 0x00000030 := by decide +kernel

/-- V21, in place. -/
theorem test_s20xor_in_place :
    Dmem.readBytes (ran 0x00000010 ((buffers 0x100 0x100 4).memWrite 0x100 [0xff, 0xff, 0xff, 0xff])).dmem 0x100 5 =
      [0x65, 0x68, 0x09, 0xa4, 0x00] := by decide +kernel

/-- V74 and V75: one shared byte is refused, adjacent buffers are not. -/
theorem test_s20xor_overlap :
    (ran 0x00000010 (buffers 0x100 0x10F 16)).statusWord = 0x00000040 ∧
      (ran 0x00000010 (buffers 0x100 0x110 16)).statusWord = 0x00000000 := by decide +kernel

/-- V15, the XS20 line, its first four bytes. -/
theorem test_xs20ks_zero_key :
    Dmem.readBytes (ran 0x00000013 (buffers 0 0x100 4)).dmem 0x100 5 = [0xba, 0x6e, 0x26, 0xdf, 0x00] := by
  decide +kernel

/-- V79: XS20.KS ignores SRC. -/
theorem test_xs20ks_ignores_src : (ran 0x00000013 (buffers 0x101 0x100 16)).statusWord = 0x00000000 := by
  decide +kernel

/-- The registers of V28 with "hello" at address 0. -/
def operandsV28 : State :=
  { (buffers 0 0x200 5).memWrite 0 [0x68, 0x65, 0x6c, 0x6c, 0x6f] with
    key := bytesOf 32 (counting 0 32), nonce := bytesOf 24 (counting 0 24) }

/-- V28: the ciphertext of "hello". -/
theorem test_xs20xor_hello :
    Dmem.readBytes (ran 0x00002012 operandsV28).dmem 0x200 6 = [0x36, 0x9a, 0x54, 0x23, 0xa8, 0x00] := by
  decide +kernel

/-- R66: the source range is checked for XS20.XOR as for S20.XOR (V71). -/
theorem test_xs20xor_range : (ran 0x00000012 (buffers 0xFFA 0 16)).statusWord = 0x00000030 := by decide +kernel

/-! ### Poly1305 -/

/-- The state with a Poly1305 key and a message at address 0. -/
def message (key msg : List Byte) : State :=
  { (buffers 0 0 (BitVec.ofNat 32 msg.length)).memWrite 0 msg with pkey := bytesOf 32 key }

/-- The key of V1. -/
def keyV1 : List Byte :=
  [0x85, 0xd6, 0xbe, 0x78, 0x57, 0x55, 0x6d, 0x33, 0x7f, 0x44, 0x52, 0xfe, 0x42, 0xd5, 0x06, 0xa8,
   0x01, 0x03, 0x80, 0x8a, 0xfb, 0x0d, 0xb2, 0xfd, 0x4a, 0xbf, 0xf6, 0xaf, 0x41, 0x49, 0xf5, 0x1b]

/-- The message of V1, "Cryptographic Forum Research Group". -/
def messageV1 : List Byte :=
  [0x43, 0x72, 0x79, 0x70, 0x74, 0x6f, 0x67, 0x72, 0x61, 0x70, 0x68, 0x69, 0x63, 0x20, 0x46, 0x6f, 0x72,
   0x75, 0x6d, 0x20, 0x52, 0x65, 0x73, 0x65, 0x61, 0x72, 0x63, 0x68, 0x20, 0x47, 0x72, 0x6f, 0x75, 0x70]

/-- The tag of V1. -/
def tagV1 : List Byte :=
  [0xa8, 0x06, 0x1d, 0xc1, 0x30, 0x51, 0x36, 0xc6, 0xc2, 0x2b, 0x8b, 0xaf, 0x0c, 0x01, 0x27, 0xa9]

/-- V1. -/
theorem test_auth_v1 : (ran 0x00000020 (message keyV1 messageV1)).tag.toList = tagV1 := by decide +kernel

/-- V41: reduction mod 2^130 - 5, and the carry out of bit 127 dropped. -/
theorem test_auth_carry_dropped :
    (ran 0x00000020 (message ([0x01] ++ List.replicate 15 0 ++ List.replicate 16 0xff)
      (List.replicate 32 0xff))).tag.toList = [0x02] ++ List.replicate 15 0 := by decide +kernel

/-- V39 by the limb procedure: the accumulator is P before freeze. -/
theorem test_limbs_freeze :
    (limbTag (List.replicate 16 0xff ++ [0xfc] ++ List.replicate 15 0xff) (bytesOf 32 [0x01])).toList =
      List.replicate 16 0 := by decide +kernel

/-- V47, row 1: EQ = 1, and TAG is zero. -/
theorem test_vfy_accepts :
    let t := ran 0x00000021 { message keyV1 messageV1 with tagx := bytesOf 16 tagV1, tag := bytesOf 16 tagV1 }
    t.statusWord = 0x00000001 ∧ t.tag.toList = List.replicate 16 0 := by decide +kernel

/-- V47, row 3: bit 7 of the last byte flipped. -/
theorem test_vfy_rejects :
    let t := ran 0x00000021 { message keyV1 messageV1 with tagx := bytesOf 16 (tagV1.take 15 ++ [0x29]) }
    t.statusWord = 0x00000000 ∧ t.tag.toList = List.replicate 16 0 := by decide +kernel

/-! ### The comparator -/

/-- V53: byte 16 differs, and CEQ16 ignores it. -/
theorem test_ceq16_ignores_byte16 :
    (ran 0x00000030 { State.reset with ca := bytesOf 32 (List.replicate 16 0 ++ [0x01]) }).statusWord = 1 := by
  decide +kernel

/-- V57: two bytes differ by the same bit. -/
theorem test_ceq16_two_bytes :
    (ran 0x00000030 { State.reset with ca := bytesOf 32 [0x01, 0x01] }).statusWord = 0 := by decide +kernel

/-- V54: byte 31 differs. -/
theorem test_ceq32_byte31 :
    (ran 0x00000031 { State.reset with ca := bytesOf 32 (List.replicate 31 0 ++ [0x01]) }).statusWord = 0 := by
  decide +kernel

/-- V85: SRC, DST and LEN are ignored. -/
theorem test_ceq32_ignores_buffers :
    (ran 0x00000031 (buffers 0xFFFFFFFF 0xFFFFFFFF 0xFFFFFFFF)).statusWord = 1 := by decide +kernel

/-! ### Control, lock and window -/

/-- V89. -/
theorem test_nop : ran 0x00000000 State.reset = State.reset := by decide +kernel

/-- V91: a locked NOP too clears EQ and keeps ERR (R237). -/
theorem test_nop_locked : (ran 0x00000000 { lockedState with statusEq := true }).statusWord = 0x00000030 := by
  decide +kernel

/-- V97: SRST runs while locked; registers at reset values. -/
theorem test_srst_locked :
    ran 0x0000007F { lockedState with key := bytesOf 32 (counting 1 32), src := 7 } = State.reset := by decide +kernel

/-- V93: SRST with bit 8 set does not unlock. -/
theorem test_srst_reserved_bit_locked : (ran 0x0000017F lockedState).statusWord = 0x00000030 := by decide +kernel

/-- V94: a write of any value to STATUS unlocks. -/
theorem test_status_write :
    (stepped (lockedState.setPending [.regWrite 4 0x004 0xFFFFFFFF])).statusWord = 0 := by decide +kernel

/-- V100, V102 and V106. -/
theorem test_window_reset_reads :
    ([0x000, 0x050, 0x054, 0x058, 0x05C, 0x018, 0x078, 0x140, 0xFFC] : List (BitVec 12)).map State.reset.readWindow =
      [0x58533230, 0x61707865, 0x3320646E, 0x79622D32, 0x6B206574, 0, 0, 0, 0] := by decide +kernel

/-- V103. -/
theorem test_window_little_endian :
    (stepped (fresh (.regWrite 4 0x020 0x04030201))).key.toList = [1, 2, 3, 4] ++ List.replicate 28 0 := by
  decide +kernel

/-- V104: OUT is read-only. -/
theorem test_window_out_read_only : stepped (fresh (.regWrite 4 0x080 0x12345678)) = State.reset := by decide +kernel

/-- V107. -/
theorem test_window_nonce_last_word :
    (stepped (fresh (.regWrite 4 0x074 0xAABBCCDD))).nonce.toList.drop 20 = [0xdd, 0xcc, 0xbb, 0xaa] := by
  decide +kernel

/-! ### Witnesses: the hypotheses of each obligation hold together, and each clause has its case -/

theorem witness_DecodeEncodeRoundTrip :
    (Instr.core).wellFormed = true ∧ (Instr.s20Xor 0).wellFormed = true ∧ (Instr.xs20Ks 63).wellFormed = true := by
  decide

theorem witness_DecodeSelectsTheMatchingRow :
    decode 0x00003F12 = .command (.xs20Xor 63) ∧ 0x00003F12 &&& rowMask (.xs20Xor 63) = 0x00000012 ∧
      decode 0x00000101 ≠ .command .core ∧ 0x00000101 &&& rowMask .core ≠ 0x00000001 := by decide

/-- The last decimal and hex offsets that assemble, and the first that do not. -/
theorem witness_AssembledTextDecodes :
    ([6, 3] : List Nat) ≠ [] ∧ (∀ d ∈ ([6, 3] : List Nat), d < 10) ∧
      ([6, 3] : List Nat).foldl (fun v d => 10 * v + d) 0 = 63 ∧ [6, 3].map Nat.digitChar = ['6', '3'] ∧
      ([6, 4] : List Nat).foldl (fun v d => 10 * v + d) 0 = 64 ∧ (∀ d ∈ ([3, 15] : List Nat), d < 16) ∧
      ([3, 15] : List Nat).foldl (fun v d => 16 * v + d) 0 = 63 ∧ [3, 15].map Nat.digitChar = ['3', 'f'] ∧
      ([4, 0] : List Nat).foldl (fun v d => 16 * v + d) 0 = 64 ∧ ' ' ∉ ['5'] ∧ ';' ∉ ['5'] := by decide

theorem witness_StepRunsDecodedCommand :
    (fresh (.regWrite 4 0x008 0x00002012)).pending = .regWrite 4 0x008 0x00002012 :: [] ∧
      decode 0x00002012 = .command (.xs20Xor 32) := by decide

theorem witness_UnknownOpcodeRefused :
    (fresh (.regWrite 4 0x008 0xFFFFFFFF)).pending = .regWrite 4 0x008 0xFFFFFFFF :: [] ∧
      (fresh (.regWrite 4 0x008 0xFFFFFFFF)).statusErr = 0 ∧
      (0xFFFFFFFF : Word).toNat % 256 ∉ opcodesN ∧ (0xFFFFFFFF : Word).toNat % 256 ∉ opcodesS ∧
      (0x00000003 : Word).toNat % 256 ∉ opcodesN ∧ (0x00000014 : Word).toNat % 256 ∉ opcodesS := by decide

theorem witness_ReservedBitsRefused :
    (fresh (.regWrite 4 0x008 0x00004010)).pending = .regWrite 4 0x008 0x00004010 :: [] ∧
      (fresh (.regWrite 4 0x008 0x00004010)).statusErr = 0 ∧
      (0x00004010 : Word).toNat % 256 ∈ opcodesS ∧ (0x00004010 : Word).toNat / 2 ^ 14 ≠ 0 ∧
      (0x00000101 : Word).toNat % 256 ∈ opcodesN ∧ (0x00000101 : Word).toNat / 2 ^ 8 ≠ 0 ∧
      (0x00003F10 : Word).toNat / 2 ^ 14 = 0 := by decide

theorem witness_LockedBlockRunsOnlySrst :
    lockedState.statusErr ≠ 0 ∧
      (lockedState.setPending [.regWrite 4 0x008 0x0000017F]).pending = .regWrite 4 0x008 0x0000017F :: [] ∧
      (0x0000017F : Word) ≠ 0x0000007F ∧
      (lockedState.setPending [.regWrite 4 0x008 0x0000007F]).pending = .regWrite 4 0x008 0x0000007F :: [] ∧
      (lockedState.setPending [.regWrite 4 0x004 0]).pending = .regWrite 4 0x004 0 :: [] ∧
      (lockedState.setPending [.reset]).pending = .reset :: [] := by decide

theorem witness_StatusWriteClearsEqAndErr :
    (lockedState.setPending [.regWrite 4 0x004 0xFFFFFFFF]).pending = .regWrite 4 0x004 0xFFFFFFFF :: [] := by decide

theorem witness_RefusedCommandHasNoPartialEffect :
    (fresh (commandTxn 0x00000003)).pending = .regWrite 4 0x008 0x00000003 :: [] ∧
      step (fresh (commandTxn 0x00000003)) = .next (stepped (fresh (commandTxn 0x00000003))) ∧
      (stepped (fresh (commandTxn 0x00000003))).statusErr ≠ 0 ∧
      (lockedState.setPending [commandTxn 0x00000001]).statusErr ≠ 0 ∧
      (stepped (lockedState.setPending [commandTxn 0x00000001])).statusErr ≠ 0 :=
  ⟨by decide, step_eq_stepped (by decide +kernel), by decide +kernel, by decide, by decide +kernel⟩

theorem witness_BufferOutsideDmemRefused :
    (buffers 0xFC0 0xFC0 65).statusErr = 0 ∧ (buffers 0xFC0 0xFC0 65).len ≠ 0 ∧
      (buffers 0xFC0 0xFC0 65).dmemBytes < 0xFC0 + 65 ∧
      (buffers 0xFFFFFFFF 0xFC0 64).len ≠ 0 ∧ 0xFC0 + 64 ≤ (buffers 0xFFFFFFFF 0xFC0 64).dmemBytes ∧
      (buffers 0xFC0 0xFFFFFFFF 64).len ≠ 0 ∧ 0xFC0 + 64 ≤ (buffers 0xFC0 0xFFFFFFFF 64).dmemBytes := by decide

theorem witness_PartlyOverlappingBuffersRefused :
    (buffers 0x100 0x10F 16).statusErr = 0 ∧ (buffers 0x100 0x10F 16).len ≠ 0 ∧
      0x10F + 16 ≤ (buffers 0x100 0x10F 16).dmemBytes ∧ (buffers 0x100 0x10F 16).src ≠ 0x10F ∧
      ((0x100 : Int) - 0x10F).natAbs < 16 ∧ 16 ≤ ((0x100 : Int) - 0x110).natAbs ∧
      (buffers 0x100 0x100 16).src = (buffers 0x100 0x100 16).dst := by decide

theorem witness_ZeroLengthIsChecklessNoOp :
    (buffers 0xFFFFFFFF 0xFFFFFFFF 0).statusErr = 0 ∧ (buffers 0xFFFFFFFF 0xFFFFFFFF 0).len = 0 := by decide

theorem witness_NopChangesNothing :
    State.reset.statusErr = 0 ∧ lockedState.statusErr ≠ 0 ∧ (0x00000100 : Word).toNat % 256 = 0 ∧
      (0x00000100 : Word) ≠ 0 := by decide

/-- For CoreAddsTheInputWordsBack, HsalExtractsEightWords, Ceq16ComparesTheFirstBytes and Ceq32ComparesAllBytes. -/
theorem witness_notLocked : State.reset.statusErr = 0 := by decide

/-- For S20XorAppliesTheKeystream and Xs20XorAppliesTheKeystream: in place, adjacent, and with no bytes at addresses
outside DMEM. -/
theorem witness_xorReady :
    (buffers 0x100 0x100 16).xorReady ∧ (buffers 0x100 0x110 16).xorReady ∧ (buffers 0xFF0 0xFE0 16).xorReady ∧
      (buffers 0xFFFFFFFF 0xFFFFFFFE 0).xorReady := by decide

/-- For S20KsWritesTheKeystream and Xs20KsWritesTheKeystream: the destination ends with DMEM, and SRC does not matter. -/
theorem witness_ksReady : (buffers 0xFFFFFFF0 0xFC0 64).ksReady ∧ (buffers 0 0xFFFFFFFF 0).ksReady := by decide

/-- For AuthWritesTheCanonicalTag and VerifySetsEqExactlyForTheTag: the message ends with DMEM, and DST does not
matter. -/
theorem witness_polyReady : (buffers 0xFA0 0xFFFFFFFF 96).polyReady ∧ (buffers 0xFFFFFFFF 0 0).polyReady := by decide

theorem witness_CommandsWriteOnlyWhatTheyMay :
    exec .core State.reset = .next (after .core State.reset) ∧ Instr.core ≠ .srst ∧
      exec .ceq16 lockedState = .next (after .ceq16 lockedState) ∧ lockedState.statusErr ≠ 0 ∧
      (after .ceq16 lockedState).statusErr ≠ 0 :=
  ⟨exec_eq_after _ _, by decide, exec_eq_after _ _, by decide, by decide +kernel⟩

theorem witness_EqWrittenOnlyByComparisons :
    exec .nop State.reset = .next (after .nop State.reset) ∧ Instr.nop ≠ .srst ∧
      (after .nop State.reset).statusErr = 0 ∧ Instr.nop ≠ .ceq16 ∧ Instr.nop ≠ .ceq32 ∧ Instr.nop ≠ .p1305Vfy ∧
      exec .nop lockedState = .next (after .nop lockedState) ∧ (after .nop lockedState).statusErr ≠ 0 :=
  ⟨exec_eq_after _ _, by decide, by decide +kernel, by decide, by decide, by decide, exec_eq_after _ _,
    by decide +kernel⟩

theorem witness_EqNeverReadByACommand :
    exec .p1305Vfy (buffers 0 0 16) = .next (after .p1305Vfy (buffers 0 0 16)) := exec_eq_after _ _

theorem witness_S20IgnoresConstInAndUpperNonce :
    slice (bytesOf 24 (List.replicate 8 0 ++ [0x01])) 0 8 = slice State.reset.nonce 0 8 ∧
      bytesOf 24 (List.replicate 8 0 ++ [0x01]) ≠ State.reset.nonce := by decide +kernel

/-- The key and one more register of the state hold ones. -/
def onesKey : State := { State.reset with key := bytesOf 32 (List.replicate 32 0x01) }

/-- One case for each way KEY can change. -/
theorem witness_KeyChangesOnlyByHostOrReset :
    step (fresh (.regWrite 4 0x03C 1)) = .next (stepped (fresh (.regWrite 4 0x03C 1))) ∧
      (stepped (fresh (.regWrite 4 0x03C 1))).key ≠ (fresh (.regWrite 4 0x03C 1)).key ∧
      step (onesKey.setPending [commandTxn 0x7F]) = .next (stepped (onesKey.setPending [commandTxn 0x7F])) ∧
      (stepped (onesKey.setPending [commandTxn 0x7F])).key ≠ onesKey.key ∧
      step (onesKey.setPending [.reset]) = .next (stepped (onesKey.setPending [.reset])) ∧
      (stepped (onesKey.setPending [.reset])).key ≠ onesKey.key ∧
      step (onesKey.setPending [.resetDuring 1]) = .next (stepped (onesKey.setPending [.resetDuring 1])) ∧
      (stepped (onesKey.setPending [.resetDuring 1])).key ≠ onesKey.key :=
  ⟨step_eq_stepped (by decide +kernel), by decide +kernel, step_eq_stepped (by decide +kernel), by decide +kernel,
    step_eq_stepped (by decide +kernel), by decide +kernel, step_eq_stepped (by decide +kernel), by decide +kernel⟩

/-- A host write of the last byte, and a stream command. -/
theorem witness_DmemByteChangesOnlyWhereAllowed :
    step (fresh (.memWrite 0xFFF 1)) = .next (stepped (fresh (.memWrite 0xFFF 1))) ∧
      Dmem.read (stepped (fresh (.memWrite 0xFFF 1))).dmem 0xFFF ≠ Dmem.read (fresh (.memWrite 0xFFF 1)).dmem 0xFFF ∧
      step ((buffers 0 0x100 1).setPending [commandTxn 0x11]) =
        .next (stepped ((buffers 0 0x100 1).setPending [commandTxn 0x11])) ∧
      Dmem.read (stepped ((buffers 0 0x100 1).setPending [commandTxn 0x11])).dmem 0x100 ≠
        Dmem.read (buffers 0 0x100 1).dmem 0x100 :=
  ⟨step_eq_stepped (by decide +kernel), by decide +kernel, step_eq_stepped (by decide +kernel), by decide +kernel⟩

theorem witness_DmemSizeNeverChanges : step State.reset = .next State.reset := step_idle rfl

/-- The invariant at reset and in a locked state, and a step from it. -/
theorem witness_InvariantKeptByStep :
    State.reset.Inv ∧ lockedState.Inv ∧ step State.reset = .next State.reset :=
  ⟨by decide, by decide, step_idle rfl⟩

theorem witness_InvariantHoldsAtLaunch :
    4096 ≤ 2 ^ 32 ∧ Dmem.wf [(0, 0x01), (4095, 0xff)] ∧ Dmem.below [(0, 0x01), (4095, 0xff)] 4096 ∧
      Dmem.wf [] ∧ Dmem.below [] (2 ^ 32) := by decide

theorem witness_HardwareResetSetsRegisters : (onesKey.setPending [.reset]).pending = .reset :: [] := by decide

/-- A keystream command cut short. -/
theorem witness_ResetDuringCommandLeavesOldOrNewBytes :
    ((buffers 0 0x100 8).setPending [.resetDuring 0x11]).pending = .resetDuring 0x11 :: [] ∧
      ∃ u, commandWrite 0x11 { (buffers 0 0x100 8).setPending [.resetDuring 0x11] with pending := [] } = .next u :=
  ⟨by decide, commandWrite_next _ _⟩

/-- Both ends of each range of writable offsets, and the first and the last word of the registers. -/
theorem witness_WindowWordsReadBack :
    (∀ off ∈ ([0x00C, 0x014, 0x020, 0x074, 0x0C0, 0x0DC, 0x0F0, 0x13C] : List (BitVec 12)), writableOffset off) ∧
      (fresh (.regWrite 4 0x13C 1)).pending = .regWrite 4 0x13C 1 :: [] ∧ (0 : Nat) < 4 ∧ 3 < 4 ∧ 5 < 6 ∧ 7 < 8 :=
  ⟨by simp [writableOffset], rfl, by decide⟩

/-- Both ends of each range of read-only and of reserved offsets. -/
theorem witness_ReadOnlyAndReservedWritesIgnored :
    (∀ off ∈ ([0x000, 0x080, 0x0BC, 0x0E0, 0x0EC] : List (BitVec 12)), readOnlyOffset off) ∧
      (∀ off ∈ ([0x018, 0x01C, 0x078, 0x07C, 0x140, 0xFFC] : List (BitVec 12)), reservedOffset off) ∧
      (fresh (.regWrite 4 0xFFC 1)).pending = .regWrite 4 0xFFC 1 :: [] :=
  ⟨by simp [readOnlyOffset], by simp [reservedOffset], rfl⟩

theorem witness_HostReadsYieldAndChangeNothing :
    (0xFFC : BitVec 12).toNat % 4 = 0 ∧ (fresh (.regRead 4 0xFFC)).pending = .regRead 4 0xFFC :: [] ∧
      4095 < (fresh (.memRead 4095)).dmemBytes ∧ (fresh (.memRead 4095)).pending = .memRead 4095 :: [] ∧
      (0 : Nat) < 4 ∧ 3 < 4 ∧ 5 < 6 ∧ 7 < 8 ∧ 15 < 16 := by decide

theorem witness_HostByteWriteChangesOneByte :
    4095 < (fresh (.memWrite 4095 0)).dmemBytes ∧ (fresh (.memWrite 4095 0)).pending = .memWrite 4095 0 :: [] := by
  decide

theorem witness_HostAccessesWithoutMeaningStop :
    (2 : Nat) ≠ 4 ∧ (0x022 : BitVec 12).toNat % 4 ≠ 0 ∧ (fresh (.regWrite 2 0 0)).pending = .regWrite 2 0 0 :: [] ∧
      (fresh (.regRead 4 0x022)).pending = .regRead 4 0x022 :: [] ∧ (fresh (.memRead 4096)).dmemBytes ≤ 4096 ∧
      (fresh (.memRead 4096)).pending = .memRead 4096 :: [] ∧
      (fresh (.memWrite 4096 0)).pending = .memWrite 4096 0 :: [] := by decide

/-- No bytes, half of a register, and the whole of the largest and the smallest register. -/
theorem witness_LoadBytesFillsTheRegister :
    ([] : List Byte).length % 4 = 0 ∧ (counting 0 8).length % 4 = 0 ∧ (counting 0 8).length ≤ 16 ∧
      (counting 0 32).length % 4 = 0 ∧ (counting 0 32).length ≤ 32 ∧ (counting 0 16).length ≤ 16 ∧
      (counting 0 24).length ≤ 24 := by decide

/-- The first and the last word of a register, and an index beside it. -/
theorem witness_WordViewIsLittleEndian :
    4 * 0 + 3 < 4 ∧ 4 * 7 + 3 < 32 ∧ (0 : Nat) < 4 ∧ (3 : Nat) < 4 ∧ 27 / 4 ≠ 7 ∧ 32 / 4 ≠ 7 := by decide

theorem witness_SegmentProcedureGivesTheStream :
    (0 : Nat) ≤ 63 ∧ (63 : Nat) ≤ 63 ∧ ([0x01, 0x02] : List Byte).length = 2 := by decide

theorem witness_SplitStreamIsAWindow : (List.replicate 32 (0x00 : Byte)).length = 32 := by decide

theorem witness_KsIsXorOfZeroBytes :
    (buffers 0 0x100 64).xorReady ∧
      ∀ i, i < (buffers 0 0x100 64).len.toNat → Dmem.read (buffers 0 0x100 64).dmem ((buffers 0 0x100 64).src.toNat + i) = 0 :=
  ⟨by decide, fun _ _ => rfl⟩

/-- Encrypt in place, then decrypt in place (V21). -/
theorem witness_XorOfItsOwnOutputRestoresTheSource :
    let s := (buffers 0x100 0x100 4).memWrite 0x100 [0xff, 0xff, 0xff, 0xff]
    let t := after (.s20Xor 0) s
    let s' : State := { t with src := s.dst, dst := 0x100 }
    Instr.s20Xor 0 ∈ [Instr.s20Xor 0, .xs20Xor 0] ∧ s.xorReady ∧ exec (.s20Xor 0) s = .next t ∧ s'.xorReady ∧
      exec (.s20Xor 0) s' = .next (after (.s20Xor 0) s') ∧ s.src = s.dst ∧ (0x100 : Word) = s.dst :=
  ⟨by decide, by decide +kernel, exec_eq_after _ _, by decide +kernel, exec_eq_after _ _, by decide, by decide⟩

/-- Two messages under one key and nonce (V25). -/
theorem witness_NonceReuseLeaksTheXor :
    let s1 := (buffers 0 0x100 16).memWrite 0 [0x61]
    let s2 := (buffers 0 0x200 16).memWrite 0 [0x72]
    Instr.xs20Xor 63 ∈ [Instr.s20Xor 63, .xs20Xor 63] ∧ s1.xorReady ∧ s2.xorReady ∧ s1.key = s2.key ∧
      s1.nonce = s2.nonce ∧ s1.len = s2.len ∧ exec (.xs20Xor 63) s1 = .next (after (.xs20Xor 63) s1) ∧
      exec (.xs20Xor 63) s2 = .next (after (.xs20Xor 63) s2) :=
  ⟨by decide, by decide +kernel, by decide +kernel, rfl, rfl, rfl, exec_eq_after _ _, exec_eq_after _ _⟩

theorem witness_Xs20IsHsalThenS20 :
    let s := buffers 0 0x100 64
    let s' : State := { s with inp := slice s.nonce 0 16, const := Config.sigma }
    s.ksReady ∧ exec .hsal s' = .next (after .hsal s') ∧ slice s.nonce 0 8 = slice s.nonce 16 8 :=
  ⟨by decide, exec_eq_after _ _, by decide +kernel⟩

/-- The key of V32, which clamps to r = 0, and the zero key. -/
theorem witness_ZeroMultiplierTagIsS :
    polyR (bytesOf 32 [0, 0, 0, 0xf0, 0x03, 0, 0, 0xf0, 0x03, 0, 0, 0xf0, 0x03, 0, 0, 0xf0, 0x01]) = 0 ∧
      polyR (bytesOf 32 []) = 0 := by decide +kernel

/-- The last offset of the window, the last bytes of DMEM, and no byte. -/
theorem witness_HostStatementsReachTheBlock :
    (Reg.len, 0x014) ∈ mapBases ∧ 0xFE8 % 4 = 0 ∧ 0x014 + 0xFE8 < 0x1000 ∧ 4080 + 16 ≤ State.reset.dmemBytes ∧
      (0 = 0 ∨ 5000 + 0 ≤ State.reset.dmemBytes) ∧ (Instr.s20Ks 63).off ≤ 63 := by decide

/-- `if rd STATUS == 1`, with both outcomes of the test. -/
theorem witness_HostConditionalTakesOnePart :
    (Reg.status, 0x004) ∈ mapBases ∧ 0 % 4 = 0 ∧ 0x004 + 0 < 0x1000 ∧
      expandProgram (.ofList [.clr]) = some [.regWrite 4 0x004 0] ∧ expandProgram .done = some [] ∧
      { State.reset with statusEq := true }.readWindow 0x004 = 1 ∧ State.reset.readWindow 0x004 ≠ 1 := by
  decide +kernel

end Sys2Proof.Tests
end

section
/-!
PROOFS. The family 00_scope: `le32`, `st32` and `st_n` as little-endian numbers (R10), a word put into a byte register
(R41), and the size of DMEM, which no step changes (R8, R61).
-/

namespace Sys2Proof.Machine

/-! ### Bytes and words as little-endian numbers (R10) -/

/-- Byte j of `st32(w)` is the digit of w of weight 256^j (R10). -/
theorem toNat_st32Byte (w : Word) (j : Nat) : (st32Byte w j).toNat = w.toNat / 256 ^ j % 256 := by
  have hp : (256 : Nat) ^ j = 2 ^ (8 * j) := by rw [Nat.pow_mul]
  rw [st32Byte, BitVec.extractLsb'_toNat, Nat.shiftRight_eq_div_pow, hp]

/-- Four bytes make a number below 2^32, so `le32` does not reduce it (R10). -/
theorem toNat_le32 (b0 b1 b2 b3 : Byte) :
    (le32 b0 b1 b2 b3).toNat = b0.toNat + 2 ^ 8 * b1.toNat + 2 ^ 16 * b2.toNat + 2 ^ 24 * b3.toNat := by
  have h0 := b0.isLt
  have h1 := b1.isLt
  have h2 := b2.isLt
  have h3 := b3.isLt
  rw [le32, BitVec.toNat_ofNat, Nat.mod_eq_of_lt (by omega)]

/-- `st32(le32(B)) = B` (R10), the converse of `le32_st32Byte`. -/
theorem st32Byte_le32 (b0 b1 b2 b3 : Byte) :
    st32Byte (le32 b0 b1 b2 b3) 0 = b0 ∧ st32Byte (le32 b0 b1 b2 b3) 1 = b1 ∧
      st32Byte (le32 b0 b1 b2 b3) 2 = b2 ∧ st32Byte (le32 b0 b1 b2 b3) 3 = b3 := by
  have h0 := b0.isLt
  have h1 := b1.isLt
  have h2 := b2.isLt
  have h3 := b3.isLt
  refine ⟨?_, ?_, ?_, ?_⟩ <;>
    (apply BitVec.eq_of_toNat_eq; rw [toNat_st32Byte, toNat_le32]; omega)

/-- Byte j of a word put at k stands at index 4k + j (R41). -/
theorem getD_putWord_word {n : Nat} (b : Bytes n) {k j : Nat} (w : Word) (hj : j < 4) (h : 4 * k + j < n) :
    (putWord b k w).getD (4 * k + j) 0 = st32Byte w j := by
  rw [getD_of_lt _ _ h, getElem_putWord, if_pos (by omega), show (4 * k + j) % 4 = j by omega]

/-- A word put at k leaves every byte outside word k, and the default beyond the end (R41). -/
theorem getD_putWord_of_ne {n : Nat} (b : Bytes n) {k i : Nat} (w : Word) (h : i / 4 ≠ k) :
    (putWord b k w).getD i 0 = b.getD i 0 := by
  by_cases hi : i < n
  · rw [getD_of_lt _ _ hi, getD_of_lt _ _ hi, getElem_putWord, if_neg h]
  · rw [getD_of_le _ _ (by omega), getD_of_le _ _ (by omega)]

/-- Settles O45: the first half is `st32Byte_le32`; the second is what `putWord` leaves in word k and outside it. -/
theorem wordViewIsLittleEndian : Obligations.WordViewIsLittleEndian := by
  unfold Obligations.WordViewIsLittleEndian
  refine ⟨fun b0 b1 b2 b3 => ?_, fun n b k w hk => ⟨wordAt_putWord_self b w hk, fun j hj => ?_, fun i hi => ?_⟩⟩
  · obtain ⟨h0, h1, h2, h3⟩ := st32Byte_le32 b0 b1 b2 b3
    rw [h0, h1, h2, h3]
  · rw [getD_putWord_word b w hj (by omega), toNat_st32Byte]
  · exact getD_putWord_of_ne b w hi

/-- The n lowest base-256 digits of v, lowest first, are the number v mod 256^n. -/
theorem le_ofFn_digits (n v : Nat) :
    le (List.ofFn fun i : Fin n => BitVec.ofNat 8 (v / 256 ^ i.val)) = v % 256 ^ n := by
  induction n generalizing v with
  | zero => simp [le, Nat.mod_one]
  | succ n ih =>
    have hshift (i : Nat) : v / 256 ^ (i + 1) = v / 256 / 256 ^ i := by
      rw [Nat.pow_succ', Nat.div_div_eq_div_mul]
    calc le (List.ofFn fun i : Fin (n + 1) => BitVec.ofNat 8 (v / 256 ^ i.val))
        = v % 256 + 256 * le (List.ofFn fun i : Fin n => BitVec.ofNat 8 (v / 256 / 256 ^ i.val)) := by
          simp [List.ofFn_succ, le, hshift]
      _ = v % 256 + 256 * (v / 256 % 256 ^ n) := by rw [ih]
      _ = v % 256 ^ (n + 1) := by rw [Nat.pow_succ', Nat.mod_mul]

/-- The bytes of `st_n(v)` are the n lowest base-256 digits of v (R10). -/
theorem toList_stBytes (n v : Nat) :
    (stBytes n v).toList = List.ofFn fun i : Fin n => BitVec.ofNat 8 (v / 256 ^ i.val) := by
  refine List.ext_getElem (by simp) fun i hi _ => ?_
  rw [Vector.length_toList] at hi
  rw [Vector.getElem_toList, getElem_stBytes _ _ _ hi, List.getElem_ofFn]

/-- Settles O46, by induction on the number of bytes (`le_ofFn_digits`). -/
theorem storedNumberReadsBack : Obligations.StoredNumberReadsBack := by
  unfold Obligations.StoredNumberReadsBack
  intro n v
  rw [toList_stBytes, le_ofFn_digits, Nat.pow_mul]

/-! ### What a command and a transaction leave of the operands and the size of DMEM -/

/-- A completing command writes none of the operand registers, the size of DMEM and the host's own fields (R42). -/
theorem Completed.sameOperands {i : Instr} {s t : State} (h : Completed i s t) : SameOperands s t := by
  cases h <;> simp [SameOperands]

/-- Whatever a command other than SRST does, it leaves what `SameOperands` lists (R42, R236, R237). -/
theorem CommandEnd.sameOperands {i : Instr} {s t : State} (h : CommandEnd i s t) : SameOperands s t := by
  cases h with
  | locked _ => simp [SameOperands]
  | refused _ c => simp [SameOperands]
  | completed _ ht => exact ht.sameOperands

/-- The size of DMEM is among what `SameOperands` lists. -/
theorem SameOperands.dmemBytes_eq {s t : State} (h : SameOperands s t) : t.dmemBytes = s.dmemBytes := by
  obtain ⟨-, -, -, -, -, -, -, -, -, -, -, hsize, -⟩ := h
  exact hsize

/-- No write to CMD changes the size of DMEM, SRST and a refused word included. -/
theorem commandWrite_dmemBytes {w : Word} {s t : State} (h : commandWrite w s = .next t) :
    t.dmemBytes = s.dmemBytes := by
  rcases commandWrite_cases h with ⟨-, rfl⟩ | ⟨i, -, -, he⟩ | ⟨-, c, rfl⟩
  · exact State.resetRegisters_dmemBytes s
  · exact he.sameOperands.dmemBytes_eq
  · exact State.refuse_dmemBytes s c

/-- No transaction of the host changes the size of DMEM. -/
theorem TxnEnd.dmemBytes_eq {s t : State} {x : HostTxn} (h : TxnEnd s x t) : t.dmemBytes = s.dmemBytes := by
  cases h with
  | wrote off w r k ha hr hc => exact State.writeReg_dmemBytes s r k w
  | command w h => exact commandWrite_dmemBytes h
  | ignored | tested => rfl
  | read | byteWritten | byteRead | reset | aborted | testedNot | skipped => simp [State.skipPending_eq]

/-- Settles O33: by `step_cases` a step is idle or ends a transaction, and no transaction changes the size. -/
theorem dmemSizeNeverChanges : Obligations.DmemSizeNeverChanges := by
  unfold Obligations.DmemSizeNeverChanges
  intro s t h
  rcases step_cases h with ⟨-, rfl⟩ | ⟨x, rest, -, hx⟩
  · rfl
  · exact hx.dmemBytes_eq

end Sys2Proof.Machine
end

section
/-!
PROOFS. The family 10_state: what a command may write (R35, R36, R42), what changes KEY (R21, R44), the words of the
register window (R30 to R34, R41), and the state after power-on (R43).
-/

namespace Sys2Proof.Machine

/-! ### What a command may write (R35, R36, R42) -/

/-- Only CORE and HSAL write OUT (R42). -/
theorem Completed.out_eq {i : Instr} {s t : State} (h : Completed i s t) (hcore : i ≠ .core) (hhsal : i ≠ .hsal) :
    t.out = s.out := by
  cases h with
  | out b hi => exact absurd hi (not_or.2 ⟨hcore, hhsal⟩)
  | unchanged | eq | tag | verify | stream => rfl

/-- Only P1305.AUTH and P1305.VFY write TAG (R42). -/
theorem Completed.tag_eq {i : Instr} {s t : State} (h : Completed i s t) (hauth : i ≠ .p1305Auth)
    (hvfy : i ≠ .p1305Vfy) : t.tag = s.tag := by
  cases h with
  | tag b hi => exact absurd hi hauth
  | verify e hi => exact absurd hi hvfy
  | unchanged | out | eq | stream => rfl

/-- Only CEQ16, CEQ32 and P1305.VFY write EQ (R35). -/
theorem Completed.statusEq_eq {i : Instr} {s t : State} (h : Completed i s t) (h16 : i ≠ .ceq16) (h32 : i ≠ .ceq32)
    (hvfy : i ≠ .p1305Vfy) : t.statusEq = s.statusEq := by
  cases h with
  | eq e hi => exact absurd hi (not_or.2 ⟨h16, h32⟩)
  | verify e hi => exact absurd hi hvfy
  | unchanged | out | tag | stream => rfl

/-- Only the stream commands write DMEM (R71). -/
theorem Completed.dmem_eq {i : Instr} {s t : State} (h : Completed i s t) (hi : isStream i = false) :
    t.dmem = s.dmem := by
  cases h with
  | stream bs hstream => exact absurd (hstream.symm.trans hi) nofun
  | unchanged | out | eq | tag | verify => rfl

/-- A completing command leaves every byte outside the destination buffer (R71). -/
theorem Completed.sameOutside {i : Instr} {s t : State} (h : Completed i s t) :
    SameOutside s.dst.toNat s.len.toNat s.dmem t.dmem := by
  cases h with
  | stream bs _ hlen _ => exact fun a ha => Dmem.read_writeBytes_outside _ _ _ (hlen ▸ ha)
  | unchanged | out | eq | tag | verify => exact fun _ _ => rfl

/-- A command other than SRST writes STATUS alone, with ERR not 0 and EQ 0 and an earlier ERR kept, or it completes on
a block that is not locked (R36, R236, R237). -/
theorem CommandEnd.refused_or_completed {i : Instr} {s t : State} (h : CommandEnd i s t) :
    (∃ e, e ≠ 0 ∧ (s.statusErr ≠ 0 → e = s.statusErr) ∧ t = { s with statusErr := e, statusEq := false }) ∨
      (s.statusErr = 0 ∧ Completed i s t) := by
  cases h with
  | locked hl => exact .inl ⟨s.statusErr, hl, fun _ => rfl, rfl⟩
  | refused h0 c => exact .inl ⟨c.err, c.err_ne_zero, fun hl => absurd h0 hl, State.refuse_of_unlocked h0 c⟩
  | completed h0 ht => exact .inr ⟨h0, ht⟩

/-- Settles O27: a refused command writes STATUS alone; of a completing one, one lemma for each piece of the state says
which commands write it. -/
theorem commandsWriteOnlyWhatTheyMay : Obligations.CommandsWriteOnlyWhatTheyMay := by
  unfold Obligations.CommandsWriteOnlyWhatTheyMay
  intro i s t h hs
  have hend := exec_cases h hs
  have hops := hend.sameOperands
  rcases hend.refused_or_completed with ⟨e, -, hkept, rfl⟩ | ⟨h0, hc⟩
  · exact ⟨hops, fun _ _ => rfl, fun _ _ => rfl, fun _ => rfl, fun _ _ => rfl, hkept, fun _ => ⟨rfl, rfl, rfl⟩⟩
  · exact ⟨hops, hc.out_eq, hc.tag_eq, hc.dmem_eq, hc.sameOutside, fun _ => hc.statusErr_eq,
      fun ht => absurd (hc.statusErr_eq.trans h0) ht⟩

/-- Settles O28: a refusal clears EQ and leaves ERR not 0; a completing command keeps ERR = 0, and EQ unless it is a
comparison. -/
theorem eqWrittenOnlyByComparisons : Obligations.EqWrittenOnlyByComparisons := by
  unfold Obligations.EqWrittenOnlyByComparisons
  intro i s t h hs
  rcases (exec_cases h hs).refused_or_completed with ⟨e, he, -, rfl⟩ | ⟨h0, hc⟩
  · exact ⟨fun ht => absurd ht he, fun _ => rfl⟩
  · exact ⟨fun _ => hc.statusEq_eq, fun ht => absurd (hc.statusErr_eq.trans h0) ht⟩

/-! ### No command reads EQ (R35, R223) -/

/-- Two outcomes are next states that differ in EQ at most. -/
def EndAlikeButEq (o o' : Host.Outcome State Fault Refusal) : Prop :=
  ∃ t t', o = .next t ∧ o' = .next t' ∧ t'.setEq t.statusEq = t

theorem EndAlikeButEq.of_next {t t' : State} (h : t'.setEq t.statusEq = t) : EndAlikeButEq (.next t) (.next t') :=
  ⟨t, t', rfl, rfl, h⟩

/-- The lock is ERR alone, so EQ does not decide whether a command is refused as locked (R237). -/
theorem unlessLocked_setEq (s : State) (b : Bool) {run run' : Host.Outcome State Fault Refusal}
    (h : EndAlikeButEq run run') : EndAlikeButEq (unlessLocked s run) (unlessLocked (s.setEq b) run') := by
  cases hl : s.locked with
  | true =>
    rw [unlessLocked_of_locked hl, unlessLocked_of_locked (s := s.setEq b) hl]
    exact .of_next rfl
  | false =>
    rw [unlessLocked_of_unlocked hl, unlessLocked_of_unlocked (s := s.setEq b) hl]
    exact h

@[simp] theorem State.setEq_streamCheck (s : State) (b srcGiven : Bool) :
    (s.setEq b).streamCheck srcGiven = s.streamCheck srcGiven := rfl

@[simp] theorem State.setEq_messageCheck (s : State) (b : Bool) : (s.setEq b).messageCheck = s.messageCheck := rfl

/-- The checks and the write of a stream command do not depend on EQ (R151). -/
theorem execStream_setEq (srcGiven : Bool) (output : List Byte) (s : State) (b : Bool) :
    EndAlikeButEq (execStream srcGiven output s) (execStream srcGiven output (s.setEq b)) := by
  refine unlessLocked_setEq s b ?_
  rw [State.setEq_streamCheck]
  cases s.streamCheck srcGiven with
  | some code => exact .of_next rfl
  | none =>
    rw [State.setEq_len]
    by_cases h0 : s.len = 0
    · simp only [h0, if_true]
      exact .of_next rfl
    · simp only [h0, if_false]
      exact .of_next rfl

/-- The check and the tag of a Poly1305 command do not depend on EQ (R191). -/
theorem execPoly_setEq {finish : State → Bytes 16 → State} {s : State} {b : Bool}
    (h : ∀ tag, (finish (s.setEq b) tag).setEq (finish s tag).statusEq = finish s tag) :
    EndAlikeButEq (execPoly (finish s) s) (execPoly (finish (s.setEq b)) (s.setEq b)) := by
  refine unlessLocked_setEq s b ?_
  rw [State.setEq_messageCheck]
  cases s.messageCheck with
  | some code => exact .of_next rfl
  | none => exact .of_next (h _)

/-- Whatever EQ was, a command ends in the same state up to EQ. -/
theorem exec_setEq (i : Instr) (s : State) (b : Bool) : EndAlikeButEq (exec i s) (exec i (s.setEq b)) := by
  cases i with
  | nop | core | hsal | ceq16 | ceq32 => exact unlessLocked_setEq s b (.of_next rfl)
  | s20Xor off | s20Ks off | xs20Xor off | xs20Ks off => exact execStream_setEq _ _ s b
  | p1305Auth => exact execPoly_setEq (finish := State.setTag) fun _ => rfl
  | p1305Vfy =>
    exact execPoly_setEq (finish := fun s t => (s.setEq (ctEqual t s.tagx)).setTag (zeroBytes 16)) fun _ => rfl
  | srst => exact .of_next rfl

/-- Settles O29, from `exec_setEq`. -/
theorem eqNeverReadByACommand : Obligations.EqNeverReadByACommand := by
  unfold Obligations.EqNeverReadByACommand
  intro i s t b h
  obtain ⟨u, t', hu, ht', hsame⟩ := exec_setEq i s b
  obtain rfl : t = u := by simpa using h.symm.trans hu
  exact ⟨t', ht', hsame⟩

/-! ### The offsets of one register (R41) -/

/-- A register stands in one row of the map. -/
theorem window_row_unique : ∀ x ∈ window, ∀ y ∈ window, x.reg = y.reg → x = y := by decide

/-- An offset where a register of the map is found lies in that register's row. -/
theorem offset_of_regAt {row : WindowRow} (hm : row ∈ window) {off : BitVec 12} {k : Nat}
    (h : regAt off = some (row.reg, k)) :
    row.base ≤ off.toNat ∧ off.toNat < row.base + 4 * row.words ∧ k = (off.toNat - row.base) / 4 := by
  obtain ⟨row', hm', hreg, hoff⟩ := findReg_some h
  obtain rfl := window_row_unique row' hm' row hm hreg
  exact hoff

/-- Two aligned offsets with the same word of the same register are one offset. -/
theorem regAt_injective {off off' : BitVec 12} {r : Reg} {k : Nat} (ha : off.toNat % 4 = 0) (ha' : off'.toNat % 4 = 0)
    (h : regAt off = some (r, k)) (h' : regAt off' = some (r, k)) : off' = off := by
  have hrows : ∀ x ∈ window, x.base % 4 = 0 := by decide
  obtain ⟨row, hm, rfl, hlo, -, hk⟩ := findReg_some h
  obtain ⟨hlo', -, hk'⟩ := offset_of_regAt hm h'
  have hbase := hrows row hm
  exact BitVec.eq_of_toNat_eq (by omega)

/-! ### What changes KEY (R21, R44) -/

/-- A register write leaves KEY unless it is one to KEY. -/
theorem State.writeReg_key_of_ne (s : State) {r : Reg} (k : Nat) (w : Word) (h : r ≠ .key) :
    (s.writeReg r k w).key = s.key := by
  cases r with
  | key => exact absurd rfl h
  | _ => rfl

/-- A write to CMD changes KEY only if the word is that of SRST. -/
theorem eq_srst_of_commandWrite_key_ne {w : Word} {s t : State} (h : commandWrite w s = .next t)
    (hk : t.key ≠ s.key) : w = 0x0000007F := by
  rcases commandWrite_cases h with ⟨hd, -⟩ | ⟨i, -, -, hend⟩ | ⟨-, c, rfl⟩
  · exact eq_of_decode_srst hd
  · obtain ⟨hkey, -⟩ := hend.sameOperands
    exact absurd hkey hk
  · exact absurd (State.refuse_key s c) hk

/-- Settles O31, by the cases of a transaction: of those that are no reset, only a register write to KEY and a write to
CMD that runs SRST reach KEY. -/
theorem keyChangesOnlyByHostOrReset : Obligations.KeyChangesOnlyByHostOrReset := by
  unfold Obligations.KeyChangesOnlyByHostOrReset
  intro s t h hk
  rcases step_cases h with ⟨-, rfl⟩ | ⟨x, rest, hp, hx⟩
  · exact absurd rfl hk
  · refine ⟨rest, ?_⟩
    cases hx with
    | wrote off w r k ha hr hc =>
      obtain rfl : r = .key := by
        by_contra hne
        exact hk (State.writeReg_key_of_ne _ k w hne)
      obtain ⟨hlo, hhi, -⟩ := offset_of_regAt (row := ⟨.key, 0x020, 8⟩) (by decide) hr
      exact .inl ⟨off, w, hp, ha, hlo, by simp only at hhi; omega⟩
    | command w hw =>
      obtain rfl := eq_srst_of_commandWrite_key_ne hw hk
      exact .inr (.inl hp)
    | reset => exact .inr (.inr (.inl hp))
    | aborted w hw => exact .inr (.inr (.inr ⟨w, hp⟩))
    | ignored | read | byteWritten | byteRead | tested | testedNot | skipped => exact absurd rfl hk

/-! ### Words of the window that the host may write (R34, R41) -/

/-- The registers whose words the host may write and read back; ID, OUT and TAG ignore a write, one to STATUS clears it,
and one to CMD starts a command. -/
def Reg.hostWritable : Reg → Bool
  | .src | .dst | .len | .key | .inp | .const | .nonce | .pkey | .tagx | .ca | .cb => true
  | .id | .status | .cmd | .out | .tag => false

/-- The size of a register in bytes (R20, R41). -/
def Reg.bytes : Reg → Nat
  | .id | .status | .cmd | .src | .dst | .len => 4
  | .inp | .const | .tag | .tagx => 16
  | .nonce => 24
  | .key | .pkey | .ca | .cb => 32
  | .out => 64

/-- The map gives every register its own size. -/
theorem bytes_of_window : ∀ row ∈ window, row.reg.bytes = 4 * row.words := by decide

/-- The word at an offset lies inside its register. -/
theorem word_lt_of_regAt {off : BitVec 12} {r : Reg} {k : Nat} (h : regAt off = some (r, k)) : 4 * k + 3 < r.bytes := by
  obtain ⟨row, hm, rfl, hlo, hhi, hk⟩ := findReg_some h
  rw [bytes_of_window row hm]
  omega

/-- A writable offset is one of a writable register. -/
theorem regAt_of_writableOffset {off : BitVec 12} (h : writableOffset off) :
    ∃ r k, regAt off = some (r, k) ∧ r.hostWritable = true := by
  have hrow : ∃ row ∈ window, row.reg.hostWritable = true ∧ row.base ≤ off.toNat ∧
      off.toNat < row.base + 4 * row.words := by
    by_contra hno
    simp only [window, List.mem_cons, List.not_mem_nil, or_false, Reg.hostWritable, exists_eq_or_imp, ↓existsAndEq,
      Bool.false_eq_true, true_and, false_and, false_or, not_or, not_and, not_lt] at hno
    omega
  obtain ⟨row, hm, hw, hlo, hhi⟩ := hrow
  exact ⟨_, _, regAt_of_mem hm hlo hhi, hw⟩

theorem Reg.ne_cmd_of_hostWritable {r : Reg} (h : r.hostWritable = true) : r ≠ .cmd := by
  rintro rfl
  cases h

/-- Another word of a byte string is as before, after a word was put at k. -/
theorem wordAt_putWord_ne {n : Nat} (b : Bytes n) {k k' : Nat} (w : Word) (h : k' ≠ k) :
    wordAt (putWord b k w) k' = wordAt b k' := by
  rw [wordAt, wordAt, getD_putWord_of_ne b w (by omega), getD_putWord_of_ne b w (by omega),
    getD_putWord_of_ne b w (by omega), getD_putWord_of_ne b w (by omega)]

/-- A word written to a writable register is read back. -/
theorem State.readReg_writeReg_self (s : State) {r : Reg} {k : Nat} (w : Word) (hw : r.hostWritable = true)
    (hk : 4 * k + 3 < r.bytes) : (s.writeReg r k w).readReg r k = w := by
  cases r with
  | src | dst | len => rfl
  | key | inp | const | nonce | pkey | tagx | ca | cb => exact wordAt_putWord_self _ w hk
  | id | status | cmd | out | tag => cases hw

/-- A write to a writable register leaves what every other register reads. -/
theorem State.readReg_writeReg_of_reg_ne (s : State) {r r' : Reg} (k k' : Nat) (w : Word)
    (hw : r.hostWritable = true) (h : r' ≠ r) : (s.writeReg r k w).readReg r' k' = s.readReg r' k' := by
  cases r with
  | id | status | cmd | out | tag => cases hw
  | _ => cases r' <;> first | rfl | exact absurd rfl h

/-- A write to a writable register leaves what its other words read. -/
theorem State.readReg_writeReg_of_word_ne (s : State) {r : Reg} {k k' : Nat} (w : Word) (hw : r.hostWritable = true)
    (hk : 4 * k + 3 < r.bytes) (hk' : 4 * k' + 3 < r.bytes) (h : k' ≠ k) :
    (s.writeReg r k w).readReg r k' = s.readReg r k' := by
  cases r with
  | src | dst | len => simp only [Reg.bytes] at hk hk'; omega
  | key | inp | const | nonce | pkey | tagx | ca | cb => exact wordAt_putWord_ne _ w h
  | id | status | cmd | out | tag => cases hw

/-- What an offset of the map reads. -/
theorem State.readWindow_of_regAt (s : State) {off : BitVec 12} {r : Reg} {k : Nat} (h : regAt off = some (r, k)) :
    s.readWindow off = s.readReg r k := by
  rw [State.readWindow, h]

/-- A reserved offset reads 0. -/
theorem State.readWindow_of_reserved (s : State) {off : BitVec 12} (h : regAt off = none) : s.readWindow off = 0 := by
  rw [State.readWindow, h]

/-- A write to one word of a writable register leaves what every other aligned offset reads. -/
theorem State.readWindow_writeReg_of_ne (s : State) {off off' : BitVec 12} {r : Reg} {k : Nat} (w : Word)
    (hr : regAt off = some (r, k)) (hw : r.hostWritable = true) (ha : off.toNat % 4 = 0) (ha' : off'.toNat % 4 = 0)
    (hne : off' ≠ off) : (s.writeReg r k w).readWindow off' = s.readWindow off' := by
  cases hr' : regAt off' with
  | none => rw [State.readWindow_of_reserved _ hr', State.readWindow_of_reserved _ hr']
  | some rk =>
    obtain ⟨r', k'⟩ := rk
    rw [State.readWindow_of_regAt _ hr', State.readWindow_of_regAt _ hr']
    by_cases hreg : r' = r
    · subst hreg
      have hword : k' ≠ k := by
        rintro rfl
        exact hne (regAt_injective ha ha' hr hr')
      exact State.readReg_writeReg_of_word_ne s w hw (word_lt_of_regAt hr) (word_lt_of_regAt hr') hword
    · exact State.readReg_writeReg_of_reg_ne s k k' w hw hreg

/-! ### The step of a host access (R41) -/

/-- A step that writes a register other than CMD, in terms of the host's list as it stands. -/
theorem step_of_regWrite {s : State} {off : BitVec 12} {r : Reg} {k : Nat} {w : Word} {rest : List HostTxn}
    (hp : s.pending = .regWrite 4 off w :: rest) (ha : off.toNat % 4 = 0) (hr : regAt off = some (r, k))
    (hc : r ≠ .cmd) : step s = .next ((s.setPending rest).writeReg r k w) := by
  have h := step_regWrite s w rest ha hr hc
  rw [← hp] at h
  exact h

/-- A step that writes a reserved offset changes nothing. -/
theorem step_of_reservedWrite {s : State} {off : BitVec 12} {w : Word} {rest : List HostTxn}
    (hp : s.pending = .regWrite 4 off w :: rest) (ha : off.toNat % 4 = 0) (hr : regAt off = none) :
    step s = .next (s.setPending rest) := by
  rw [step_cons hp, hostTransact, hostRegWrite, if_pos ((alignedWord_iff _ _).2 ⟨rfl, ha⟩), hr]

/-- A write to word k of a row of the map other than CMD's. -/
theorem writesTo_word {row : WindowRow} (hm : row ∈ window) (hc : row.reg ≠ .cmd) {k : Nat} (hk : k < row.words)
    (w : Word) (s : State) (rest : List HostTxn) :
    WritesTo (row.base + 4 * k) w s rest ((s.setPending rest).writeReg row.reg k w) := by
  obtain ⟨hr, ha⟩ := regAt_word hm hk
  exact step_regWrite s w rest ha hr hc

/-- Settles O39: the step is the register write; what it reads back is one lemma for the word written, one for the other
offsets; the named registers are rows of the map. -/
theorem windowWordsReadBack : Obligations.WindowWordsReadBack := by
  unfold Obligations.WindowWordsReadBack
  refine ⟨fun s off w rest hoff hp => ?_, fun s w rest => ⟨⟨?_, ?_, ?_⟩, fun k => ⟨?_, ?_, ?_, ?_, ?_, ?_, ?_, ?_⟩⟩⟩
  · obtain ⟨r, k, hr, hw⟩ := regAt_of_writableOffset hoff
    refine ⟨_, step_of_regWrite hp hoff.1 hr (Reg.ne_cmd_of_hostWritable hw), ?_, fun off' ha' hne => ?_, by simp,
      by simp, by simp, by simp⟩
    · rw [State.readWindow_of_regAt _ hr, State.readReg_writeReg_self _ w hw (word_lt_of_regAt hr)]
    · exact State.readWindow_writeReg_of_ne (s.setPending rest) w hr hw hoff.1 ha' hne
  · exact writesTo_word (row := ⟨.src, 0x00C, 1⟩) (k := 0) (by decide) nofun (by decide) w s rest
  · exact writesTo_word (row := ⟨.dst, 0x010, 1⟩) (k := 0) (by decide) nofun (by decide) w s rest
  · exact writesTo_word (row := ⟨.len, 0x014, 1⟩) (k := 0) (by decide) nofun (by decide) w s rest
  · exact fun hk => writesTo_word (row := ⟨.key, 0x020, 8⟩) (by decide) nofun hk w s rest
  · exact fun hk => writesTo_word (row := ⟨.inp, 0x040, 4⟩) (by decide) nofun hk w s rest
  · exact fun hk => writesTo_word (row := ⟨.const, 0x050, 4⟩) (by decide) nofun hk w s rest
  · exact fun hk => writesTo_word (row := ⟨.nonce, 0x060, 6⟩) (by decide) nofun hk w s rest
  · exact fun hk => writesTo_word (row := ⟨.pkey, 0x0C0, 8⟩) (by decide) nofun hk w s rest
  · exact fun hk => writesTo_word (row := ⟨.tagx, 0x0F0, 4⟩) (by decide) nofun hk w s rest
  · exact fun hk => writesTo_word (row := ⟨.ca, 0x100, 8⟩) (by decide) nofun hk w s rest
  · exact fun hk => writesTo_word (row := ⟨.cb, 0x120, 8⟩) (by decide) nofun hk w s rest

/-! ### Words of the window that ignore a write (R25, R27, R30, R41) -/

/-- A read-only offset is one of ID, OUT or TAG. -/
theorem regAt_of_readOnlyOffset {off : BitVec 12} (h : readOnlyOffset off) :
    ∃ r k, regAt off = some (r, k) ∧ (r = .id ∨ r = .out ∨ r = .tag) := by
  have hrow : ∃ row ∈ window, (row.reg = .id ∨ row.reg = .out ∨ row.reg = .tag) ∧ row.base ≤ off.toNat ∧
      off.toNat < row.base + 4 * row.words := by
    by_contra hno
    simp only [window, List.mem_cons, List.not_mem_nil, or_false, exists_eq_or_imp, ↓existsAndEq, reduceCtorEq,
      or_self, or_true, true_and, false_and, false_or, not_or, not_and, not_lt] at hno
    omega
  obtain ⟨row, hm, hro, hlo, hhi⟩ := hrow
  exact ⟨_, _, regAt_of_mem hm hlo hhi, hro⟩

/-- A reserved offset is in no row of the map. -/
theorem regAt_of_reservedOffset {off : BitVec 12} (h : reservedOffset off) : regAt off = none := by
  refine findReg_none fun row hm => ?_
  revert row
  simp only [window, List.mem_cons, List.not_mem_nil, or_false, forall_eq_or_imp, forall_eq]
  omega

/-- ID, OUT and TAG ignore a write. -/
theorem State.writeReg_of_readOnly (s : State) {r : Reg} (k : Nat) (w : Word) (h : r = .id ∨ r = .out ∨ r = .tag) :
    s.writeReg r k w = s := by
  rcases h with rfl | rfl | rfl <;> rfl

/-- Settles O40: a read-only offset is one of a register that ignores the write, a reserved one is in no row. -/
theorem readOnlyAndReservedWritesIgnored : Obligations.ReadOnlyAndReservedWritesIgnored := by
  unfold Obligations.ReadOnlyAndReservedWritesIgnored
  refine ⟨fun s off w rest hoff hp => ?_, fun s => ⟨?_, ?_, fun off hoff => ?_⟩⟩
  · rcases hoff with hro | hres
    · obtain ⟨r, k, hr, hreg⟩ := regAt_of_readOnlyOffset hro
      have hc : r ≠ .cmd := by rcases hreg with rfl | rfl | rfl <;> nofun
      rw [step_of_regWrite hp hro.1 hr hc, State.writeReg_of_readOnly _ k w hreg]
      rfl
    · exact step_of_reservedWrite hp hres.1 (regAt_of_reservedOffset hres)
  · exact State.readWindow_of_regAt s (r := .id) (k := 0) (by decide)
  · exact State.readWindow_of_regAt s regAt_cmd
  · exact State.readWindow_of_reserved s (regAt_of_reservedOffset hoff)

/-! ### CMD and STATUS (R31, R32) -/

/-- A write to CMD of a word that decodes to a command runs that command (R93). -/
theorem commandWrite_of_decode {w : Word} {i : Instr} (h : decode w = .command i) (s : State) :
    commandWrite w s = exec i s := by
  rw [commandWrite, h]

/-- Settles O5: the step is the write to CMD, and that runs what the word decodes to. -/
theorem stepRunsDecodedCommand : Obligations.StepRunsDecodedCommand := by
  unfold Obligations.StepRunsDecodedCommand
  intro s w rest i hp hd
  rw [step_command hp, commandWrite_of_decode hd]
  rfl

/-- EQ + 16*ERR is below 2^32, so the word is the number (R31). -/
theorem State.toNat_statusWord (s : State) : s.statusWord.toNat = s.statusEq.toNat + 16 * s.statusErr.toNat := by
  have heq := s.statusEq.toNat_le
  have herr := s.statusErr.isLt
  rw [State.statusWord, BitVec.toNat_ofNat, Nat.mod_eq_of_lt (by omega)]

/-- Settles O9: a register write to STATUS is `State.clearStatus`, and a read of it is `State.statusWord`. -/
theorem statusWriteClearsEqAndErr : Obligations.StatusWriteClearsEqAndErr := by
  unfold Obligations.StatusWriteClearsEqAndErr
  refine ⟨fun s v rest hp => step_of_regWrite hp (by decide) regAt_status nofun, fun s => ?_⟩
  rw [State.readWindow_of_regAt s regAt_status]
  exact s.toNat_statusWord

/-! ### Power-on (R43, R262) -/

/-- The invariant after power-on asks of DMEM and its size only. -/
theorem State.powerOn_inv {size : Nat} {contents : Dmem} (hsize : size ≤ 2 ^ 32) (hwf : Dmem.wf contents)
    (hbelow : Dmem.below contents size) : (State.powerOn size contents).Inv :=
  ⟨hwf, hbelow, hsize, Nat.zero_le _, fun _ => rfl⟩

/-- Settles O35; State.reset is the launch with 4096 bytes and nothing listed. -/
theorem invariantHoldsAtLaunch : Obligations.InvariantHoldsAtLaunch := by
  unfold Obligations.InvariantHoldsAtLaunch
  exact ⟨fun size contents hsize hwf hbelow => State.powerOn_inv hsize hwf hbelow,
    State.powerOn_inv (by decide) State.reset_dmem_wf nofun⟩

/-- Every register has its reset value after power-on (R43). -/
theorem State.powerOn_atResetValues (size : Nat) (contents : Dmem) : AtResetValues (State.powerOn size contents) := by
  simp [AtResetValues, State.powerOn, Config.sigma]

/-- Settles O36; after power-on the host's list is empty, so the step is idle. -/
theorem launchLeavesResetValues : Obligations.LaunchLeavesResetValues := by
  unfold Obligations.LaunchLeavesResetValues
  exact ⟨fun size contents => ⟨State.powerOn_atResetValues size contents, fun _ => rfl, rfl, step_idle rfl⟩,
    State.powerOn_atResetValues _ _⟩

/-! ### Host accesses without a meaning (R41, R61; log 7) -/

/-- An access that is not an aligned 32-bit one. -/
theorem alignedWord_ne_true {size : Nat} {off : BitVec 12} (h : size ≠ 4 ∨ off.toNat % 4 ≠ 0) :
    ¬ alignedWord size off = true := by
  rw [alignedWord_iff]
  omega

/-- Settles O43: the checks of the host's accesses fail, of registers for the alignment, of DMEM for the address. -/
theorem hostAccessesWithoutMeaningStop : Obligations.HostAccessesWithoutMeaningStop := by
  unfold Obligations.HostAccessesWithoutMeaningStop
  refine fun s rest => ⟨fun size off w h => ⟨fun hp => ?_, fun hp => ?_⟩, fun a b h => ?_⟩
  · rw [step_cons hp, hostTransact, hostRegWrite, if_neg (alignedWord_ne_true h)]
  · rw [step_cons hp, hostTransact, hostRegRead, if_neg (alignedWord_ne_true h)]
  · have hout : ¬ a < (s.setPending rest).dmemBytes := Nat.not_lt.2 h
    refine ⟨fun hp => ?_, fun hp => ?_⟩
    · rw [step_cons hp, hostTransact, hostMemWrite, if_neg hout]
    · rw [step_cons hp, hostTransact, hostMemRead, if_neg hout]

end Sys2Proof.Machine
end

section
/-!
PROOFS. The family 20_memory: the checks of the buffers a command names (R65 to R69), the commands on no bytes (R68),
which bytes of DMEM a step changes (R71, R72), and the host's reads and byte writes (R41, R64, R72).
-/

namespace Sys2Proof.Machine

/-! ### The checks that fail (R66, R67, R69) -/

/-- A buffer of at least one byte that ends beyond DMEM (R66). -/
theorem State.not_bufferOk {s : State} {base : Word} (h0 : s.len ≠ 0) (h : s.dmemBytes < base.toNat + s.len.toNat) :
    ¬ s.bufferOk base := by
  rintro (hz | hle)
  · exact h0 hz
  · omega

/-- The source range is the first check of an .XOR command (R69). -/
theorem State.streamCheck_of_sourceOutside {s : State} (h : ¬ s.bufferOk s.src) : s.streamCheck true = some .range := by
  have hsrc : s.sourceOutside = true := Bool.eq_true_of_not_eq_false (mt s.sourceOutside_eq_false_iff.1 h)
  simp [State.streamCheck, hsrc]

/-- The destination range fails with the code of the source range, whichever of the two is looked at first (R69). -/
theorem State.streamCheck_of_destOutside {s : State} (srcGiven : Bool) (h : ¬ s.bufferOk s.dst) :
    s.streamCheck srcGiven = some .range := by
  have hdst : s.destOutside = true := Bool.eq_true_of_not_eq_false (mt s.destOutside_eq_false_iff.1 h)
  simp [State.streamCheck, hdst]

/-- The overlap is looked at once both ranges have passed (R69). -/
theorem State.streamCheck_of_overlap {s : State} (hsrc : s.bufferOk s.src) (hdst : s.bufferOk s.dst)
    (h : ¬ s.buffersOk) : s.streamCheck true = some .overlap := by
  have hover : s.buffersOverlap = true := Bool.eq_true_of_not_eq_false (mt s.buffersOverlap_eq_false_iff.1 h)
  simp [State.streamCheck, s.sourceOutside_eq_false_iff.2 hsrc, s.destOutside_eq_false_iff.2 hdst, hover]

/-- The one check of a Poly1305 command is that of the source range (R66). -/
theorem State.messageCheck_of_sourceOutside {s : State} (h : ¬ s.bufferOk s.src) : s.messageCheck = some .range := by
  have hsrc : s.sourceOutside = true := Bool.eq_true_of_not_eq_false (mt s.sourceOutside_eq_false_iff.1 h)
  simp [State.messageCheck, hsrc]

/-- Two buffers of at least one byte may be used together exactly when they are the same buffer or start at least LEN
bytes apart (R67). -/
theorem State.buffersOk_iff_distance {s : State} (h0 : s.len ≠ 0) :
    s.buffersOk ↔ s.src = s.dst ∨ s.len.toNat ≤ ((s.src.toNat : Int) - (s.dst.toNat : Int)).natAbs := by
  have hlen : s.len.toNat ≠ 0 := mt (len_eq_zero_iff s.len).2 h0
  rw [State.buffersOk, or_iff_right h0]
  exact or_congr_right (by omega)

/-! ### A command whose check fails, and one that completes, on a block that is not locked -/

/-- A stream command that fails a check writes the code of that check, clears EQ and does nothing else (R236). -/
theorem execStream_of_check_some {srcGiven : Bool} {s : State} {code : RefuseCode} (h : s.statusErr = 0)
    (hc : s.streamCheck srcGiven = some code) (output : List Byte) :
    execStream srcGiven output s = .next { s with statusErr := code.err, statusEq := false } := by
  rw [execStream_of_refused (s.locked_eq_false_iff.2 h) hc, State.refuse_of_unlocked h]

/-- A Poly1305 command that fails its check writes the code of that check, clears EQ and does nothing else (R236). -/
theorem execPoly_of_check_some {finish : Bytes 16 → State} {s : State} {code : RefuseCode} (h : s.statusErr = 0)
    (hc : s.messageCheck = some code) :
    execPoly finish s = .next { s with statusErr := code.err, statusEq := false } := by
  rw [execPoly, unlessLocked_of_unlocked (s.locked_eq_false_iff.2 h), hc, ← State.refuse_of_unlocked h]

/-- A stream command that passes its checks keeps ERR = 0. -/
theorem execStream_completes {srcGiven : Bool} {s : State} (h : s.statusErr = 0) (hc : s.streamCheck srcGiven = none)
    (output : List Byte) : ∃ t, execStream srcGiven output s = .next t ∧ t.statusErr = 0 := by
  rw [execStream_of_ready (s.locked_eq_false_iff.2 h) hc]
  split <;> exact ⟨_, rfl, h⟩

/-- A Poly1305 command that passes its check does what it does with the tag. -/
theorem execPoly_of_check_none {finish : Bytes 16 → State} {s : State} (h : s.statusErr = 0)
    (hc : s.bufferOk s.src) : execPoly finish s = .next (finish (poly1305Tag s.sourceBytes s.pkey)) :=
  execPoly_of_ready (s.locked_eq_false_iff.2 h) (s.messageCheck_eq_none_iff.2 hc)

/-- What P1305.VFY does with the tag of the message (R192). -/
def State.verifyTag (s : State) (tag : Bytes 16) : State := (s.setEq (ctEqual tag s.tagx)).setTag (zeroBytes 16)

/-- P1305.AUTH writes the tag to TAG (R191). -/
theorem exec_p1305Auth (s : State) : exec .p1305Auth s = execPoly s.setTag s := rfl

/-- P1305.VFY compares the tag with TAGX (R192). -/
theorem exec_p1305Vfy (s : State) : exec .p1305Vfy s = execPoly s.verifyTag s := rfl

/-- Settles O11: a command that looks at the buffer outside DMEM fails its check with E_RANGE; one that looks only at
the other buffer passes. -/
theorem bufferOutsideDmemRefused : Obligations.BufferOutsideDmemRefused := by
  unfold Obligations.BufferOutsideDmemRefused
  intro s off h h0
  simp only [List.forall_mem_cons, List.not_mem_nil, false_imp_iff, implies_true, and_true]
  refine ⟨fun hsrc => ?_, fun hdst => ?_, fun hdst => ?_, fun hsrc => ?_⟩
  · have hstream := State.streamCheck_of_sourceOutside (State.not_bufferOk h0 hsrc)
    have hpoly := State.messageCheck_of_sourceOutside (State.not_bufferOk h0 hsrc)
    rw [exec_p1305Auth, exec_p1305Vfy]
    exact ⟨execStream_of_check_some h hstream _, execStream_of_check_some h hstream _,
      execPoly_of_check_some h hpoly, execPoly_of_check_some h hpoly⟩
  · have hc (srcGiven : Bool) := State.streamCheck_of_destOutside srcGiven (State.not_bufferOk h0 hdst)
    exact ⟨execStream_of_check_some h (hc true) _, execStream_of_check_some h (hc false) _,
      execStream_of_check_some h (hc true) _, execStream_of_check_some h (hc false) _⟩
  · have hc := s.streamCheck_false_eq_none_iff.2 (.inr hdst)
    exact ⟨execStream_completes h hc _, execStream_completes h hc _⟩
  · rw [exec_p1305Auth, exec_p1305Vfy]
    exact ⟨⟨_, execPoly_of_check_none h (.inr hsrc), h⟩, ⟨_, execPoly_of_check_none h (.inr hsrc), h⟩⟩

/-- Settles O12: with both ranges passed, the overlap decides, and it is a matter of the distance of the buffers. -/
theorem partlyOverlappingBuffersRefused : Obligations.PartlyOverlappingBuffersRefused := by
  unfold Obligations.PartlyOverlappingBuffersRefused
  intro s off h h0 hsrc hdst
  have hrefused (hne : s.src ≠ s.dst) (hlt : ((s.src.toNat : Int) - (s.dst.toNat : Int)).natAbs < s.len.toNat) :
      s.streamCheck true = some .overlap := by
    refine State.streamCheck_of_overlap (.inr hsrc) (.inr hdst) ?_
    rw [State.buffersOk_iff_distance h0, not_or, Nat.not_le]
    exact ⟨hne, hlt⟩
  have hpassed (hok : s.src = s.dst ∨ s.len.toNat ≤ ((s.src.toNat : Int) - (s.dst.toNat : Int)).natAbs) :
      s.streamCheck true = none :=
    s.streamCheck_true_eq_none_iff.2 ⟨.inr hsrc, .inr hdst, (State.buffersOk_iff_distance h0).2 hok⟩
  simp only [List.forall_mem_cons, List.not_mem_nil, false_imp_iff, implies_true, and_true]
  exact ⟨⟨fun hne hlt => execStream_of_check_some h (hrefused hne hlt) _,
      fun hok => execStream_completes h (hpassed hok) _⟩,
    fun hne hlt => execStream_of_check_some h (hrefused hne hlt) _,
    fun hok => execStream_completes h (hpassed hok) _⟩

/-! ### The empty message, and the comparator (R68, R183, R211) -/

/-- A byte string of n bytes is a number below 256^n (R10). -/
theorem le_lt_pow (bs : List Byte) : le bs < 256 ^ bs.length := by
  induction bs with
  | nil => simp [le]
  | cons b bs ih =>
    have hb := b.isLt
    rw [le, List.length_cons, Nat.pow_succ]
    omega

/-- The base-256 digits of `le` of a byte string are its bytes (R10). -/
theorem ofNat_le_div_pow (bs : List Byte) {i : Nat} (h : i < bs.length) :
    BitVec.ofNat 8 (le bs / 256 ^ i) = bs[i] := by
  induction bs generalizing i with
  | nil => cases h
  | cons b bs ih =>
    have hb := b.isLt
    cases i with
    | zero =>
      apply BitVec.eq_of_toNat_eq
      simp only [le, Nat.pow_zero, Nat.div_one, BitVec.toNat_ofNat, List.getElem_cons_zero]
      omega
    | succ i =>
      rw [le, Nat.pow_succ', ← Nat.div_div_eq_div_mul, show (b.toNat + 256 * le bs) / 256 = le bs by omega]
      exact ih (Nat.lt_of_succ_lt_succ h)

/-- `st_n(le(B)) = B` for a string of n bytes (R10). -/
theorem stBytes_le {n : Nat} (b : Bytes n) : stBytes n (le b.toList) = b := by
  refine Vector.ext fun i hi => ?_
  rw [getElem_stBytes _ _ _ hi, ofNat_le_div_pow _ (by simpa using hi), Vector.getElem_toList]

/-- The upper part of a byte string, as a list. -/
theorem toList_slice_of_end {n start len : Nat} (b : Bytes n) (h : start + len = n) :
    (slice b start len).toList = b.toList.drop start := by
  refine List.ext_getElem (by simp; omega) fun i hi _ => ?_
  rw [Vector.length_toList] at hi
  rw [Vector.getElem_toList, getElem_slice _ _ _ _ hi, getD_of_lt _ _ (by omega), List.getElem_drop,
    Vector.getElem_toList]

/-- The tag of the message with no chunks is s, the second half of the key (R182, R183). -/
theorem poly1305Tag_nil (key : Bytes 32) : poly1305Tag [] key = slice key 16 16 := by
  have hacc : polyAccumulate (polyR key) [] = 0 := rfl
  have hs : polyS key < 2 ^ 128 := by simpa [polyS] using le_lt_pow (slice key 16 16).toList
  rw [poly1305Tag, hacc, Nat.zero_add, Nat.mod_eq_of_lt hs, polyS, stBytes_le]

/-- The accumulator is zero exactly when no byte differs (R211). -/
theorem ctAccumulate_eq_zero_iff {as bs : List Byte} (h : as.length = bs.length) :
    ctAccumulate as bs = 0 ↔ as = bs := by
  induction as generalizing bs with
  | nil => simp [ctAccumulate, List.length_eq_zero_iff.1 h.symm]
  | cons a as ih =>
    cases bs with
    | nil => cases h
    | cons b bs =>
      rw [List.cons.injEq]
      exact BitVec.or_eq_zero_iff.trans (and_congr BitVec.xor_eq_zero_iff (ih (Nat.succ.inj h)))

/-- The comparator tells equality of byte strings (R211). -/
theorem ctEqual_iff {n : Nat} (a b : Bytes n) : ctEqual a b = true ↔ a = b := by
  rw [ctEqual, beq_iff_eq, ctAccumulate_eq_zero_iff (by simp), Vector.toList_inj]

/-! ### The commands on no bytes (R68) -/

/-- With LEN = 0 a stream command changes nothing. -/
theorem execStream_of_len_zero (srcGiven : Bool) {s : State} (h : s.statusErr = 0) (h0 : s.len = 0)
    (output : List Byte) : execStream srcGiven output s = .next s := by
  have hc : s.streamCheck srcGiven = none := by
    cases srcGiven with
    | false => exact s.streamCheck_false_eq_none_iff.2 (.inl h0)
    | true => exact s.streamCheck_true_eq_none_iff.2 ⟨.inl h0, .inl h0, .inl h0⟩
  rw [execStream_of_ready (s.locked_eq_false_iff.2 h) hc, if_pos h0]

/-- With LEN = 0 the message is empty. -/
theorem State.sourceBytes_of_len_zero {s : State} (h0 : s.len = 0) : s.sourceBytes = [] := by
  rw [State.sourceBytes, h0]
  rfl

/-- With LEN = 0 a Poly1305 command takes the second half of PKEY as the tag. -/
theorem execPoly_of_len_zero (finish : Bytes 16 → State) {s : State} (h : s.statusErr = 0) (h0 : s.len = 0) :
    execPoly finish s = .next (finish (slice s.pkey 16 16)) := by
  rw [execPoly_of_check_none h (.inl h0), State.sourceBytes_of_len_zero h0, poly1305Tag_nil]

/-- Settles O13, from `execStream_of_len_zero` and `execPoly_of_len_zero`. -/
theorem zeroLengthIsChecklessNoOp : Obligations.ZeroLengthIsChecklessNoOp := by
  unfold Obligations.ZeroLengthIsChecklessNoOp
  intro s off h h0
  have htag : (slice s.pkey 16 16).toList = s.pkey.toList.drop 16 := toList_slice_of_end s.pkey rfl
  rw [exec_p1305Auth, exec_p1305Vfy]
  refine ⟨?_, ⟨_, execPoly_of_len_zero s.setTag h h0, rfl, htag⟩,
    ⟨_, execPoly_of_len_zero s.verifyTag h h0, rfl, ?_, ?_⟩⟩
  · simp only [List.forall_mem_cons, List.not_mem_nil, false_imp_iff, implies_true, and_true]
    exact ⟨execStream_of_len_zero true h h0 _, execStream_of_len_zero false h h0 _,
      execStream_of_len_zero true h h0 _, execStream_of_len_zero false h h0 _⟩
  · rw [State.verifyTag, State.setTag_statusEq, State.setEq_statusEq, ctEqual_iff, eq_comm, ← htag,
      Vector.toList_inj]
  · simp [State.verifyTag, zeroBytes]

/-! ### Which bytes of DMEM a step changes (R71, R72, R263) -/

/-- Only a stream command changes what a byte of DMEM reads as, and only inside the destination buffer (R71). -/
theorem CommandEnd.stream_of_read_ne {i : Instr} {s t : State} {a : Nat} (h : CommandEnd i s t)
    (hne : Dmem.read t.dmem a ≠ Dmem.read s.dmem a) :
    isStream i = true ∧ s.dst.toNat ≤ a ∧ a < s.dst.toNat + s.len.toNat := by
  rcases h.refused_or_completed with ⟨e, -, -, rfl⟩ | ⟨-, hc⟩
  · exact absurd rfl hne
  · refine ⟨?_, ?_⟩
    · by_contra hi
      exact hne (by rw [hc.dmem_eq (Bool.eq_false_of_not_eq_true hi)])
    · have hin := mt (hc.sameOutside a) hne
      omega

/-- Only a write to CMD of a word that decodes to a stream command changes what a byte of DMEM reads as, and only inside
the destination buffer (R71). -/
theorem stream_of_commandWrite_read_ne {w : Word} {s t : State} {a : Nat} (h : commandWrite w s = .next t)
    (hne : Dmem.read t.dmem a ≠ Dmem.read s.dmem a) :
    s.dst.toNat ≤ a ∧ a < s.dst.toNat + s.len.toNat ∧ ∃ i, decode w = .command i ∧ isStream i = true := by
  rcases commandWrite_cases h with ⟨-, rfl⟩ | ⟨i, hd, -, hend⟩ | ⟨-, c, rfl⟩
  · exact absurd rfl hne
  · obtain ⟨hi, hlo, hhi⟩ := hend.stream_of_read_ne hne
    exact ⟨hlo, hhi, i, hd, hi⟩
  · exact absurd rfl hne

/-- A command cut short changes no byte that the whole command leaves (R263). -/
theorem read_ne_of_abortedState {s u : State} {a : Nat}
    (hne : Dmem.read (abortedState s u).dmem a ≠ Dmem.read s.dmem a) : Dmem.read u.dmem a ≠ Dmem.read s.dmem a := by
  simp only [abortedState] at hne
  split at hne
  · exact absurd rfl hne
  · obtain hold | ⟨-, -, hnew⟩ := read_abortMix s.aborts s.dmem u.dmem s.dst.toNat s.len.toNat a
    · exact absurd hold hne
    · rwa [hnew] at hne

/-- A byte written at a changes no other byte (R72). -/
theorem State.read_memWrite_byte_ne (s : State) {a a' : Nat} (b : Byte) (h : a' ≠ a) :
    Dmem.read (s.memWrite a [b]).dmem a' = Dmem.read s.dmem a' :=
  Dmem.read_write_ne s.dmem b h

/-- Settles O32, by the cases of a transaction: a host write of a byte changes that byte, and a command, cut short or
not, changes bytes of its destination buffer only. -/
theorem dmemByteChangesOnlyWhereAllowed : Obligations.DmemByteChangesOnlyWhereAllowed := by
  unfold Obligations.DmemByteChangesOnlyWhereAllowed
  intro s t a h hne
  rcases step_cases h with ⟨-, rfl⟩ | ⟨x, rest, hp, hx⟩
  · exact absurd rfl hne
  · refine ⟨rest, ?_⟩
    cases hx with
    | byteWritten a' b _ =>
      obtain rfl : a = a' := by
        by_contra hother
        exact hne (State.read_memWrite_byte_ne _ b hother)
      exact .inl ⟨b, hp⟩
    | command w hw =>
      obtain ⟨hlo, hhi, i, hd, hi⟩ := stream_of_commandWrite_read_ne hw hne
      exact .inr ⟨hlo, hhi, w, i, hd, hi, .inl hp⟩
    | aborted w hw =>
      obtain ⟨hlo, hhi, i, hd, hi⟩ := stream_of_commandWrite_read_ne hw (read_ne_of_abortedState hne)
      exact .inr ⟨hlo, hhi, w, i, hd, hi, .inr hp⟩
    | wrote off w r k ha hr hc =>
      rw [State.writeReg_dmem] at hne
      exact absurd rfl hne
    | ignored | read | byteRead | reset | tested | testedNot | skipped => exact absurd rfl hne

/-! ### The host's reads and byte writes (R41, R64, R72) -/

/-- A step that reads an aligned word of the window, in terms of the host's list as it stands. -/
theorem step_of_regRead {s : State} {off : BitVec 12} {rest : List HostTxn} (hp : s.pending = .regRead 4 off :: rest)
    (ha : off.toNat % 4 = 0) : step s = .next ((s.setPending rest).pushRead (.word (s.readWindow off))) := by
  have h := step_regRead s rest ha
  rw [← hp] at h
  exact h

/-- A step that reads a byte of DMEM that exists. -/
theorem step_of_memRead {s : State} {a : Nat} {rest : List HostTxn} (hp : s.pending = .memRead a :: rest)
    (ha : a < s.dmemBytes) : step s = .next ((s.setPending rest).pushRead (.byte (Dmem.read s.dmem a))) := by
  rw [step_cons hp, hostTransact, hostMemRead, State.setPending_dmemBytes, if_pos ha, State.setPending_dmem]

/-- A step that writes a byte of DMEM that exists. -/
theorem step_of_memWrite {s : State} {a : Nat} {b : Byte} {rest : List HostTxn}
    (hp : s.pending = .memWrite a b :: rest) (ha : a < s.dmemBytes) :
    step s = .next ((s.setPending rest).memWrite a [b]) := by
  rw [step_cons hp, hostTransact, hostMemWrite, State.setPending_dmemBytes, if_pos ha]

/-- Word k of a row of the map reads word k of that row's register. -/
theorem State.readWindow_word (s : State) {row : WindowRow} (hm : row ∈ window) {k : Nat} (hk : k < row.words) :
    s.readWindow (BitVec.ofNat 12 (row.base + 4 * k)) = s.readReg row.reg k := by
  obtain ⟨hr, -⟩ := regAt_word hm hk
  exact s.readWindow_of_regAt hr

/-- Settles O41: a read of the window or of a byte is one lemma each, and the named registers are rows of the map. -/
theorem hostReadsYieldAndChangeNothing : Obligations.HostReadsYieldAndChangeNothing := by
  unfold Obligations.HostReadsYieldAndChangeNothing
  refine ⟨fun s off rest ha hp => step_of_regRead hp ha, fun s a rest ha hp => step_of_memRead hp ha,
    fun s => ⟨⟨?_, ?_, ?_, ?_, ?_, ?_⟩, fun k => ⟨?_, ?_, ?_, ?_, ?_, ?_, ?_, ?_, ?_, ?_⟩⟩⟩
  · exact s.readWindow_word (row := ⟨.id, 0x000, 1⟩) (k := 0) (by decide) (by decide)
  · rw [s.readWindow_of_regAt regAt_status]
    exact s.toNat_statusWord
  · exact s.readWindow_of_regAt regAt_cmd
  · exact s.readWindow_word (row := ⟨.src, 0x00C, 1⟩) (k := 0) (by decide) (by decide)
  · exact s.readWindow_word (row := ⟨.dst, 0x010, 1⟩) (k := 0) (by decide) (by decide)
  · exact s.readWindow_word (row := ⟨.len, 0x014, 1⟩) (k := 0) (by decide) (by decide)
  · exact s.readWindow_word (row := ⟨.key, 0x020, 8⟩) (by decide)
  · exact s.readWindow_word (row := ⟨.inp, 0x040, 4⟩) (by decide)
  · exact s.readWindow_word (row := ⟨.const, 0x050, 4⟩) (by decide)
  · exact s.readWindow_word (row := ⟨.nonce, 0x060, 6⟩) (by decide)
  · exact s.readWindow_word (row := ⟨.out, 0x080, 16⟩) (by decide)
  · exact s.readWindow_word (row := ⟨.pkey, 0x0C0, 8⟩) (by decide)
  · exact s.readWindow_word (row := ⟨.tag, 0x0E0, 4⟩) (by decide)
  · exact s.readWindow_word (row := ⟨.tagx, 0x0F0, 4⟩) (by decide)
  · exact s.readWindow_word (row := ⟨.ca, 0x100, 8⟩) (by decide)
  · exact s.readWindow_word (row := ⟨.cb, 0x120, 8⟩) (by decide)

/-- Settles O42: the step is the write of the byte, which is read back there and changes no other. -/
theorem hostByteWriteChangesOneByte : Obligations.HostByteWriteChangesOneByte := by
  unfold Obligations.HostByteWriteChangesOneByte
  intro s a b rest ha hp
  refine ⟨_, step_of_memWrite hp ha, rfl, Dmem.read_write_self s.dmem a b, fun a' hout => ?_⟩
  exact State.read_memWrite_byte_ne (s.setPending rest) b (by omega)

end Sys2Proof.Machine
end

section
/-!
PROOFS. The family 30_encoding: the decoder and the encoder (R91 to R97, R105), the text of command lines (R105), and
the statements and conditionals of a host program (R110, R111).
-/

namespace Sys2Proof.Machine

/-! ### The decoder is the inverse of the encoder (R93, R95, R105) -/

/-- Every opcode is one byte (R91, R92). -/
theorem opcode_lt (i : Instr) : i.opcode < 256 := by
  cases i <;> simp [Instr.opcode]

/-- A command of format N has no offset (R105). -/
theorem off_eq_zero_of_not_stream {i : Instr} (h : isStream i = false) : i.off = 0 := by
  cases i with
  | s20Xor | s20Ks | xs20Xor | xs20Ks => cases h
  | _ => rfl

/-- Only a word with the opcode of a command without an offset, and zeros above it, is answered by the format N
decoder. -/
theorem fields_of_decodeN {w : Word} {i j : Instr} (h : decodeN w i = .command j) (hopc : w.toNat % 256 = i.opcode)
    (hoff : i.off = 0) : w.toNat % 256 = j.opcode ∧ w.toNat / 256 % 64 = j.off ∧ w.toNat / 2 ^ 14 = 0 := by
  obtain ⟨rfl, hz⟩ := decodeN_command h
  omega

/-- Only a word with the opcode and the offset of a command, and zeros above them, is answered by the format S
decoder. -/
theorem fields_of_decodeS {w : Word} {form : Nat → Instr} {j : Instr} (h : decodeS w form = .command j)
    (hopc : ∀ n, w.toNat % 256 = (form n).opcode) (hoff : ∀ n, (form n).off = n) :
    w.toNat % 256 = j.opcode ∧ w.toNat / 256 % 64 = j.off ∧ w.toNat / 2 ^ 14 = 0 := by
  obtain ⟨rfl, hz⟩ := decodeS_command h
  exact ⟨hopc _, (hoff _).symm, hz⟩

/-- The fields of a word that decodes to a command (R95). -/
theorem fields_of_decode {w : Word} {i : Instr} (h : decode w = .command i) :
    w.toNat % 256 = i.opcode ∧ w.toNat / 256 % 64 = i.off ∧ w.toNat / 2 ^ 14 = 0 := by
  rw [decode_eq] at h
  iterate 3
    rcases ite_eq_cases h with ⟨hc, h⟩ | ⟨-, h⟩
    · exact fields_of_decodeN h hc rfl
  iterate 4
    rcases ite_eq_cases h with ⟨hc, h⟩ | ⟨-, h⟩
    · exact fields_of_decodeS h (fun _ => hc) fun _ => rfl
  iterate 5
    rcases ite_eq_cases h with ⟨hc, h⟩ | ⟨-, h⟩
    · exact fields_of_decodeN h hc rfl
  cases h

/-- A word with the opcode and the offset of a command, and zeros above them, decodes to that command (R95). -/
theorem decode_of_fields {w : Word} {i : Instr} (hopc : w.toNat % 256 = i.opcode)
    (hoff : w.toNat / 256 % 64 = i.off) (hz : w.toNat / 2 ^ 14 = 0) : decode w = .command i := by
  have hN (h0 : i.off = 0) : decodeN w i = .command i := by rw [decodeN_eq, if_pos (by omega)]
  have hS {form : Nat → Instr} (hform : form i.off = i) : decodeS w form = .command i := by
    rw [decodeS_eq, if_pos hz, hoff, hform]
  rw [decode_eq, hopc]
  cases i with
  | s20Xor | s20Ks | xs20Xor | xs20Ks => exact hS rfl
  | _ => exact hN rfl

/-- What the decoder answers, by the fields of the word (R93, R95). -/
theorem decode_eq_command_iff (w : Word) (i : Instr) : decode w = .command i ↔
    w.toNat % 256 = i.opcode ∧ w.toNat / 256 % 64 = i.off ∧ w.toNat / 2 ^ 14 = 0 :=
  ⟨fields_of_decode, fun ⟨hopc, hoff, hz⟩ => decode_of_fields hopc hoff hz⟩

/-- The decoder gives back what the encoder was given (R95, R105). -/
theorem decode_encode {i : Instr} (h : i.wellFormed = true) : decode (encode i) = .command i :=
  (decode_eq_command_iff _ i).2 (Laws.EncodeFields.of_opcode (opcode_lt i) h)

/-- Settles O2, from `decode_encode`. -/
theorem decodeEncodeRoundTrip : Obligations.DecodeEncodeRoundTrip := by
  unfold Obligations.DecodeEncodeRoundTrip
  exact fun i hi => decode_encode hi

/-- Settles O1: each word is the encoding of its command. -/
theorem specWordsDecode : Obligations.SpecWordsDecode := by
  unfold Obligations.SpecWordsDecode
  exact ⟨decode_encode (i := .nop) rfl, decode_encode (i := .core) rfl, decode_encode (i := .hsal) rfl,
    decode_encode (i := .s20Xor 0) rfl, decode_encode (i := .s20Ks 60) rfl, decode_encode (i := .xs20Xor 32) rfl,
    decode_encode (i := .xs20Ks 63) rfl, decode_encode (i := .p1305Auth) rfl, decode_encode (i := .p1305Vfy) rfl,
    decode_encode (i := .ceq16) rfl, decode_encode (i := .ceq32) rfl, decode_encode (i := .srst) rfl⟩

/-! ### The match and the mask of a row (R95) -/

/-- The mask of format S takes out bits 13:8 of a word (R95). -/
theorem toNat_and_streamMask (w : Word) :
    (w &&& 0xFFFFC0FF).toNat = 2 ^ 14 * (w.toNat / 2 ^ 14) + w.toNat % 2 ^ 8 := by
  have hmask : ∀ j < 32, (0xFFFFC0FF : Word).getLsbD j = decide (j < 8 ∨ 14 ≤ j) := by decide
  refine Nat.eq_of_testBit_eq fun j => ?_
  rw [Nat.testBit_two_pow_mul_add _ (by omega), Nat.testBit_mod_two_pow, Nat.testBit_div_two_pow, BitVec.testBit_toNat,
    BitVec.testBit_toNat, BitVec.testBit_toNat, BitVec.getLsbD_and]
  by_cases h32 : j < 32
  · rw [hmask j h32]
    by_cases h14 : j < 14
    · simp [h14, Nat.not_le.2 h14, Bool.and_comm]
    · simp [h14, Nat.not_lt.1 h14]
  · simp [show ¬ j < 14 by omega, show 14 ≤ j by omega, BitVec.getLsbD_of_ge w j (by omega)]

/-- A word matches the row of a command exactly when its number is the opcode, bits 13:8 left out for format S. -/
theorem and_rowMask_eq_iff (w : Word) (i : Instr) : w &&& rowMask i = BitVec.ofNat 32 i.opcode ↔
    (if isStream i then 2 ^ 14 * (w.toNat / 2 ^ 14) + w.toNat % 2 ^ 8 else w.toNat) = i.opcode := by
  have hlt := opcode_lt i
  have hopc : (BitVec.ofNat 32 i.opcode).toNat = i.opcode := by
    rw [BitVec.toNat_ofNat, Nat.mod_eq_of_lt (by omega)]
  rw [← BitVec.toNat_inj, hopc, rowMask]
  cases isStream i with
  | true => simp only [if_true, toNat_and_streamMask]
  | false =>
    have hones : (0xFFFFFFFF : Word) = BitVec.allOnes 32 := rfl
    rw [if_neg Bool.false_ne_true, if_neg Bool.false_ne_true, hones, BitVec.and_allOnes]

/-- Settles O3: both sides fix the fields of the word, by `decode_eq_command_iff` and `and_rowMask_eq_iff`. -/
theorem decodeSelectsTheMatchingRow : Obligations.DecodeSelectsTheMatchingRow := by
  unfold Obligations.DecodeSelectsTheMatchingRow
  intro w i
  rw [decode_eq_command_iff, and_rowMask_eq_iff]
  have hlt := opcode_lt i
  cases hs : isStream i with
  | true =>
    simp only [if_true, true_imp_iff]
    omega
  | false =>
    have hoff := off_eq_zero_of_not_stream hs
    rw [if_neg Bool.false_ne_true, and_iff_left (fun h => absurd h Bool.false_ne_true)]
    omega

/-! ### The text of a command line (R105) -/

/-- A line without a semicolon has no comment. -/
theorem uncomment_of_not_mem {l : List Char} (h : ';' ∉ l) : uncomment l = l := by
  induction l with
  | nil => rfl
  | cons c l ih =>
    obtain ⟨hc, hl⟩ := List.ne_and_not_mem_of_not_mem_cons h
    rw [uncomment, if_neg hc.symm, ih hl]

/-- A comment is left out. -/
theorem uncomment_append_comment {l : List Char} (h : ';' ∉ l) (comment : List Char) :
    uncomment (l ++ ';' :: comment) = l := by
  induction l with
  | nil => rfl
  | cons c l ih =>
    obtain ⟨hc, hl⟩ := List.ne_and_not_mem_of_not_mem_cons h
    rw [List.cons_append, uncomment, if_neg hc.symm, ih hl]

/-- Characters that are no spaces go to the word being read. -/
theorem splitWords_append {w : List Char} (h : ' ' ∉ w) (cur l : List Char) :
    splitWords cur (w ++ l) = splitWords (w.reverse ++ cur) l := by
  induction w generalizing cur with
  | nil => rfl
  | cons c w ih =>
    obtain ⟨hc, hw⟩ := List.ne_and_not_mem_of_not_mem_cons h
    rw [List.cons_append, splitWords, if_neg hc.symm, ih hw, List.reverse_cons, List.append_assoc, List.singleton_append]

/-- Characters without a space are one word. -/
theorem splitWords_word {w : List Char} (h : ' ' ∉ w) (h0 : w ≠ []) : splitWords [] w = [w] := by
  have hw := splitWords_append h [] []
  rw [List.append_nil, List.append_nil] at hw
  rw [hw, splitWords, if_neg (by simpa using h0), List.reverse_reverse]

/-- A space ends a word. -/
theorem splitWords_word_space {w : List Char} (h : ' ' ∉ w) (h0 : w ≠ []) (l : List Char) :
    splitWords [] (w ++ ' ' :: l) = w :: splitWords [] l := by
  rw [splitWords_append h, List.append_nil, splitWords, if_pos rfl, if_neg (by simpa using h0), List.reverse_reverse]

/-- Characters that can stand in a word of a line: no space and no semicolon, and at least one. -/
def IsWord (w : List Char) : Prop := w ≠ [] ∧ ' ' ∉ w ∧ ';' ∉ w

/-- A line of one word is a mnemonic without an operand. -/
theorem parseCommand_word {m : List Char} (hm : IsWord m) : parseCommand m = commandOf m none := by
  obtain ⟨h0, hspace, hsemi⟩ := hm
  rw [parseCommand, uncomment_of_not_mem hsemi, splitWords_word hspace h0]

/-- A line of two words is a mnemonic and an offset. -/
theorem parseCommand_two_words {m n : List Char} (hm : IsWord m) (hn : IsWord n) :
    parseCommand (m ++ ' ' :: n) = (numeral n).bind fun off => commandOf m (some off) := by
  obtain ⟨hm0, hmspace, hmsemi⟩ := hm
  obtain ⟨hn0, hnspace, hnsemi⟩ := hn
  have hsemi : ';' ∉ m ++ ' ' :: n := by simp [hmsemi, hnsemi]
  rw [parseCommand, uncomment_of_not_mem hsemi, splitWords_word_space hmspace hm0, splitWords_word hnspace hn0]
  cases hv : numeral n <;> simp only [hv, Option.bind]

/-- A comment after a semicolon changes nothing. -/
theorem parseCommand_append_comment {text : List Char} (h : ';' ∉ text) (comment : List Char) :
    parseCommand (text ++ ';' :: comment) = parseCommand text := by
  rw [parseCommand, parseCommand, uncomment_append_comment h, uncomment_of_not_mem h]

/-! ### Numerals (R105) -/

/-- The value of the digits of a number, first digit first, after the value `acc` of those before. -/
theorem digitsValue_map_digitChar {base : Nat} (hbase : ∀ d < base, digitValue base (Nat.digitChar d) = some d)
    {digits : List Nat} (h : ∀ d ∈ digits, d < base) (acc : Nat) :
    digitsValue base acc (digits.map Nat.digitChar) = some (digits.foldl (fun v d => base * v + d) acc) := by
  induction digits generalizing acc with
  | nil => rfl
  | cons d ds ih =>
    obtain ⟨hd, hds⟩ := List.forall_mem_cons.1 h
    simp only [List.map_cons, digitsValue, hbase d hd, ih hds, List.foldl_cons, Nat.mul_comm acc]

/-- The bases a number may have (R105). -/
def numberBases : List NumberBase := [⟨10, []⟩, ⟨16, ['0', 'x']⟩]

/-- The characters of a numeral: its mark and its digits. -/
def NumberBase.text (b : NumberBase) (digits : List Nat) : List Char := b.mark ++ digits.map Nat.digitChar

/-- Characters with no `x` among them are a decimal number. -/
theorem numeral_of_no_x {l : List Char} (h0 : l ≠ []) (h : 'x' ∉ l) : numeral l = digitsValue 10 0 l := by
  unfold numeral
  split
  · simp at h
  · rfl
  · exact absurd rfl h0

/-- Characters after `0x` are a hex number. -/
theorem numeral_hex {l : List Char} (h0 : l ≠ []) : numeral ('0' :: 'x' :: l) = digitsValue 16 0 l := by
  cases l with
  | nil => exact absurd rfl h0
  | cons c cs => rfl

/-- A decimal digit has its own value. -/
theorem digitValue_decimal : ∀ d < 10, digitValue 10 (Nat.digitChar d) = some d := by decide

/-- A hex digit has its own value. -/
theorem digitValue_hex : ∀ d < 16, digitValue 16 (Nat.digitChar d) = some d := by decide

/-- No digit stands as a space, a semicolon or an `x`. -/
theorem not_mem_map_digitChar {c : Char} (hc : c ∈ [' ', ';', 'x']) {digits : List Nat} (h : ∀ d ∈ digits, d < 16) :
    c ∉ digits.map Nat.digitChar := by
  have hdigit : ∀ d < 16, Nat.digitChar d ∉ [' ', ';', 'x'] := by decide
  rw [List.mem_map]
  rintro ⟨d, hd, rfl⟩
  exact hdigit d (h d hd) hc

/-- The bases are at most 16. -/
theorem base_le_of_mem : ∀ b ∈ numberBases, b.base ≤ 16 := by decide

/-- A numeral reads as its value (R105). -/
theorem numeral_text {b : NumberBase} (hb : b ∈ numberBases) {digits : List Nat} (h0 : digits ≠ [])
    (h : ∀ d ∈ digits, d < b.base) :
    numeral (b.text digits) = some (digits.foldl (fun v d => b.base * v + d) 0) := by
  have hmap : digits.map Nat.digitChar ≠ [] := by simpa using h0
  have hx : 'x' ∉ digits.map Nat.digitChar :=
    not_mem_map_digitChar (by decide) fun d hd => Nat.lt_of_lt_of_le (h d hd) (base_le_of_mem b hb)
  simp only [numberBases, List.mem_cons, List.not_mem_nil, or_false] at hb
  rcases hb with rfl | rfl
  · exact (numeral_of_no_x hmap hx).trans (digitsValue_map_digitChar digitValue_decimal h 0)
  · exact (numeral_hex hmap).trans (digitsValue_map_digitChar digitValue_hex h 0)

/-- A numeral is one word of a line. -/
theorem isWord_text {b : NumberBase} (hb : b ∈ numberBases) {digits : List Nat} (h0 : digits ≠ [])
    (h : ∀ d ∈ digits, d < b.base) : IsWord (b.text digits) := by
  have hmark : ∀ b ∈ numberBases, ' ' ∉ b.mark ∧ ';' ∉ b.mark := by decide
  obtain ⟨hspace, hsemi⟩ := hmark b hb
  have hlt (d : Nat) (hd : d ∈ digits) : d < 16 := Nat.lt_of_lt_of_le (h d hd) (base_le_of_mem b hb)
  exact ⟨by simp [NumberBase.text, h0], List.not_mem_append hspace (not_mem_map_digitChar (by decide) hlt),
    List.not_mem_append hsemi (not_mem_map_digitChar (by decide) hlt)⟩

/-! ### The command lines (R95, R105) -/

/-- The mnemonic of a format N command alone is the command, and no offset goes with it. -/
theorem commandOf_plainLine : ∀ p ∈ plainLines, commandOf p.text none = some p.instr ∧
    ∀ off, commandOf p.text (some off) = none := by
  simp only [plainLines, List.forall_mem_cons, List.not_mem_nil, false_imp_iff, implies_true, and_true]
  exact ⟨⟨rfl, fun _ => rfl⟩, ⟨rfl, fun _ => rfl⟩, ⟨rfl, fun _ => rfl⟩, ⟨rfl, fun _ => rfl⟩, ⟨rfl, fun _ => rfl⟩,
    ⟨rfl, fun _ => rfl⟩, ⟨rfl, fun _ => rfl⟩, ⟨rfl, fun _ => rfl⟩⟩

/-- The text of a format N line is one word, and its opcode the encoding of its command. -/
theorem plainLine_facts : ∀ p ∈ plainLines, p.instr.wellFormed = true ∧ encode p.instr = p.opcode ∧ p.text ≠ [] ∧
    ' ' ∉ p.text ∧ ';' ∉ p.text := by decide

/-- The mnemonic of a stream command is the command of the offset that goes with it, 0 if none does. -/
theorem commandOf_streamLine : ∀ p ∈ streamLines, commandOf p.text none = some (p.form 0) ∧
    ∀ off, commandOf p.text (some off) = some (p.form off) := by
  simp only [streamLines, List.forall_mem_cons, List.not_mem_nil, false_imp_iff, implies_true, and_true]
  exact ⟨⟨rfl, fun _ => rfl⟩, ⟨rfl, fun _ => rfl⟩, ⟨rfl, fun _ => rfl⟩, ⟨rfl, fun _ => rfl⟩⟩

/-- The command of a stream line has the opcode of the line and the offset it was given. -/
theorem streamLine_form : ∀ p ∈ streamLines, ∀ off, (p.form off).opcode = p.opcode ∧ (p.form off).off = off := by
  simp only [streamLines, List.forall_mem_cons, List.not_mem_nil, false_imp_iff, implies_true, and_true]
  exact ⟨fun _ => ⟨rfl, rfl⟩, fun _ => ⟨rfl, rfl⟩, fun _ => ⟨rfl, rfl⟩, fun _ => ⟨rfl, rfl⟩⟩

/-- The text of a format S line is one word. -/
theorem streamLine_isWord : ∀ p ∈ streamLines, IsWord p.text := by
  simp only [streamLines, List.forall_mem_cons, List.not_mem_nil, false_imp_iff, implies_true, and_true, IsWord]
  decide

/-- A line that reads as a command that can be encoded assembles to its encoding. -/
theorem assembleLine_of_wellFormed {line : List Char} {i : Instr} (h : parseCommand line = some i)
    (hi : i.wellFormed = true) : assembleLine line = some (encode i) := by
  simp only [assembleLine, h, assemble, hi, if_true]

/-- A line that reads as a command with an offset above 63 does not assemble. -/
theorem assembleLine_of_not_wellFormed {line : List Char} {i : Instr} (h : parseCommand line = some i)
    (hi : ¬ i.wellFormed = true) : assembleLine line = none := by
  simp only [assembleLine, h, assemble, if_neg hi]

theorem wellFormed_iff (i : Instr) : i.wellFormed = true ↔ i.off ≤ 63 := decide_eq_true_iff

/-- A stream line with its numeral reads as the command with that offset. -/
theorem parseCommand_streamLine {p : StreamLine} (hp : p ∈ streamLines) {b : NumberBase} (hb : b ∈ numberBases)
    {digits : List Nat} (h0 : digits ≠ []) (h : ∀ d ∈ digits, d < b.base) :
    parseCommand (p.text ++ ' ' :: b.text digits) =
      some (p.form (digits.foldl (fun v d => b.base * v + d) 0)) := by
  obtain ⟨-, hsome⟩ := commandOf_streamLine p hp
  rw [parseCommand_two_words (streamLine_isWord p hp) (isWord_text hb h0 h), numeral_text hb h0 h, Option.bind_some,
    hsome]

/-- The encoding of the command of a stream line is `OPC + 256*off` (R105). -/
theorem encode_streamLine {p : StreamLine} (hp : p ∈ streamLines) (off : Nat) :
    encode (p.form off) = BitVec.ofNat 32 (p.opcode + 256 * off) := by
  obtain ⟨hopc, hoff⟩ := streamLine_form p hp off
  rw [encode, hopc, hoff]

/-- An offset of at most 63 can be encoded with a stream command, and no other. -/
theorem wellFormed_streamLine {p : StreamLine} (hp : p ∈ streamLines) (off : Nat) :
    (p.form off).wellFormed = true ↔ off ≤ 63 := by
  obtain ⟨-, hoff⟩ := streamLine_form p hp off
  rw [wellFormed_iff, hoff]

/-- A stream line that reads as the command with an offset assembles exactly when the offset is at most 63. -/
theorem assembleLine_streamLine {p : StreamLine} (hp : p ∈ streamLines) {line : List Char} {off : Nat}
    (h : parseCommand line = some (p.form off)) :
    (off ≤ 63 → assembleLine line = some (BitVec.ofNat 32 (p.opcode + 256 * off)) ∧
      (BitVec.ofNat 32 (p.opcode + 256 * off)).toNat = p.opcode + 256 * off ∧
      decode (BitVec.ofNat 32 (p.opcode + 256 * off)) = .command (p.form off)) ∧
    (63 < off → assembleLine line = none) := by
  rw [← encode_streamLine hp]
  have hwf := wellFormed_streamLine hp off
  refine ⟨fun hle => ⟨assembleLine_of_wellFormed h (hwf.2 hle), ?_, decode_encode (hwf.2 hle)⟩, fun hlt =>
    assembleLine_of_not_wellFormed h fun hi => Nat.not_le.2 hlt (hwf.1 hi)⟩
  obtain ⟨hopc, -⟩ := streamLine_form p hp off
  have hbyte := opcode_lt (p.form off)
  rw [encode_streamLine hp, BitVec.toNat_ofNat, Nat.mod_eq_of_lt (by omega)]

/-- Settles O4: the words of a line are its mnemonic and its numeral, the numeral reads as its value, and what the
line reads as is assembled by the encoder. -/
theorem assembledTextDecodes : Obligations.AssembledTextDecodes := by
  unfold Obligations.AssembledTextDecodes
  refine ⟨fun p hp => ?_, fun p hp => ?_, fun text comment h => parseCommand_append_comment h comment⟩
  · obtain ⟨hwf, henc, hword⟩ := plainLine_facts p hp
    obtain ⟨hnone, hsome⟩ := commandOf_plainLine p hp
    have hparse : parseCommand p.text = some p.instr := (parseCommand_word hword).trans hnone
    rw [← henc]
    refine ⟨hparse, assembleLine_of_wellFormed hparse hwf, decode_encode hwf, fun operand h0 hspace hsemi => ?_⟩
    rw [parseCommand_two_words hword ⟨h0, hspace, hsemi⟩]
    cases numeral operand with
    | none => rfl
    | some off => exact hsome off
  · obtain ⟨hnone, -⟩ := commandOf_streamLine p hp
    have hparse : parseCommand p.text = some (p.form 0) := (parseCommand_word (streamLine_isWord p hp)).trans hnone
    obtain ⟨hasm, -, hdec⟩ := (assembleLine_streamLine hp hparse).1 (by decide)
    exact ⟨hparse, hasm, hdec, fun b hb digits h0 h =>
      have hline := parseCommand_streamLine hp hb h0 h
      ⟨hline, assembleLine_streamLine hp hline⟩⟩

/-! ### Runs of the host's register writes and reads (R41, R110) -/

/-- The row of a register gives its first offset and its size. -/
theorem regBase_regWords_of_mem : ∀ row ∈ window, regBase row.reg = row.base ∧ regWords row.reg = row.words := by decide

/-- A register write does not look at the host's list. -/
theorem State.writeReg_setPending (s : State) (rest : List HostTxn) (r : Reg) (k : Nat) (w : Word) :
    (s.setPending rest).writeReg r k w = (s.writeReg r k w).setPending rest := by
  cases r <;> rfl

/-- The byte string with the first n of the words ws put into it, word 0 first. -/
def putWords {m : Nat} (b : Bytes m) (ws : Nat → Word) (n : Nat) : Bytes m :=
  (List.range n).foldl (fun b j => putWord b j (ws j)) b

theorem putWords_succ {m : Nat} (b : Bytes m) (ws : Nat → Word) (n : Nat) :
    putWords b ws (n + 1) = putWord (putWords b ws n) n (ws n) := by
  rw [putWords, List.range_succ, List.foldl_append, List.foldl_cons, List.foldl_nil, putWords]

/-- Byte i of the string after n words: that of word i / 4 if it was put, or the old one. -/
theorem getElem_putWords {m : Nat} (b : Bytes m) (ws : Nat → Word) (n i : Nat) (h : i < m) :
    (putWords b ws n)[i] = if i / 4 < n then st32Byte (ws (i / 4)) (i % 4) else b[i] := by
  induction n with
  | zero => rfl
  | succ n ih =>
    simp only [putWords_succ, getElem_putWord, ih]
    by_cases heq : i / 4 = n
    · rw [if_pos heq, if_pos (by omega), heq]
    · rw [if_neg heq]
      exact if_congr (by omega) rfl rfl

/-- Byte r of the word `le32(B[4k..4k+3])` is byte 4k + r of B (R10). -/
theorem st32Byte_le32_of_lt (B : Nat → Byte) (k : Nat) {r : Nat} (hr : r < 4) :
    st32Byte (le32 (B (4 * k)) (B (4 * k + 1)) (B (4 * k + 2)) (B (4 * k + 3))) r = B (4 * k + r) := by
  obtain ⟨h0, h1, h2, h3⟩ := st32Byte_le32 (B (4 * k)) (B (4 * k + 1)) (B (4 * k + 2)) (B (4 * k + 3))
  match r with
  | 0 => exact h0
  | 1 => exact h1
  | 2 => exact h2
  | 3 => exact h3

/-- Byte r of word j of the bytes of `ldb` is byte 4j + r of them (R111). -/
theorem st32Byte_ldbWord (bytes : List Byte) (j : Nat) {r : Nat} (hr : r < 4) :
    st32Byte (ldbWord bytes j) r = bytes.getD (4 * j + r) 0 :=
  st32Byte_le32_of_lt (fun i => bytes.getD i 0) j hr

/-- The words of whole-word bytes, put from word 0 on, lay the bytes over the string from index 0 on (R111). -/
theorem putWords_ldbWord {m : Nat} (b : Bytes m) {bytes : List Byte} (h4 : bytes.length % 4 = 0) :
    putWords b (ldbWord bytes) (bytes.length / 4) = overlay bytes b := by
  refine Vector.ext fun i hi => ?_
  rw [getElem_putWords _ _ _ _ hi, st32Byte_ldbWord _ _ (by omega), Nat.div_add_mod]
  simp only [overlay, Vector.getElem_ofFn]
  by_cases hlt : i < bytes.length
  · rw [if_pos (by omega), List.getD_eq_getElem _ _ hlt, List.getD_eq_getElem _ _ hlt]
  · rw [if_neg (by omega), List.getD_eq_default _ _ (by omega)]
    rfl

/-- The step of a write at `REG + 4k`. -/
theorem step_wrTxn {row : WindowRow} (hm : row ∈ window) (hc : row.reg ≠ .cmd) {k : Nat} (hk : k < row.words)
    (w : Word) (s : State) (rest : List HostTxn) :
    step (s.setPending (wrTxn row.reg (4 * k) w :: rest)) = .next ((s.writeReg row.reg k w).setPending rest) := by
  obtain ⟨hbase, -⟩ := regBase_regWords_of_mem row hm
  rw [wrTxn, hbase, ← State.writeReg_setPending]
  exact writesTo_word hm hc hk w s rest

/-- The first n words of a register written one after another: `upd` puts a byte string into the register. -/
theorem run_wrTxns {row : WindowRow} (hm : row ∈ window) (hc : row.reg ≠ .cmd) {m : Nat} {upd : Bytes m → State}
    (hupd : ∀ b k w, (upd b).writeReg row.reg k w = upd (putWord b k w)) (b : Bytes m) (ws : Nat → Word) {n : Nat}
    (hn : n ≤ row.words) (rest : List HostTxn) :
    Host.Core.run Sys2Proof.core n
        ((upd b).setPending (((List.range n).map fun j => wrTxn row.reg (4 * j) (ws j)) ++ rest)) =
      .next ((upd (putWords b ws n)).setPending rest) := by
  induction n generalizing rest with
  | zero => exact run_zero _
  | succ n ih =>
    have hstep := step_wrTxn hm hc (k := n) (by omega) (ws n) (upd (putWords b ws n)) rest
    rw [hupd, ← putWords_succ] at hstep
    rw [List.range_succ, List.map_append, List.append_assoc, run_add (ih (by omega) _)]
    exact run_succ hstep 0

/-! ### The pseudo-instruction `ldb` (R111) -/

/-- `ldb` of whole words that fit the register is one write a word. -/
theorem expand_ldb {row : WindowRow} (hm : row ∈ window) {bytes : List Byte} (h4 : bytes.length % 4 = 0)
    (hlen : bytes.length ≤ 4 * row.words) : (HostStmt.ldb row.reg bytes).expand =
      some ((List.range (bytes.length / 4)).map fun j => wrTxn row.reg (4 * j) (ldbWord bytes j)) := by
  obtain ⟨-, hwords⟩ := regBase_regWords_of_mem row hm
  rw [HostStmt.expand, if_pos ⟨h4, by rwa [hwords]⟩]

/-- `ldb` lays its bytes over a register, where `upd` puts a byte string into the register. -/
theorem loadsTo_of_row {row : WindowRow} (hm : row ∈ window) (hc : row.reg ≠ .cmd) {m : Nat} {upd : Bytes m → State}
    (hupd : ∀ b k w, (upd b).writeReg row.reg k w = upd (putWord b k w)) (b : Bytes m) {bytes : List Byte}
    (h4 : bytes.length % 4 = 0) (hlen : bytes.length ≤ 4 * row.words) (rest : List HostTxn) :
    LoadsTo row.reg bytes (upd b) rest { upd (overlay bytes b) with pending := rest } := by
  refine ⟨_, expand_ldb hm h4 hlen, by simp, ?_⟩
  rw [List.length_map, List.length_range, ← putWords_ldbWord b h4]
  exact run_wrTxns hm hc hupd b _ (by omega) rest

/-- Settles O44: each register is a row of the map, and a write of its word k is `putWord` at k. -/
theorem loadBytesFillsTheRegister : Obligations.LoadBytesFillsTheRegister := by
  unfold Obligations.LoadBytesFillsTheRegister
  refine fun bytes s rest h4 => ⟨?_, ?_, ?_, ?_, ?_, ?_, ?_, ?_⟩
  · exact fun h => loadsTo_of_row (row := ⟨.key, 0x020, 8⟩) (upd := fun b => { s with key := b }) (by decide) nofun
      (fun _ _ _ => rfl) s.key h4 h rest
  · exact fun h => loadsTo_of_row (row := ⟨.inp, 0x040, 4⟩) (upd := fun b => { s with inp := b }) (by decide) nofun
      (fun _ _ _ => rfl) s.inp h4 h rest
  · exact fun h => loadsTo_of_row (row := ⟨.const, 0x050, 4⟩) (upd := fun b => { s with const := b }) (by decide) nofun
      (fun _ _ _ => rfl) s.const h4 h rest
  · exact fun h => loadsTo_of_row (row := ⟨.nonce, 0x060, 6⟩) (upd := fun b => { s with nonce := b }) (by decide) nofun
      (fun _ _ _ => rfl) s.nonce h4 h rest
  · exact fun h => loadsTo_of_row (row := ⟨.pkey, 0x0C0, 8⟩) (upd := fun b => { s with pkey := b }) (by decide) nofun
      (fun _ _ _ => rfl) s.pkey h4 h rest
  · exact fun h => loadsTo_of_row (row := ⟨.tagx, 0x0F0, 4⟩) (upd := fun b => { s with tagx := b }) (by decide) nofun
      (fun _ _ _ => rfl) s.tagx h4 h rest
  · exact fun h => loadsTo_of_row (row := ⟨.ca, 0x100, 8⟩) (upd := fun b => { s with ca := b }) (by decide) nofun
      (fun _ _ _ => rfl) s.ca h4 h rest
  · exact fun h => loadsTo_of_row (row := ⟨.cb, 0x120, 8⟩) (upd := fun b => { s with cb := b }) (by decide) nofun
      (fun _ _ _ => rfl) s.cb h4 h rest

/-! ### What the reads of a statement yield (R110, R111) -/

/-- The transaction reads the value v from the block of s, and changes the host's lists only. -/
def Reads (s : State) (x : HostTxn) (v : HostRead) : Prop :=
  ∀ reads rest, step { s with pending := x :: rest, reads := reads } =
    .next { s with pending := rest, reads := reads ++ [v] }

/-- A read of word k of a register reads it. -/
theorem reads_rdTxn {row : WindowRow} (hm : row ∈ window) {k : Nat} (hk : k < row.words) (s : State) :
    Reads s (rdTxn row.reg (4 * k)) (.word (s.readReg row.reg k)) := by
  intro reads rest
  obtain ⟨hbase, -⟩ := regBase_regWords_of_mem row hm
  obtain ⟨-, ha⟩ := regAt_word hm hk
  rw [rdTxn, hbase, ← s.readWindow_word hm hk]
  exact step_regRead { s with reads := reads } rest ha

/-- A read of a byte of DMEM that exists reads it. -/
theorem reads_memRead {s : State} {a : Nat} (ha : a < s.dmemBytes) : Reads s (.memRead a) (.byte (Dmem.read s.dmem a)) :=
  fun reads rest => step_of_memRead (s := { s with pending := .memRead a :: rest, reads := reads }) rfl ha

/-- Reads one after another add what they read to the host's record, and change nothing of the block. -/
theorem run_reads {s : State} {xs : List HostTxn} {vs : List HostRead} (h : List.Forall₂ (Reads s) xs vs)
    (reads : List HostRead) (rest : List HostTxn) :
    Host.Core.run Sys2Proof.core xs.length { s with pending := xs ++ rest, reads := reads } =
      .next { s with pending := rest, reads := reads ++ vs } := by
  induction h generalizing reads with
  | nil =>
    rw [List.append_nil]
    exact run_zero _
  | @cons x v xs vs hx _ ih =>
    have hrest := ih (reads ++ [v])
    rw [List.append_assoc, List.singleton_append] at hrest
    exact (run_succ (hx reads (xs ++ rest)) xs.length).trans hrest

/-- A statement that expands to reads yields the bytes of what they read. -/
theorem yieldsBytes_of_reads {p : HostStmt} {s : State} {n : Nat} {x : Nat → HostTxn} {v : Nat → HostRead}
    (hp : p.expand = some ((List.range n).map x)) (h : ∀ j < n, Reads s (x j) (v j)) (rest : List HostTxn) :
    YieldsBytes p s rest ((List.range n).flatMap fun j => (v j).bytes) := by
  have hall : List.Forall₂ (Reads s) ((List.range n).map x) ((List.range n).map v) := by
    rw [List.forall₂_map_left_iff, List.forall₂_map_right_iff, List.forall₂_same]
    exact fun j hj => h j (List.mem_range.1 hj)
  refine ⟨_, _, hp, run_reads hall s.reads rest, rfl, ?_⟩
  simp only [yielded, List.drop_left, List.flatMap_map]

/-- `mrd` yields the bytes of DMEM, where they exist (R110). -/
theorem yieldsBytes_mrd {s : State} {addr n : Nat} (h : n = 0 ∨ addr + n ≤ s.dmemBytes) (rest : List HostTxn) :
    YieldsBytes (.mrd addr n) s rest (Dmem.readBytes s.dmem addr n) := by
  have hread (j : Nat) (hj : j < n) : Reads s (.memRead (addr + j)) (.byte (Dmem.read s.dmem (addr + j))) :=
    reads_memRead (by omega)
  rw [Dmem.readBytes, List.map_eq_flatMap]
  exact yieldsBytes_of_reads rfl hread rest

/-- `rdb` yields the words of a register, each by `st32` (R111). -/
theorem yieldsBytes_rdb {row : WindowRow} (hm : row ∈ window) (s : State) (rest : List HostTxn) :
    YieldsBytes (.rdb row.reg) s rest ((List.range row.words).flatMap fun j => st32Bytes (s.readReg row.reg j)) := by
  obtain ⟨-, hwords⟩ := regBase_regWords_of_mem row hm
  exact yieldsBytes_of_reads (by rw [HostStmt.expand, hwords]) (fun j hj => reads_rdTxn hm hj s) rest

/-! ### The bytes of a register (R10, R41) -/

/-- The bytes of word k of a byte string stand in it from 4k on (R41). -/
theorem st32Bytes_wordAt {n : Nat} (b : Bytes n) (k : Nat) :
    st32Bytes (wordAt b k) = (List.range 4).map fun r => b.getD (4 * k + r) 0 :=
  List.map_congr_left fun _ hr => st32Byte_le32_of_lt (fun i => b.getD i 0) k (List.mem_range.1 hr)

/-- The bytes of the first m words of a byte string are its first 4m bytes (R41). -/
theorem flatMap_st32Bytes_wordAt {n : Nat} (b : Bytes n) (m : Nat) :
    ((List.range m).flatMap fun k => st32Bytes (wordAt b k)) = (List.range (4 * m)).map fun i => b.getD i 0 := by
  induction m with
  | zero => rfl
  | succ m ih =>
    rw [List.range_succ, List.flatMap_append, ih, List.flatMap_singleton, st32Bytes_wordAt, Nat.mul_succ,
      List.range_add, List.map_append, List.map_map]
    rfl

/-- A byte string of whole words is the bytes of its words, byte 0 first (R41). -/
theorem flatMap_st32Bytes_eq_toList {n m : Nat} (b : Bytes n) (h : n = 4 * m) :
    ((List.range m).flatMap fun k => st32Bytes (wordAt b k)) = b.toList := by
  rw [flatMap_st32Bytes_wordAt, ← h]
  refine List.ext_getElem (by simp) fun i hi _ => ?_
  have hin : i < n := by simpa using hi
  rw [List.getElem_map, List.getElem_range, getD_of_lt b 0 hin, Vector.getElem_toList]

/-- `st32` of a word is `st_4` of its number (R10). -/
theorem st32Bytes_eq (w : Word) : st32Bytes w = (stBytes 4 w.toNat).toList := by
  refine List.ext_getElem (by simp [st32Bytes]) fun i hi _ => ?_
  have h4 : i < 4 := by simpa [st32Bytes] using hi
  apply BitVec.eq_of_toNat_eq
  simp only [st32Bytes, List.getElem_map, List.getElem_range, toNat_st32Byte, Vector.getElem_toList,
    getElem_stBytes _ _ _ h4, BitVec.toNat_ofNat]

/-- `rdb` of a byte register yields the register (R111). -/
theorem yieldsBytes_rdb_bytes {row : WindowRow} (hm : row ∈ window) {s : State} {n : Nat} {b : Bytes n}
    (hread : ∀ k, s.readReg row.reg k = wordAt b k) (hn : n = 4 * row.words) (rest : List HostTxn) :
    YieldsBytes (.rdb row.reg) s rest b.toList := by
  have h := yieldsBytes_rdb hm s rest
  simp only [hread] at h
  rwa [flatMap_st32Bytes_eq_toList b hn] at h

/-- `rdb` of a register of one word yields `st32` of it (R111). -/
theorem yieldsBytes_rdb_word {row : WindowRow} (hm : row ∈ window) (hone : row.words = 1) {s : State} {v : Nat}
    (hread : (s.readReg row.reg 0).toNat = v) (rest : List HostTxn) :
    YieldsBytes (.rdb row.reg) s rest (stBytes 4 v).toList := by
  have h := yieldsBytes_rdb hm s rest
  rw [hone, List.range_one, List.flatMap_singleton, st32Bytes_eq, hread] at h
  exact h

/-! ### The accesses of the statements (R105, R110, R111) -/

/-- The first offset of each register is a multiple of 4 (R41). -/
theorem regBase_of_mapBases : ∀ p ∈ mapBases, regBase p.1 = p.2 ∧ p.2 % 4 = 0 := by decide

/-- `rd` and `wr` inside the window are the aligned access at `REG + k` (R110). -/
theorem expand_wr_rd {reg : Reg} {k base : Nat} (hm : (reg, base) ∈ mapBases) (hk : k % 4 = 0)
    (hend : base + k < 0x1000) (w : Word) :
    (HostStmt.wr reg k w).expand = some [.regWrite 4 (BitVec.ofNat 12 (base + k)) w] ∧
      (HostStmt.rd reg k).expand = some [.regRead 4 (BitVec.ofNat 12 (base + k))] := by
  obtain ⟨hbase, -⟩ := regBase_of_mapBases _ hm
  have hin : inWindow reg k = true := decide_eq_true ⟨hk, by rwa [hbase]⟩
  simp only [HostStmt.expand, wrTxn, rdTxn, hin, if_true, hbase, and_self]

@[simp] theorem length_mwrTxns (addr : Nat) (bytes : List Byte) : (mwrTxns addr bytes).length = bytes.length := by
  induction bytes generalizing addr with
  | nil => rfl
  | cons b bytes ih => rw [mwrTxns, List.length_cons, List.length_cons, ih]

/-- Byte i of `mwr` goes to addr + i (R110). -/
theorem getElem?_mwrTxns (addr : Nat) (bytes : List Byte) {i : Nat} (h : i < bytes.length) :
    (mwrTxns addr bytes)[i]? = some (.memWrite (addr + i) bytes[i]) := by
  induction bytes generalizing addr i with
  | nil => cases h
  | cons b bytes ih =>
    cases i with
    | zero => rfl
    | succ i =>
      rw [mwrTxns, List.getElem?_cons_succ, ih _ (Nat.lt_of_succ_lt_succ h), List.getElem_cons_succ,
        Nat.add_right_comm, Nat.add_assoc]

/-- A command that can be encoded is the write of its encoding to CMD (R105, R110). -/
theorem expand_command {i : Instr} (h : i.off ≤ 63) :
    (HostStmt.command i).expand = some [.regWrite 4 0x008 (encode i)] := by
  have hcmd (w : Word) : wrTxn .cmd 0 w = .regWrite 4 0x008 w := rfl
  simp only [HostStmt.expand, assemble, (wellFormed_iff i).2 h, if_true, hcmd]

/-- Settles O59: the accesses are the statements' expansions, and what `mrd` and `rdb` yield is what their reads read. -/
theorem hostStatementsReachTheBlock : Obligations.HostStatementsReachTheBlock := by
  unfold Obligations.HostStatementsReachTheBlock
  refine ⟨fun reg k base w hm hk hend => expand_wr_rd hm hk hend w,
    fun addr bytes => ⟨_, rfl, length_mwrTxns addr bytes, fun i h => getElem?_mwrTxns addr bytes h⟩,
    fun s addr n rest h => yieldsBytes_mrd h rest, fun s d n => rfl, rfl, fun i h => expand_command h,
    fun s rest => ⟨⟨?_, ?_, ?_, ?_, ?_, ?_, ?_, ?_, ?_, ?_⟩, ?_, ?_, ?_, ?_, ?_, ?_⟩⟩
  · exact yieldsBytes_rdb_bytes (row := ⟨.key, 0x020, 8⟩) (by decide) (fun _ => rfl) rfl rest
  · exact yieldsBytes_rdb_bytes (row := ⟨.inp, 0x040, 4⟩) (by decide) (fun _ => rfl) rfl rest
  · exact yieldsBytes_rdb_bytes (row := ⟨.const, 0x050, 4⟩) (by decide) (fun _ => rfl) rfl rest
  · exact yieldsBytes_rdb_bytes (row := ⟨.nonce, 0x060, 6⟩) (by decide) (fun _ => rfl) rfl rest
  · exact yieldsBytes_rdb_bytes (row := ⟨.out, 0x080, 16⟩) (by decide) (fun _ => rfl) rfl rest
  · exact yieldsBytes_rdb_bytes (row := ⟨.pkey, 0x0C0, 8⟩) (by decide) (fun _ => rfl) rfl rest
  · exact yieldsBytes_rdb_bytes (row := ⟨.tag, 0x0E0, 4⟩) (by decide) (fun _ => rfl) rfl rest
  · exact yieldsBytes_rdb_bytes (row := ⟨.tagx, 0x0F0, 4⟩) (by decide) (fun _ => rfl) rfl rest
  · exact yieldsBytes_rdb_bytes (row := ⟨.ca, 0x100, 8⟩) (by decide) (fun _ => rfl) rfl rest
  · exact yieldsBytes_rdb_bytes (row := ⟨.cb, 0x120, 8⟩) (by decide) (fun _ => rfl) rfl rest
  · exact yieldsBytes_rdb_word (row := ⟨.id, 0x000, 1⟩) (by decide) rfl rfl rest
  · exact yieldsBytes_rdb_word (row := ⟨.status, 0x004, 1⟩) (by decide) rfl s.toNat_statusWord rest
  · exact yieldsBytes_rdb_word (row := ⟨.cmd, 0x008, 1⟩) (by decide) rfl rfl rest
  · exact yieldsBytes_rdb_word (row := ⟨.src, 0x00C, 1⟩) (by decide) rfl rfl rest
  · exact yieldsBytes_rdb_word (row := ⟨.dst, 0x010, 1⟩) (by decide) rfl rfl rest
  · exact yieldsBytes_rdb_word (row := ⟨.len, 0x014, 1⟩) (by decide) rfl rfl rest

/-! ### The conditional of a host program (R110; log 12) -/

/-- The program of a conditional is the read, the entries of the test and its two parts, and the rest. -/
theorem expandProgram_ifRd {reg : Reg} {k : Nat} {x : HostTxn} (hrd : (HostStmt.rd reg k).expand = some [x])
    (value : Word) {a b r : HostProgram} {ta tb tr : List HostTxn} (ha : expandProgram a = some ta)
    (hb : expandProgram b = some tb) (hr : expandProgram r = some tr) :
    expandProgram (.ifRd reg k value a b r) = some (x :: (branchTxns 0 (.word value) ta tb ++ tr)) := by
  simp only [HostProgram.ifRd, expandProgram, hrd, ha, hb, hr, List.singleton_append]

/-- The test of the value read last goes on with the first part and the jump, or with the second part. -/
theorem step_branchTxns (s : State) (word value : Word) (ta tb rest : List HostTxn) :
    step { s with reads := s.reads ++ [.word word], pending := branchTxns 0 (.word value) ta tb ++ rest } =
      .next { s with
        reads := s.reads ++ [.word word],
        pending := if word = value then ta ++ .skip tb.length :: (tb ++ rest) else tb ++ rest } := by
  have hdrop : (ta ++ .skip tb.length :: (tb ++ rest)).drop (ta.length + 1) = tb ++ rest := by
    rw [← List.drop_drop, List.drop_left]
    rfl
  have htest := step_test (s.pushRead (.word word)) 0 (.word value) (ta.length + 1)
    (ta ++ .skip tb.length :: (tb ++ rest))
  simp only [State.hasRead_zero_pushRead, hdrop, beq_iff_eq, HostRead.word.injEq] at htest
  rw [branchTxns, List.cons_append, List.append_assoc, List.cons_append]
  exact htest

/-- Settles O60: the read is recorded, the test takes one part, and the jump drops the other. -/
theorem hostConditionalTakesOnePart : Obligations.HostConditionalTakesOnePart := by
  unfold Obligations.HostConditionalTakesOnePart
  intro s reg k base value a b r ta tb tr more hm hk hend ha hb hr
  obtain ⟨-, hrd⟩ := expand_wr_rd hm hk hend value
  obtain ⟨-, hbase⟩ := regBase_of_mapBases _ hm
  have halign : (BitVec.ofNat 12 (base + k)).toNat % 4 = 0 := by
    rw [BitVec.toNat_ofNat, Nat.mod_eq_of_lt hend]
    omega
  refine ⟨⟨_, expandProgram_ifRd hrd value ha hb hr, ?_⟩, ?_⟩
  · have hread := step_regRead s (branchTxns 0 (.word value) ta tb ++ (tr ++ more)) halign
    have htest := step_branchTxns s (s.readWindow (BitVec.ofNat 12 (base + k))) value ta tb (tr ++ more)
    rw [List.cons_append, List.append_assoc, List.append_assoc]
    exact (run_succ hread 1).trans (run_succ htest 0)
  · rw [step_skip, List.append_assoc, List.drop_left]

end Sys2Proof.Machine
end

section
/-!
PROOFS. The family 40_salsa20core: CORE adds the words of the state before the rounds back (R126), and the rounds are a
bijection that keeps zero (R125, R129).
-/

namespace Sys2Proof.Machine

/-! ### CORE (R126, R128) -/

/-- Word i of `salsa20_core`: the word after the rounds plus the word before them (R126). -/
theorem wordAt_salsa20Core (input : Bytes 16) (key : Bytes 32) (const : Bytes 16) (i : Fin 16) :
    wordAt (salsa20Core input key const) i.val =
      (rounds20 (loadState input key const))[i] + (loadState input key const)[i] := by
  rw [salsa20Core, wordAt_storeWords _ i.isLt, Vector.getElem_ofFn]

/-- CORE on a block that is not locked (R128). -/
theorem exec_core {s : State} (h : s.statusErr = 0) :
    exec .core s = .next (s.setOut (salsa20Core s.inp s.key s.const)) :=
  unlessLocked_of_unlocked (s.locked_eq_false_iff.2 h) _

/-- Settles O16: CORE sets OUT to the result of the core, word by word the feed-forward. -/
theorem coreAddsTheInputWordsBack : Obligations.CoreAddsTheInputWordsBack := by
  unfold Obligations.CoreAddsTheInputWordsBack
  intro s h
  exact ⟨_, exec_core h, rfl, wordAt_salsa20Core s.inp s.key s.const⟩

/-! ### The quarter-round undone (R122) -/

/-- The four lines of `quarter` undone, the last line first. -/
def quarterInv (q : Quarter) : Quarter :=
  let a := q.a ^^^ rotl32 (q.d + q.c) 18
  let d := q.d ^^^ rotl32 (q.c + q.b) 13
  let c := q.c ^^^ rotl32 (q.b + a) 9
  let b := q.b ^^^ rotl32 (a + d) 7
  ⟨a, b, c, d⟩

/-- Each line XORs onto a word a value of two other words, and XORing it again undoes the line. -/
theorem quarterInv_quarter (q : Quarter) : quarterInv (quarter q) = q := by
  simp [quarterInv, quarter]

theorem quarter_quarterInv (q : Quarter) : quarter (quarterInv q) = q := by
  simp [quarterInv, quarter]

/-! ### A map of four words at four positions -/

/-- The words of x at the positions a, b, c, d. -/
def quarterAt (x : Words 16) (a b c d : Fin 16) : Quarter := ⟨x[a], x[b], x[c], x[d]⟩

/-- The words of q put at the positions a, b, c, d of x. -/
def putQuarter (x : Words 16) (a b c d : Fin 16) (q : Quarter) : Words 16 :=
  (((x.set a q.a).set b q.b).set c q.c).set d q.d

/-- `qr` is `quarter` on the words at its four positions (R122). -/
theorem qr_eq (x : Words 16) (a b c d : Fin 16) : qr x a b c d = putQuarter x a b c d (quarter (quarterAt x a b c d)) :=
  rfl

section
variable {a b c d : Fin 16}

theorem putQuarter_quarterAt (x : Words 16) : putQuarter x a b c d (quarterAt x a b c d) = x := by
  simp [putQuarter, quarterAt]

theorem quarterAt_putQuarter (hd : [a, b, c, d].Nodup) (x : Words 16) (q : Quarter) :
    quarterAt (putQuarter x a b c d q) a b c d = q := by
  have hr : [d, c, b, a].Nodup := List.nodup_reverse.2 hd
  simp only [List.nodup_cons, List.mem_cons, List.not_mem_nil, or_false, not_or, Fin.ext_iff] at hr
  simp [putQuarter, quarterAt, hr]

/-- The second put covers the first, whether or not the positions differ. -/
theorem putQuarter_putQuarter (x : Words 16) (p q : Quarter) :
    putQuarter (putQuarter x a b c d p) a b c d q = putQuarter x a b c d q := by
  ext i hi
  simp only [putQuarter, Vector.getElem_set]
  grind

/-- The quarter-round on four different positions is a bijection: `quarterInv` on the same positions undoes it. -/
theorem qr_bijective (hd : [a, b, c, d].Nodup) : Function.Bijective fun x => qr x a b c d := by
  refine Function.bijective_iff_has_inverse.2
    ⟨fun x => putQuarter x a b c d (quarterInv (quarterAt x a b c d)), fun x => ?_, fun x => ?_⟩
  · simp only [qr_eq, quarterAt_putQuarter hd, putQuarter_putQuarter, quarterInv_quarter, putQuarter_quarterAt]
  · simp only [qr_eq, quarterAt_putQuarter hd, putQuarter_putQuarter, quarter_quarterInv, putQuarter_quarterAt]

end

/-! ### The rounds (R123 to R125) -/

theorem colround_bijective : Function.Bijective colround :=
  (qr_bijective (by decide)).comp <| (qr_bijective (by decide)).comp <| (qr_bijective (by decide)).comp <|
    qr_bijective (by decide)

theorem rowround_bijective : Function.Bijective rowround :=
  (qr_bijective (by decide)).comp <| (qr_bijective (by decide)).comp <| (qr_bijective (by decide)).comp <|
    qr_bijective (by decide)

/-- n double-rounds are n iterations of one (R125). -/
theorem doubleRounds_eq_iterate (n : Nat) : doubleRounds n = (rowround ∘ colround)^[n] := by
  induction n with
  | zero => rfl
  | succ n ih => rw [Function.iterate_succ, ← ih]; rfl

theorem rounds20_eq_iterate : rounds20 = (rowround ∘ colround)^[10] := doubleRounds_eq_iterate 10

theorem rounds20_bijective : Function.Bijective rounds20 := by
  rw [rounds20_eq_iterate]
  exact (rowround_bijective.comp colround_bijective).iterate 10

/-! ### Zero is kept (R129) -/

/-- The quarter-round keeps zero words, wherever they stand. -/
theorem qr_zero (a b c d : Fin 16) : qr (Vector.replicate 16 0) a b c d = Vector.replicate 16 0 := by
  have hat : quarterAt (Vector.replicate 16 0) a b c d = ⟨0, 0, 0, 0⟩ := by simp [quarterAt]
  have hq : quarter ⟨0, 0, 0, 0⟩ = ⟨0, 0, 0, 0⟩ := by decide
  rw [qr_eq, hat, hq, ← hat, putQuarter_quarterAt]

theorem rounds20_zero : rounds20 (Vector.replicate 16 0) = Vector.replicate 16 0 := by
  rw [rounds20_eq_iterate]
  refine Function.iterate_fixed ?_ 10
  simp only [Function.comp_apply, rowround, colround, qr_zero]

theorem getD_zeroBytes (n i : Nat) : (zeroBytes n).getD i 0 = 0 := by
  rcases Nat.lt_or_ge i n with h | h
  · simp [getD_of_lt _ _ h, zeroBytes]
  · exact getD_of_le _ _ h

theorem wordAt_zeroBytes (n k : Nat) : wordAt (zeroBytes n) k = 0 := by
  simp only [wordAt, getD_zeroBytes]
  rfl

theorem loadState_zero : loadState (zeroBytes 16) (zeroBytes 32) (zeroBytes 16) = Vector.replicate 16 0 := by
  simp only [loadState, wordAt_zeroBytes]
  rfl

theorem storeWords_zero (m : Nat) : storeWords (Vector.replicate m (0 : Word)) = zeroBytes (4 * m) := by
  ext i hi
  simp [zeroBytes, st32Byte]

/-- Zero plus zero, so the feed-forward keeps what the rounds keep (R129 (b)). -/
theorem salsa20Core_zero : salsa20Core (zeroBytes 16) (zeroBytes 32) (zeroBytes 16) = zeroBytes 64 := by
  have hsum : Vector.ofFn (fun i : Fin 16 =>
      (Vector.replicate 16 (0 : Word))[i] + (Vector.replicate 16 (0 : Word))[i]) = Vector.replicate 16 0 := by
    ext i hi
    simp
  simp only [salsa20Core, loadState_zero, rounds20_zero, hsum, storeWords_zero]

/-- Settles O47: each quarter-round is undone, each round is four of them, and zero is fixed by every step. -/
theorem roundsAreABijection : Obligations.RoundsAreABijection :=
  ⟨rounds20_bijective, rounds20_zero, salsa20Core_zero⟩

end Sys2Proof.Machine
end

section
/-!
PROOFS. The family 41_hsalsa20: HSAL puts eight words of the state after the rounds in OUT, without the feed-forward, and
zero behind them (R141, R142).
-/

namespace Sys2Proof.Machine

/-! ### The words of OUT (R142) -/

/-- A byte of the result, read with the default 0, is the same byte of the widened result: beyond the end both are 0. -/
theorem getD_widenOut (b : Bytes 32) (i : Nat) : (widenOut b).getD i 0 = b.getD i 0 := by
  rcases Nat.lt_or_ge i 64 with h | h
  · rw [getD_of_lt _ _ h, getElem_widenOut]
  · rw [getD_of_le _ _ h, getD_of_le _ _ (Nat.le_trans (by decide) h)]

/-- The words of the result stay where they are when it is widened. -/
theorem wordAt_widenOut (b : Bytes 32) (k : Nat) : wordAt (widenOut b) k = wordAt b k := by
  simp only [wordAt, getD_widenOut]

theorem getElem_widenOut_of_le (b : Bytes 32) {i : Nat} (hle : 32 ≤ i) (h : i < 64) : (widenOut b)[i] = 0 := by
  rw [getElem_widenOut, getD_of_le _ _ hle]

/-! ### HSAL (R141, R142) -/

/-- Word j of `hsalsa20`: the word after the rounds at position j of the list (R141). -/
theorem wordAt_hsalsa20 (nonce : Bytes 16) (key : Bytes 32) (const : Bytes 16) (j : Fin 8) :
    wordAt (hsalsa20 nonce key const) j.val = (rounds20 (loadState nonce key const))[hsalsaIndex[j]] := by
  rw [hsalsa20, wordAt_storeWords _ j.isLt, Vector.getElem_ofFn]

/-- HSAL on a block that is not locked (R142). -/
theorem exec_hsal {s : State} (h : s.statusErr = 0) :
    exec .hsal s = .next (s.setOut (widenOut (hsalsa20 s.inp s.key s.const))) :=
  unlessLocked_of_unlocked (s.locked_eq_false_iff.2 h) _

/-- Settles O17: HSAL sets OUT to the widened result, whose words are those of `hsalsa20` and whose second half is 0. -/
theorem hsalExtractsEightWords : Obligations.HsalExtractsEightWords := by
  unfold Obligations.HsalExtractsEightWords
  intro s h
  refine ⟨_, exec_hsal h, rfl, fun j => ?_, fun i => getElem_widenOut_of_le _⟩
  exact (wordAt_widenOut _ j).trans (wordAt_hsalsa20 s.inp s.key s.const j)

end Sys2Proof.Machine
end

section
/-!
PROOFS. The family 42_stream: what the four stream commands write (R160 to R163), the counter and the procedure by
segments (R153, R157), the split offset (R159), and what follows for two runs of a command (R161, R165, R166, R158).
-/

namespace Sys2Proof.Machine

/-! ### What a stream command writes (R151, R160 to R163) -/

/-- From s to t only DMEM changed: byte i of the destination buffer became `byte i`, for every i below LEN. -/
def StreamWritten (s t : State) (byte : Nat → Byte) : Prop :=
  t = { s with dmem := t.dmem } ∧ (∀ i, i < s.len.toNat → Dmem.read t.dmem (s.dst.toNat + i) = byte i) ∧
    SameOutside s.dst.toNat s.len.toNat s.dmem t.dmem

theorem streamWritten_memWrite {s : State} {output : List Byte} {byte : Nat → Byte}
    (hlen : output.length = s.len.toNat) (hbyte : ∀ i (h : i < output.length), output[i] = byte i) :
    StreamWritten s (s.memWrite s.dst.toNat output) byte := by
  refine ⟨rfl, fun i hi => ?_, fun a ha => ?_⟩
  · have hi' : i < output.length := by rwa [hlen]
    exact (Dmem.read_writeBytes_inside s.dmem _ output hi').trans (hbyte i hi')
  · rw [← hlen] at ha
    exact Dmem.read_writeBytes_outside s.dmem _ output ha

/-- A stream command that passes its checks writes its output from DST on; LEN = 0 is no special case, the output being
empty then. -/
theorem execStream_eq_memWrite {srcGiven : Bool} {s : State} (h : s.statusErr = 0)
    (hc : s.streamCheck srcGiven = none) {output : List Byte} (hlen : output.length = s.len.toNat) :
    execStream srcGiven output s = .next (s.memWrite s.dst.toNat output) := by
  rw [execStream_of_ready (s.locked_eq_false_iff.2 h) hc]
  split
  · next h0 =>
    obtain rfl : output = [] := List.length_eq_zero_iff.1 (hlen.trans ((len_eq_zero_iff _).1 h0))
    rfl
  · rfl

theorem State.xorReady.ksReady {s : State} (h : s.xorReady) : s.ksReady := by
  obtain ⟨herr, -, hdst, -⟩ := h
  exact ⟨herr, hdst⟩

theorem exec_s20Xor {s : State} (h : s.xorReady) (off : Nat) :
    exec (.s20Xor off) s = .next (s.memWrite s.dst.toNat (s.s20Output true off)) :=
  execStream_eq_memWrite h.1 (s.streamCheck_true_eq_none_iff.2 h.2) (s.length_s20Output true off)

theorem exec_s20Ks {s : State} (h : s.ksReady) (off : Nat) :
    exec (.s20Ks off) s = .next (s.memWrite s.dst.toNat (s.s20Output false off)) :=
  execStream_eq_memWrite h.1 (s.streamCheck_false_eq_none_iff.2 h.2) (s.length_s20Output false off)

theorem exec_xs20Xor {s : State} (h : s.xorReady) (off : Nat) :
    exec (.xs20Xor off) s = .next (s.memWrite s.dst.toNat (s.xs20Output true off)) :=
  execStream_eq_memWrite h.1 (s.streamCheck_true_eq_none_iff.2 h.2) (s.length_xs20Output true off)

theorem exec_xs20Ks {s : State} (h : s.ksReady) (off : Nat) :
    exec (.xs20Ks off) s = .next (s.memWrite s.dst.toNat (s.xs20Output false off)) :=
  execStream_eq_memWrite h.1 (s.streamCheck_false_eq_none_iff.2 h.2) (s.length_xs20Output false off)

/-- Settles O18: the output is written from DST on, and its byte i is the source byte XOR the keystream byte. -/
theorem s20XorAppliesTheKeystream : Obligations.S20XorAppliesTheKeystream := by
  unfold Obligations.S20XorAppliesTheKeystream
  intro s off h
  exact ⟨_, exec_s20Xor h off, streamWritten_memWrite (s.length_s20Output true off) (s.getElem_s20Output true off)⟩

/-- Settles O19: the output is written from DST on, and its byte i is the keystream byte. -/
theorem s20KsWritesTheKeystream : Obligations.S20KsWritesTheKeystream := by
  unfold Obligations.S20KsWritesTheKeystream
  intro s off h
  exact ⟨_, exec_s20Ks h off, streamWritten_memWrite (s.length_s20Output false off) fun i hi =>
    (s.getElem_s20Output false off i hi).trans BitVec.zero_xor⟩

/-- Settles O20, as O18 with the subkey and the last eight nonce bytes. -/
theorem xs20XorAppliesTheKeystream : Obligations.Xs20XorAppliesTheKeystream := by
  unfold Obligations.Xs20XorAppliesTheKeystream
  intro s off h
  exact ⟨_, exec_xs20Xor h off,
    streamWritten_memWrite (s.length_xs20Output true off) (s.getElem_xs20Output true off)⟩

/-- Settles O21, as O19 with the subkey and the last eight nonce bytes. -/
theorem xs20KsWritesTheKeystream : Obligations.Xs20KsWritesTheKeystream := by
  unfold Obligations.Xs20KsWritesTheKeystream
  intro s off h
  exact ⟨_, exec_xs20Ks h off, streamWritten_memWrite (s.length_xs20Output false off) fun i hi =>
    (s.getElem_xs20Output false off i hi).trans BitVec.zero_xor⟩

/-! ### The registers an S20 command does not read (R160, R161) -/

/-- The state with another NONCE, CONST and IN. -/
def State.setUnread (s : State) (nonce : Bytes 24) (const inp : Bytes 16) : State :=
  { s with nonce := nonce, const := const, inp := inp }

/-- Given its output, a stream command reads none of NONCE, CONST and IN, and leaves them as they are: locked, refused
and completing alike. -/
theorem execStream_setUnread (srcGiven : Bool) (output : List Byte) (s : State) (nonce : Bytes 24)
    (const inp : Bytes 16) :
    ∃ t, execStream srcGiven output s = .next t ∧
      execStream srcGiven output (s.setUnread nonce const inp) = .next (t.setUnread nonce const inp) := by
  cases hl : s.locked with
  | true =>
    exact ⟨_, unlessLocked_of_locked hl _, unlessLocked_of_locked (s := s.setUnread nonce const inp) hl _⟩
  | false =>
    cases hc : s.streamCheck srcGiven with
    | some code =>
      exact ⟨_, execStream_of_refused hl hc _, execStream_of_refused (s := s.setUnread nonce const inp) hl hc _⟩
    | none =>
      have hs := execStream_of_ready hl hc output
      have hs' := execStream_of_ready (s := s.setUnread nonce const inp) hl hc output
      by_cases h0 : s.len = 0
      · exact ⟨_, hs.trans (if_pos h0), hs'.trans (if_pos h0)⟩
      · exact ⟨_, hs.trans (if_neg h0), hs'.trans (if_neg h0)⟩

/-- Of NONCE the output of an S20 command depends on the first eight bytes only. -/
theorem State.s20Output_setUnread (s : State) {nonce : Bytes 24} (h : slice nonce 0 8 = slice s.nonce 0 8)
    (const inp : Bytes 16) (srcGiven : Bool) (off : Nat) :
    (s.setUnread nonce const inp).s20Output srcGiven off = s.s20Output srcGiven off :=
  congrArg (fun n => streamApply s.key n off s.len.toNat (s.streamSource srcGiven)) h

/-- Settles O30: the output is the same, and nothing else of the command reads the three registers. -/
theorem s20IgnoresConstInAndUpperNonce : Obligations.S20IgnoresConstInAndUpperNonce := by
  unfold Obligations.S20IgnoresConstInAndUpperNonce
  intro s off nonce const inp hnonce
  have hexec (srcGiven : Bool) : ∃ t, execStream srcGiven (s.s20Output srcGiven off) s = .next t ∧
      execStream srcGiven ((s.setUnread nonce const inp).s20Output srcGiven off) (s.setUnread nonce const inp) =
        .next (t.setUnread nonce const inp) := by
    rw [s.s20Output_setUnread hnonce]
    exact execStream_setUnread srcGiven _ s nonce const inp
  simp only [List.forall_mem_cons, List.not_mem_nil, false_imp_iff, implies_true, and_true]
  exact ⟨hexec true, hexec false⟩

/-! ### The counter (R152, R153) -/

/-- Adding byte by byte with carry adds to the number, mod 256^n. -/
theorem addCarry_digits (n u v : Nat) :
    addCarry u (stBytes n v).toList = (stBytes n (u + v)).toList := by
  simp only [toList_stBytes]
  induction n generalizing u v with
  | zero => rfl
  | succ n ih =>
    have hshift (x i : Nat) : x / 256 ^ (i + 1) = x / 256 / 256 ^ i := by
      rw [Nat.pow_succ', Nat.div_div_eq_div_mul]
    have hcarry : (u + v % 256) / 256 + v / 256 = (u + v) / 256 := by omega
    have hlow : BitVec.ofNat 8 (u + v % 256) = BitVec.ofNat 8 (u + v) := by
      apply BitVec.eq_of_toNat_eq
      simp only [BitVec.toNat_ofNat]
      omega
    simp only [List.ofFn_succ, addCarry, Fin.val_zero, Fin.val_succ, hshift, Nat.pow_zero, Nat.div_one, ih,
      BitVec.toNat_ofNat, Nat.reducePow, hcarry, hlow]

/-- `st_n(v)` depends on v mod 256^n only (R10). -/
theorem stBytes_mod (n v : Nat) : stBytes n (v % 256 ^ n) = stBytes n v := by
  rw [← le_ofFn_digits, ← toList_stBytes, stBytes_le]

/-- Bytes 8 to 15 of an input block are its counter (R152). -/
theorem slice_counterBlock (nonce : Bytes 8) (j : Nat) : slice (counterBlock nonce j) 8 8 = stBytes 8 j := by
  ext i hi
  rw [getElem_slice _ _ _ _ hi, getD_of_lt _ _ (by omega)]
  simp [counterBlock, getD_of_lt _ _ hi]

/-- The counter of an input block counts mod 2^64 (R152). -/
theorem counterBlock_mod (nonce : Bytes 8) (j : Nat) : counterBlock nonce (j % 2 ^ 64) = counterBlock nonce j := by
  have hmod := stBytes_mod 8 j
  simp only [Nat.reducePow] at hmod
  simp only [counterBlock, Nat.reducePow, hmod]

theorem incrementCounter_counterBlock (nonce : Bytes 8) (j : Nat) :
    incrementCounter (counterBlock nonce j) = counterBlock nonce (j + 1) := by
  rw [incrementCounter, slice_counterBlock, addCarry_digits, Nat.add_comm 1 j]
  ext i hi
  by_cases h8 : i < 8
  · simp [counterBlock, h8]
  · have hlt : i - 8 < 8 := by omega
    simp [counterBlock, h8, hlt, getD_of_lt]

/-- Settles O48, from `incrementCounter_counterBlock`. -/
theorem counterIncrementIsPlusOne : Obligations.CounterIncrementIsPlusOne := by
  unfold Obligations.CounterIncrementIsPlusOne
  intro nonce j
  rw [counterBlock_mod, incrementCounter_counterBlock]

/-! ### The keystream in pieces (R155 to R157, R159) -/

theorem keystream_zero (key : Bytes 32) (nonce : Bytes 8) (off : Nat) : keystream key nonce off 0 = [] :=
  List.length_eq_zero_iff.1 (length_keystream key nonce off 0)

theorem keystream_add (key : Bytes 32) (nonce : Bytes 8) (off m n : Nat) :
    keystream key nonce off (m + n) = keystream key nonce off m ++ keystream key nonce (off + m) n := by
  refine List.ext_getElem (by simp) fun i hi _ => ?_
  rw [getElem_keystream, List.getElem_append]
  split
  · rw [getElem_keystream]
  · next h =>
    rw [length_keystream, Nat.not_lt] at h
    rw [getElem_keystream, length_keystream, show off + m + (i - m) = off + i by omega]

/-- A part of block j is the keystream from there on (R155). -/
theorem ksBlock_part (key : Bytes 32) (nonce : Bytes 8) (j : Nat) {off q : Nat} (h : off + q ≤ 64) :
    ((ksBlock key nonce j).toList.drop off).take q = keystream key nonce (64 * j + off) q := by
  refine List.ext_getElem (by simp; omega) fun i _ hi => ?_
  rw [length_keystream] at hi
  have hdiv : (64 * j + off + i) / 64 = j := by omega
  have hmod : (64 * j + off + i) % 64 = off + i := by omega
  rw [getElem_keystream, keystreamByte, hdiv, hmod, getD_of_lt _ _ (by omega), List.getElem_take,
    List.getElem_drop, Vector.getElem_toList]

theorem xorBytes_append {a b c d : List Byte} (h : a.length = c.length) :
    xorBytes (a ++ b) (c ++ d) = xorBytes a c ++ xorBytes b d :=
  List.zipWith_append h

/-- The segments from block j on are the keystream from byte 64j + off on (R157). -/
theorem streamSegments_none (key : Bytes 32) (nonce : Bytes 8) {n off len : Nat} (j : Nat) (hoff : off ≤ 63)
    (h : off + len ≤ 64 * n) :
    streamSegments key n (counterBlock nonce j) off len none = keystream key nonce (64 * j + off) len := by
  induction n generalizing j off len with
  | zero =>
    obtain rfl : len = 0 := by omega
    rw [keystream_zero]
    rfl
  | succ n ih =>
    have hrest := ih (off := 0) (len := len - min len (64 - off)) (j + 1) (by omega) (by omega)
    have hpart := ksBlock_part key nonce j (off := off) (q := min len (64 - off)) (by omega)
    rw [ksBlock] at hpart
    simp only [streamSegments, incrementCounter_counterBlock, hrest, hpart]
    rcases Nat.le_total len (64 - off) with hlast | hfull
    · rw [Nat.min_eq_left hlast, Nat.sub_self, keystream_zero, List.append_nil]
    · have hnext : 64 * (j + 1) + 0 = 64 * j + off + (64 - off) := by omega
      rw [Nat.min_eq_right hfull, hnext, ← keystream_add, Nat.add_sub_of_le hfull]

/-- With a source the segments are XORed onto it piece by piece, which is XOR of the whole (R156). -/
theorem streamSegments_some (key : Bytes 32) (n : Nat) (blk : Bytes 16) (off : Nat) {len : Nat} {m : List Byte}
    (h : m.length = len) :
    streamSegments key n blk off len (some m) = xorBytes m (streamSegments key n blk off len none) := by
  induction n generalizing blk off len m with
  | zero => simp [streamSegments, xorBytes]
  | succ n ih =>
    have hrest := ih (incrementCounter blk) 0 (len := len - min len (64 - off)) (m := m.drop (min len (64 - off)))
      (by rw [List.length_drop, h])
    simp only [streamSegments, hrest]
    rw [← xorBytes_append (by simp; omega), List.take_append_drop]

/-- Settles O49: the segments start with block 0, and there are blocks enough for off + len bytes. -/
theorem segmentProcedureGivesTheStream : Obligations.SegmentProcedureGivesTheStream := by
  unfold Obligations.SegmentProcedureGivesTheStream
  intro key nonce off len hoff
  have hnone : streamProcedure key nonce off len none = keystream key nonce off len := by
    rw [streamProcedure, streamSegments_none key nonce 0 hoff (le_blockCount _), Nat.mul_zero, Nat.zero_add]
  refine ⟨hnone, fun m hm => ?_⟩
  rw [streamProcedure, streamSegments_some _ _ _ _ hm, ← streamProcedure, hnone, streamApply]

/-- Settles O50: the keystream from byte 0 is the OFF bytes for the pad and then those for the source. -/
theorem splitStreamIsAWindow : Obligations.SplitStreamIsAWindow := by
  unfold Obligations.SplitStreamIsAWindow
  intro key nonce off pad src hpad
  have hlen : (xorBytes pad (keystream key nonce 0 off)).length = off := by simp [xorBytes, hpad]
  simp only [streamApply]
  rw [keystream_add, Nat.zero_add, xorBytes_append (by simp [hpad]), List.drop_left' hlen]

/-! ### The .KS commands and a source of zero bytes (R161) -/

section
variable {s : State} (hzero : ∀ i, i < s.len.toNat → Dmem.read s.dmem (s.src.toNat + i) = 0) (off : Nat)
include hzero

theorem State.s20Output_of_zero_source : s.s20Output true off = s.s20Output false off := by
  refine List.ext_getElem (by simp) fun i hi _ => ?_
  rw [State.length_s20Output] at hi
  rw [State.getElem_s20Output, State.getElem_s20Output, if_pos rfl, hzero i hi]
  rfl

theorem State.xs20Output_of_zero_source : s.xs20Output true off = s.xs20Output false off := by
  refine List.ext_getElem (by simp) fun i hi _ => ?_
  rw [State.length_xs20Output] at hi
  rw [State.getElem_xs20Output, State.getElem_xs20Output, if_pos rfl, hzero i hi]
  rfl

end

/-- Settles O51: with a source of zero bytes the two outputs are the same. -/
theorem ksIsXorOfZeroBytes : Obligations.KsIsXorOfZeroBytes := by
  unfold Obligations.KsIsXorOfZeroBytes
  intro s off h hzero
  have hs20 := exec_s20Xor h off
  have hxs20 := exec_xs20Xor h off
  rw [State.s20Output_of_zero_source hzero] at hs20
  rw [State.xs20Output_of_zero_source hzero] at hxs20
  exact ⟨_, _, exec_s20Ks h.ksReady off, hs20, exec_xs20Ks h.ksReady off, hxs20⟩

/-! ### Two runs of an .XOR command (R165, R166) -/

/-- The same byte XORed onto two bytes leaves their XOR (R166). -/
theorem xor_xor_xor_cancel (a b c : Byte) : (a ^^^ c) ^^^ (b ^^^ c) = a ^^^ b := by
  rw [BitVec.xor_comm b c, BitVec.xor_assoc, ← BitVec.xor_assoc c, BitVec.xor_self, BitVec.zero_xor]

/-- Each .XOR command XORs onto the source a keystream that depends on KEY and NONCE only, the same in every state. -/
theorem xor_applies_keystream {off : Nat} {i : Instr} (hi : i ∈ [Instr.s20Xor off, .xs20Xor off]) :
    ∃ ks : Bytes 32 → Bytes 24 → Nat → Byte, ∀ s t : State, s.xorReady → exec i s = .next t →
      StreamWritten s t fun k => Dmem.read s.dmem (s.src.toNat + k) ^^^ ks s.key s.nonce k := by
  simp only [List.mem_cons, List.not_mem_nil, or_false] at hi
  rcases hi with rfl | rfl
  · refine ⟨fun key nonce k => keystreamByte key (slice nonce 0 8) (off + k), fun s t hready ht => ?_⟩
    obtain rfl := Host.Outcome.next.inj ((exec_s20Xor hready off).symm.trans ht)
    exact streamWritten_memWrite (s.length_s20Output true off) (s.getElem_s20Output true off)
  · refine ⟨fun key nonce k => keystreamByte (xsalsaSubkey key nonce) (slice nonce 16 8) (off + k),
      fun s t hready ht => ?_⟩
    obtain rfl := Host.Outcome.next.inj ((exec_xs20Xor hready off).symm.trans ht)
    exact streamWritten_memWrite (s.length_xs20Output true off) (s.getElem_xs20Output true off)

/-- Settles O52: the second run XORs the keystream of the first run onto its output. -/
theorem xorOfItsOwnOutputRestoresTheSource : Obligations.XorOfItsOwnOutputRestoresTheSource := by
  unfold Obligations.XorOfItsOwnOutputRestoresTheSource
  intro s t u d off i hi hs ht hs' hu
  obtain ⟨ks, hks⟩ := xor_applies_keystream hi
  obtain ⟨hregs, hfirst, houtside⟩ := hks s t hs ht
  obtain ⟨-, hsecond, houtside'⟩ := hks _ u hs' hu
  have hkey : t.key = s.key := by rw [hregs]
  have hnonce : t.nonce = s.nonce := by rw [hregs]
  have hlen : t.len = s.len := by rw [hregs]
  simp only [hkey, hnonce, hlen] at hsecond houtside'
  have hback (k : Nat) (hk : k < s.len.toNat) :
      Dmem.read u.dmem (d.toNat + k) = Dmem.read s.dmem (s.src.toNat + k) := by
    rw [hsecond k hk, hfirst k hk, BitVec.xor_assoc, BitVec.xor_self, BitVec.xor_zero]
  refine ⟨hback, fun hsrc hd a => ?_⟩
  by_cases ha : a < s.dst.toNat ∨ s.dst.toNat + s.len.toNat ≤ a
  · subst hd
    exact (houtside' a ha).trans (houtside a ha)
  · obtain ⟨k, rfl⟩ := Nat.exists_eq_add_of_le (show s.dst.toNat ≤ a by omega)
    have hk := hback k (by omega)
    rwa [hd, hsrc] at hk

/-- Settles O53: the keystream byte is the same in both, and cancels. -/
theorem nonceReuseLeaksTheXor : Obligations.NonceReuseLeaksTheXor := by
  unfold Obligations.NonceReuseLeaksTheXor
  intro s1 s2 t1 t2 off i hi hs1 hs2 hkey hnonce hlen ht1 ht2 k hk
  obtain ⟨ks, hks⟩ := xor_applies_keystream hi
  obtain ⟨-, hw1, -⟩ := hks s1 t1 hs1 ht1
  obtain ⟨-, hw2, -⟩ := hks s2 t2 hs2 ht2
  simp only [hw1 k hk, hw2 k (hlen ▸ hk), hkey, hnonce, xor_xor_xor_cancel]

/-! ### XSalsa20 by HSAL and S20.KS (R158) -/

theorem slice_widenOut (b : Bytes 32) : slice (widenOut b) 0 32 = b := by
  ext i hi
  rw [getElem_slice _ _ _ _ hi, getD_widenOut, Nat.zero_add, getD_of_lt _ _ hi]

/-- Settles O54: HSAL leaves the subkey in OUT[0..31], and S20.KS under it has the output of XS20.KS. -/
theorem xs20IsHsalThenS20 : Obligations.Xs20IsHsalThenS20 := by
  unfold Obligations.Xs20IsHsalThenS20
  intro s t off nonce' h ht hnonce
  have hout : slice t.out 0 32 = xsalsaSubkey s.key s.nonce := by
    rw [exec_hsal (s := { s with inp := slice s.nonce 0 16, const := Config.sigma }) h.1] at ht
    cases ht
    exact slice_widenOut _
  have houtput : s.xs20Output false off =
      State.s20Output { s with key := slice t.out 0 32, nonce := nonce' } false off := by
    rw [State.s20Output, hout, hnonce]
    rfl
  refine ⟨_, _, exec_xs20Ks h off,
    exec_s20Ks (s := { s with key := slice t.out 0 32, nonce := nonce' }) h off, ?_⟩
  rw [houtput]
  rfl

end Sys2Proof.Machine
end

section
/-!
PROOFS. The family 43_poly1305, by the canonical definition: the clamp (R181), the tag as a number (R183), the commands
P1305.AUTH and P1305.VFY (R191, R192), and the tag under r = 0 (R193).
-/

namespace Sys2Proof.Machine

/-! ### The clamp and the two halves of the key (R181) -/

theorem getD_clampedBytes (key : Bytes 32) {i : Nat} (h : i < 16) :
    (clampedBytes key).getD i 0 = clampByte i (key.getD i 0) := by
  rw [getD_of_lt _ _ h, clampedBytes, Vector.getElem_ofFn]

theorem toNat_and_0x0F (b : Byte) : (b &&& 0x0F).toNat = b.toNat % 16 := by
  rw [BitVec.toNat_and]
  exact Nat.and_two_pow_sub_one_eq_mod b.toNat 4

theorem toNat_and_0xFC : ∀ b : Byte, (b &&& 0xFC).toNat = b.toNat / 4 * 4 := by decide

/-- Bytes 3, 7, 11 and 15 keep their low four bits. -/
theorem toNat_clampByte_low {i : Nat} (h : i ∈ [3, 7, 11, 15]) (b : Byte) : (clampByte i b).toNat = b.toNat % 16 := by
  rw [clampByte, if_pos (by simpa using h), toNat_and_0x0F]

/-- Bytes 4, 8 and 12 lose their low two bits. -/
theorem toNat_clampByte_high {i : Nat} (h : i ∈ [4, 8, 12]) (b : Byte) :
    (clampByte i b).toNat = b.toNat / 4 * 4 := by
  have h' : i = 4 ∨ i = 8 ∨ i = 12 := by simpa using h
  rw [clampByte, if_neg (by omega), if_pos h', toNat_and_0xFC]

theorem clampByte_of_unmasked {i : Nat} (hlow : i ∉ [3, 7, 11, 15]) (hhigh : i ∉ [4, 8, 12]) (b : Byte) :
    clampByte i b = b := by
  rw [clampByte, if_neg (by simpa using hlow), if_neg (by simpa using hhigh)]

/-- A byte of a string is the digit of its number of weight 256^i (R10). -/
theorem le_div_pow_mod (bs : List Byte) {i : Nat} (h : i < bs.length) : le bs / 256 ^ i % 256 = bs[i].toNat := by
  rw [← ofNat_le_div_pow bs h, BitVec.toNat_ofNat]

/-- r < 2^124, since the clamp leaves four bits of its top byte. -/
theorem polyR_lt (key : Bytes 32) : polyR key < 2 ^ 124 := by
  have hlt : polyR key < 256 ^ 16 := by simpa [polyR] using le_lt_pow (clampedBytes key).toList
  have htop : polyR key / 256 ^ 15 % 256 = (key.getD 15 0).toNat % 16 := by
    rw [polyR, le_div_pow_mod _ (by simp), Vector.getElem_toList, ← getD_of_lt _ 0, getD_clampedBytes _ (by decide),
      toNat_clampByte_low (by decide)]
  omega

/-- s < 2^128, being a number of 16 bytes. -/
theorem polyS_lt (key : Bytes 32) : polyS key < 2 ^ 128 := by
  simpa [polyS] using le_lt_pow (slice key 16 16).toList

/-- Settles O55: the clamp byte by byte, and the bound of r from its top byte. -/
theorem clampMasksSevenBytes : Obligations.ClampMasksSevenBytes := by
  unfold Obligations.ClampMasksSevenBytes
  refine fun key => ⟨polyR_lt key, polyS_lt key, fun i hi => ?_, fun i hi => ?_, fun i hi => ?_⟩
  · have hlt : i < 16 := by revert i; decide
    rw [getD_clampedBytes key hlt, toNat_clampByte_low hi]
  · have hlt : i < 16 := by revert i; decide
    rw [getD_clampedBytes key hlt, toNat_clampByte_high hi]
  · obtain ⟨hlt, hlow, hhigh⟩ : i < 16 ∧ i ∉ [3, 7, 11, 15] ∧ i ∉ [4, 8, 12] := by revert i; decide
    rw [getD_clampedBytes key hlt, clampByte_of_unmasked hlow hhigh]

/-! ### The tag (R183) -/

/-- The tag as a number is h + s without its carry out of bit 127. -/
theorem le_poly1305Tag (msg : List Byte) (key : Bytes 32) :
    le (poly1305Tag msg key).toList = (polyAccumulate (polyR key) msg + polyS key) % 2 ^ 128 := by
  rw [poly1305Tag, toList_stBytes, le_ofFn_digits]
  exact Nat.mod_mod _ (2 ^ 128)

/-- With r = 0 every chunk leaves the accumulator at zero. -/
theorem polyAccumulate_zero (msg : List Byte) : polyAccumulate 0 msg = 0 :=
  List.foldl_fixed' (fun chunk => by rw [polyStep, Nat.mul_zero, Nat.zero_mod]) _

/-- Settles O56: the accumulator stays zero, so the tag is that of the empty message. -/
theorem zeroMultiplierTagIsS : Obligations.ZeroMultiplierTagIsS := by
  unfold Obligations.ZeroMultiplierTagIsS
  intro key msg hr
  have htag : poly1305Tag msg key = poly1305Tag [] key := by
    rw [poly1305Tag, poly1305Tag, hr, polyAccumulate_zero, polyAccumulate_zero]
  rw [htag, poly1305Tag_nil, toList_slice_of_end key rfl]

/-! ### The commands (R191, R192) -/

/-- Settles O22: TAG takes the tag, whose number is `le_poly1305Tag`. -/
theorem authWritesTheCanonicalTag : Obligations.AuthWritesTheCanonicalTag := by
  unfold Obligations.AuthWritesTheCanonicalTag
  intro s ⟨hunlocked, hsrc⟩
  rw [exec_p1305Auth]
  refine ⟨_, execPoly_of_check_none hunlocked hsrc, rfl, ?_⟩
  rw [State.setTag_tag, le_poly1305Tag, polyS, toList_slice_of_end s.pkey rfl]
  rfl

/-- Settles O23: EQ takes the comparison of the tag with TAGX, which tells equality (`ctEqual_iff`). -/
theorem verifySetsEqExactlyForTheTag : Obligations.VerifySetsEqExactlyForTheTag := by
  unfold Obligations.VerifySetsEqExactlyForTheTag
  intro s ⟨hunlocked, hsrc⟩
  rw [exec_p1305Vfy]
  refine ⟨_, execPoly_of_check_none hunlocked hsrc, rfl, ?_, ?_⟩
  · rw [State.verifyTag, State.setTag_statusEq, State.setEq_statusEq, ctEqual_iff, eq_comm]
  · simp [State.verifyTag, zeroBytes]

end Sys2Proof.Machine
end

section
/-!
PROOFS. The family 43_poly1305, by the 17-limb procedure: what each pass does to the number an array of limbs stands for
(R184 to R188, R190), the bounds of the accumulator (R189), and the equality of the two tags (R190).
-/

namespace Sys2Proof.Machine

/-! ### The number of an array of limbs (R38, R184) -/

/-- Every limb is a byte (R189). -/
def ByteLimbs (h : Limbs) : Prop := ∀ x ∈ h, x < 256

theorem byteLimbs_cons {x : Nat} {xs : Limbs} : ByteLimbs (x :: xs) ↔ x < 256 ∧ ByteLimbs xs := List.forall_mem_cons

theorem limbValue_eq_ofDigits (h : Limbs) : limbValue h = Nat.ofDigits 256 h := by
  induction h with
  | nil => rfl
  | cons x xs ih => rw [limbValue, Nat.ofDigits_cons, ih]

theorem limbValue_append (xs ys : Limbs) : limbValue (xs ++ ys) = limbValue xs + 256 ^ xs.length * limbValue ys := by
  simp only [limbValue_eq_ofDigits, Nat.ofDigits_append]

/-- The sum of R38. The limbs past the end count as zero. -/
theorem limbValue_eq_sum {h : Limbs} {n : Nat} (hn : h.length ≤ n) :
    limbValue h = ∑ j ∈ Finset.range n, h.getD j 0 * 256 ^ j := by
  induction h generalizing n with
  | nil => simp [limbValue]
  | cons x xs ih =>
    obtain ⟨n, rfl⟩ := Nat.exists_eq_succ_of_ne_zero (Nat.ne_zero_of_lt hn)
    rw [Finset.sum_range_succ', limbValue, ih (Nat.le_of_succ_le_succ hn), Finset.mul_sum, Nat.add_comm]
    simp [Nat.pow_succ', Nat.mul_left_comm]

theorem limbValue_map_range (f : Nat → Nat) (n : Nat) :
    limbValue ((List.range n).map f) = ∑ i ∈ Finset.range n, f i * 256 ^ i := by
  rw [limbValue_eq_sum (n := n) (by simp)]
  refine Finset.sum_congr rfl fun i hi => ?_
  rw [List.getD_eq_getElem _ _ (by simpa using hi), List.getElem_map, List.getElem_range]

/-- Byte limb i is the base-256 digit of the number of weight 256^i (R184). -/
theorem limbValue_div_pow_mod {h : Limbs} (hb : ByteLimbs h) (i : Nat) : limbValue h / 256 ^ i % 256 = h.getD i 0 := by
  induction h generalizing i with
  | nil => simp [limbValue]
  | cons x xs ih =>
    obtain ⟨hx, hxs⟩ := byteLimbs_cons.1 hb
    cases i with
    | zero =>
      rw [limbValue, Nat.pow_zero, Nat.div_one, List.getD_cons_zero]
      omega
    | succ i =>
      rw [limbValue, Nat.pow_succ', ← Nat.div_div_eq_div_mul,
        show (x + 256 * limbValue xs) / 256 = limbValue xs by omega, List.getD_cons_succ, ih hxs]

/-- Limbs of at most 255 * k stand for a number below k * 256^n, by k at least (R189). -/
theorem limbValue_add_le {h : Limbs} {k : Nat} (hb : ∀ x ∈ h, x ≤ 255 * k) :
    limbValue h + k ≤ k * 256 ^ h.length := by
  induction h with
  | nil => simp [limbValue]
  | cons x xs ih =>
    obtain ⟨hx, hxs⟩ := List.forall_mem_cons.1 hb
    have hle := ih hxs
    rw [limbValue, List.length_cons, Nat.pow_succ, ← Nat.mul_assoc]
    omega

theorem ByteLimbs.limbValue_lt {h : Limbs} (hb : ByteLimbs h) : limbValue h < 256 ^ h.length := by
  have hle := limbValue_add_le (k := 1) fun x hx => Nat.le_of_lt_succ (hb x hx)
  omega

/-- A byte string is its limbs. -/
theorem limbValue_map_toNat (bs : List Byte) : limbValue (bs.map BitVec.toNat) = le bs := by
  induction bs with
  | nil => rfl
  | cons b bs ih => rw [List.map_cons, limbValue, ih, le]

theorem limbValue_limbsOfBytes {bs : List Byte} (h : bs.length ≤ 17) : limbValue (limbsOfBytes bs) = le bs := by
  rw [limbsOfBytes, limbValue_map_range, ← limbValue_map_toNat, limbValue_eq_sum (by simpa using h)]
  exact Finset.sum_congr rfl fun j _ => by rw [← List.getD_map bs 0 BitVec.toNat]; rfl

@[simp] theorem length_limbsOfBytes (bs : List Byte) : (limbsOfBytes bs).length = 17 := by simp [limbsOfBytes]

theorem byteLimbs_limbsOfBytes (bs : List Byte) : ByteLimbs (limbsOfBytes bs) := by
  intro x hx
  obtain ⟨j, -, rfl⟩ := List.mem_map.1 hx
  exact (bs.getD j 0).isLt

/-! ### The carry pass and the addition (R185, R188) -/

@[simp] theorem length_limbCarry (u : Nat) (xs : Limbs) : (limbCarry u xs).1.length = xs.length := by
  induction xs generalizing u with
  | nil => rfl
  | cons x xs ih => simp [limbCarry, ih]

theorem byteLimbs_limbCarry (u : Nat) (xs : Limbs) : ByteLimbs (limbCarry u xs).1 := by
  induction xs generalizing u with
  | nil => simp [limbCarry, ByteLimbs]
  | cons x xs ih => exact byteLimbs_cons.2 ⟨Nat.mod_lt _ (by decide), ih _⟩

/-- A carry pass keeps the number: what the limbs lose stands in the carry. -/
theorem limbValue_limbCarry (u : Nat) (xs : Limbs) :
    limbValue (limbCarry u xs).1 + 256 ^ xs.length * (limbCarry u xs).2 = u + limbValue xs := by
  induction xs generalizing u with
  | nil => simp [limbCarry, limbValue]
  | cons x xs ih =>
    have hrest := ih ((u + x) / 256)
    simp only [limbCarry, limbValue, List.length_cons, Nat.pow_succ', Nat.mul_assoc]
    omega

/-- A carry pass divides the number by the weight past its limbs: they hold the remainder, the carry is the quotient. -/
theorem limbCarry_divMod (u : Nat) (xs : Limbs) :
    (u + limbValue xs) / 256 ^ xs.length = (limbCarry u xs).2 ∧
      (u + limbValue xs) % 256 ^ xs.length = limbValue (limbCarry u xs).1 :=
  (Nat.div_mod_unique (Nat.pow_pos (by decide))).2
    ⟨limbValue_limbCarry u xs, length_limbCarry u xs ▸ (byteLimbs_limbCarry u xs).limbValue_lt⟩

/-- `add` is a carry pass over the sums of the limbs, without its last carry. -/
theorem limbAdd_eq_limbCarry (u : Nat) (xs ys : Limbs) :
    limbAdd u xs ys = (limbCarry u (List.zipWith (· + ·) xs ys)).1 := by
  induction xs generalizing u ys with
  | nil => cases ys <;> rfl
  | cons x xs ih =>
    cases ys with
    | nil => rfl
    | cons y ys => simp only [limbAdd, List.zipWith_cons_cons, limbCarry, ih, Nat.add_assoc]

theorem byteLimbs_limbAdd {h c : Limbs} : ByteLimbs (limbAdd 0 h c) :=
  limbAdd_eq_limbCarry 0 h c ▸ byteLimbs_limbCarry 0 _

section
variable {h c : Limbs} (hh : h.length = 17) (hc : c.length = 17)
include hh hc

theorem length_limbAdd : (limbAdd 0 h c).length = 17 := by
  rw [limbAdd_eq_limbCarry, length_limbCarry, List.length_zipWith, hh, hc, Nat.min_self]

/-- `add` adds mod 2^136 (R185). -/
theorem limbValue_limbAdd : limbValue (limbAdd 0 h c) = (limbValue h + limbValue c) % 2 ^ 136 := by
  have hlen : (List.zipWith (· + ·) h c).length = 17 := by rw [List.length_zipWith, hh, hc, Nat.min_self]
  have hsum : limbValue (List.zipWith (· + ·) h c) = limbValue h + limbValue c := by
    simp only [limbValue_eq_ofDigits, Nat.ofDigits_add_ofDigits_eq_ofDigits_zipWith_of_length_eq (hh.trans hc.symm)]
  rw [limbAdd_eq_limbCarry, ← (limbCarry_divMod _ _).2, hlen, hsum, Nat.zero_add]
  rfl

end

/-! ### Squeeze (R188, R189) -/

/-- What R189 says of the accumulator after a chunk: 17 limbs, each a byte, and a number below 2^130 + 2^35. -/
structure ReducedLimbs (h : Limbs) : Prop where
  length_eq : h.length = 17
  bytes : ByteLimbs h
  value_lt : limbValue h < 2 ^ 130 + 2 ^ 35

section
variable {h : Limbs} (hh : h.length = 17)
include hh

/-- The number of 17 limbs by the lower 16 and the top one. -/
theorem limbValue_eq_take_add_top : limbValue h = limbValue (h.take 16) + 2 ^ 128 * h.getD 16 0 := by
  have hsplit : h = h.take 16 ++ [h.getD 16 0] := by
    rw [List.getD_eq_getElem _ _ (by omega), ← List.take_succ_eq_append_getElem, List.take_of_length_le (by omega)]
  calc limbValue h = limbValue (h.take 16 ++ [h.getD 16 0]) := congrArg limbValue hsplit
    _ = limbValue (h.take 16) + 2 ^ 128 * h.getD 16 0 := by
      rw [limbValue_append, List.length_take_of_le (by omega)]
      rfl

/-- `squeeze` takes what lies at 2^130 and above, and adds it back five times at weight 1. -/
theorem limbValue_squeeze : limbValue (squeeze h) = limbValue h % 2 ^ 130 + 5 * (limbValue h / 2 ^ 130) := by
  have hlen : (h.take 16).length = 16 := by simp [hh]
  have hvalue := limbValue_eq_take_add_top hh
  obtain ⟨hdiv, hmod⟩ := limbCarry_divMod 0 (h.take 16)
  have hsecond := limbValue_limbCarry (5 * (((limbCarry 0 (h.take 16)).2 + h.getD 16 0) / 4)) (limbCarry 0 (h.take 16)).1
  rw [hlen] at hdiv hmod
  rw [length_limbCarry, hlen] at hsecond
  rw [squeeze, limbValue_append, length_limbCarry, length_limbCarry, hlen]
  simp only [limbValue]
  omega

theorem length_squeeze : (squeeze h).length = 17 := by
  simp [squeeze, hh]

/-- `squeeze` keeps the bounds of R189 if the number is small enough for the part above 2^130. -/
theorem reducedLimbs_squeeze (hlt : limbValue h < 2 ^ 157) : ReducedLimbs (squeeze h) := by
  have hlen := length_squeeze hh
  have hbound : limbValue (squeeze h) < 2 ^ 130 + 2 ^ 35 := by
    rw [limbValue_squeeze hh]
    omega
  have htop := limbValue_eq_take_add_top hlen
  refine ⟨hlen, fun x hx => ?_, hbound⟩
  rw [squeeze, List.mem_append] at hx
  rcases hx with hx | hx
  · exact byteLimbs_limbCarry _ _ x hx
  · have hget : (squeeze h).getD 16 0 = x := by
      rw [List.mem_singleton.1 hx, squeeze, List.getD_append_right _ _ _ _ (by simp [hh])]
      simp [hh]
    omega

end

/-! ### The product (R187) -/

/-- A number of 17 limbs r k, multiplied by 256^j: the limbs move up j places, and those past limb 16 come back with the
factor 320, since 256^17 = 320 mod P. -/
theorem sum_foldedColumn_modEq (r : Nat → Nat) {j m : Nat} (h : j + m = 17) :
    ∑ i ∈ Finset.range 17, (if j ≤ i then r (i - j) else 320 * r (i + 17 - j)) * 256 ^ i ≡
      256 ^ j * ∑ k ∈ Finset.range 17, r k * 256 ^ k [MOD Config.prime] := by
  have hfold : 320 ≡ 256 ^ 17 [MOD Config.prime] := by decide
  have hwrapped : ∑ i ∈ Finset.range j, (if j ≤ i then r (i - j) else 320 * r (i + 17 - j)) * 256 ^ i =
      320 * ∑ i ∈ Finset.range j, r (m + i) * 256 ^ i := by
    rw [Finset.mul_sum]
    refine Finset.sum_congr rfl fun i hi => ?_
    rw [if_neg (Nat.not_le.2 (Finset.mem_range.1 hi)), show i + 17 - j = m + i by omega, Nat.mul_assoc]
  have hmoved : ∑ i ∈ Finset.range m, (if j ≤ j + i then r (j + i - j) else 320 * r (j + i + 17 - j)) * 256 ^ (j + i) =
      256 ^ j * ∑ i ∈ Finset.range m, r i * 256 ^ i := by
    rw [Finset.mul_sum]
    refine Finset.sum_congr rfl fun i _ => ?_
    rw [if_pos (Nat.le_add_right j i), Nat.add_sub_cancel_left, Nat.pow_add, Nat.mul_left_comm]
  calc ∑ i ∈ Finset.range 17, (if j ≤ i then r (i - j) else 320 * r (i + 17 - j)) * 256 ^ i
      = 320 * ∑ i ∈ Finset.range j, r (m + i) * 256 ^ i + 256 ^ j * ∑ i ∈ Finset.range m, r i * 256 ^ i := by
        rw [← h, Finset.sum_range_add, h, hwrapped, hmoved]
    _ ≡ 256 ^ 17 * ∑ i ∈ Finset.range j, r (m + i) * 256 ^ i + 256 ^ j * ∑ i ∈ Finset.range m, r i * 256 ^ i
        [MOD Config.prime] := (hfold.mul_right _).add_right _
    _ = 256 ^ j * ∑ k ∈ Finset.range 17, r k * 256 ^ k := by
        rw [← h, Nat.add_comm j m, Finset.sum_range_add]
        simp only [Nat.mul_add, Finset.mul_sum, Nat.add_comm]
        exact congrArg (_ + ·) (Finset.sum_congr rfl fun i _ => by ring)

/-- The list sum in which the model writes a limb of the product, as a sum over a range. -/
theorem sum_map_range (f : Nat → Nat) (n : Nat) : ((List.range n).map f).sum = ∑ j ∈ Finset.range n, f j := rfl

theorem limbProduct_eq_sum (h r : Limbs) (i : Nat) :
    limbProduct h r i = ∑ j ∈ Finset.range 17,
      h.getD j 0 * (if j ≤ i then r.getD (i - j) 0 else 320 * r.getD (i + 17 - j) 0) := by
  rw [limbProduct, sum_map_range]
  refine Finset.sum_congr rfl fun j _ => ?_
  split
  · rfl
  · rw [Nat.mul_left_comm, Nat.mul_assoc]

section
variable {h r : Limbs}

/-- The limbs of the product stand for the product of the numbers mod P. -/
theorem limbValue_limbProducts_modEq (hh : h.length = 17) (hr : r.length = 17) :
    limbValue ((List.range 17).map (limbProduct h r)) ≡ limbValue h * limbValue r [MOD Config.prime] := by
  calc limbValue ((List.range 17).map (limbProduct h r))
      = ∑ j ∈ Finset.range 17, h.getD j 0 * ∑ i ∈ Finset.range 17,
          (if j ≤ i then r.getD (i - j) 0 else 320 * r.getD (i + 17 - j) 0) * 256 ^ i := by
        simp only [limbValue_map_range, limbProduct_eq_sum, Finset.sum_mul, Finset.mul_sum, Nat.mul_assoc]
        exact Finset.sum_comm
    _ ≡ ∑ j ∈ Finset.range 17, h.getD j 0 * (256 ^ j * limbValue r) [MOD Config.prime] := by
        refine Nat.ModEq.sum fun j hj => Nat.ModEq.mul_left _ ?_
        rw [limbValue_eq_sum hr.le]
        exact sum_foldedColumn_modEq (fun k => r.getD k 0) (Nat.add_sub_of_le (Finset.mem_range.1 hj).le)
    _ = limbValue h * limbValue r := by
        simp only [limbValue_eq_sum hh.le, Finset.sum_mul, Nat.mul_assoc]

theorem ByteLimbs.getD_le (hb : ByteLimbs h) (j : Nat) : h.getD j 0 ≤ 255 := by
  rw [← limbValue_div_pow_mod hb j]
  omega

/-- The bound of R189 on a limb of the product. -/
theorem limbProduct_le (hb : ByteLimbs h) (rb : ByteLimbs r) (i : Nat) :
    limbProduct h r i ≤ 255 * (17 * 320 * 255) := by
  rw [limbProduct_eq_sum]
  refine (Finset.sum_le_card_nsmul _ _ (255 * (320 * 255)) fun j _ => Nat.mul_le_mul (hb.getD_le j) ?_).trans (by simp)
  have hlow := rb.getD_le (i - j)
  have hhigh := rb.getD_le (i + 17 - j)
  split <;> omega

/-- `mulmod` multiplies mod P (R187). -/
theorem limbValue_mulmod_modEq (hh : h.length = 17) (hr : r.length = 17) :
    limbValue (mulmod h r) ≡ limbValue h * limbValue r [MOD Config.prime] := by
  refine Nat.ModEq.trans ?_ (limbValue_limbProducts_modEq hh hr)
  rw [mulmod, limbValue_squeeze (by simp)]
  generalize limbValue ((List.range 17).map (limbProduct h r)) = v
  have hfold : 5 ≡ 2 ^ 130 [MOD Config.prime] := by decide
  calc v % 2 ^ 130 + 5 * (v / 2 ^ 130)
      ≡ v % 2 ^ 130 + 2 ^ 130 * (v / 2 ^ 130) [MOD Config.prime] := (hfold.mul_right _).add_left _
    _ = v := Nat.mod_add_div v _

theorem reducedLimbs_mulmod (hb : ByteLimbs h) (rb : ByteLimbs r) : ReducedLimbs (mulmod h r) := by
  refine reducedLimbs_squeeze (by simp) ?_
  have hle : limbValue ((List.range 17).map (limbProduct h r)) + _ ≤ _ := limbValue_add_le fun x hx => by
    obtain ⟨i, -, rfl⟩ := List.mem_map.1 hx
    exact limbProduct_le hb rb i
  rw [List.length_map, List.length_range] at hle
  omega

end

/-! ### The chunks (R182, R186, R189) -/

theorem length_le_of_mem_chunks {msg chunk : List Byte} (h : chunk ∈ chunks msg) : chunk.length ≤ 16 := by
  obtain ⟨i, -, rfl⟩ := List.mem_map.1 h
  exact List.length_take_le 16 _

/-- The number of a chunk of q bytes is below 2 * 256^q, because of its terminator (R182). -/
theorem chunkValue_lt {chunk : List Byte} (h : chunk.length ≤ 16) : chunkValue chunk < 2 ^ 129 := by
  have hvalue : chunkValue chunk = le chunk + 256 ^ chunk.length := by
    rw [chunkValue, ← limbValue_map_toNat, List.map_append, limbValue_append, limbValue_map_toNat, List.length_map]
    simp [limbValue]
  have hchunk := le_lt_pow chunk
  have hpow : 256 ^ chunk.length ≤ 256 ^ 16 := Nat.pow_le_pow_right (by decide) h
  omega

/-- The limbs h stand for the accumulator a of the canonical definition, within the bounds of R189. -/
def LimbsHold (h : Limbs) (a : Nat) : Prop := ReducedLimbs h ∧ limbValue h % Config.prime = a

/-- One chunk: the limb step does what the step of the canonical definition does (R186). -/
theorem limbsHold_limbStep {r h : Limbs} {a : Nat} {chunk : List Byte} (hr : r.length = 17) (rb : ByteLimbs r)
    (hh : LimbsHold h a) (hc : chunk.length ≤ 16) : LimbsHold (limbStep r h chunk) (polyStep (limbValue r) a chunk) := by
  obtain ⟨⟨hlen, -, hlt⟩, rfl⟩ := hh
  have hclen : (chunkLimbs chunk).length = 17 := length_limbsOfBytes _
  have hsum : limbValue (limbAdd 0 h (chunkLimbs chunk)) = limbValue h + chunkValue chunk := by
    have hclt := chunkValue_lt hc
    rw [limbValue_limbAdd hlen hclen, chunkLimbs, limbValue_limbsOfBytes (by simpa using Nat.lt_succ_of_le hc),
      ← chunkValue]
    omega
  refine ⟨reducedLimbs_mulmod byteLimbs_limbAdd rb, ?_⟩
  calc limbValue (limbStep r h chunk) % Config.prime
      = (limbValue h + chunkValue chunk) * limbValue r % Config.prime := by
        rw [← hsum]
        exact limbValue_mulmod_modEq (length_limbAdd hlen hclen) hr
    _ = polyStep (limbValue r) (limbValue h % Config.prime) chunk :=
        (((Nat.mod_modEq _ _).add_right _).mul_right _).symm

/-- All chunks: by induction on them, from the accumulator zero. -/
theorem limbsHold_foldl {r : Limbs} (hr : r.length = 17) (rb : ByteLimbs r) (msg : List Byte) :
    LimbsHold ((chunks msg).foldl (limbStep r) (List.replicate 17 0)) (polyAccumulate (limbValue r) msg) := by
  have hzero : LimbsHold (List.replicate 17 0) 0 := by
    refine ⟨⟨rfl, fun x hx => ?_, by decide⟩, rfl⟩
    rw [List.eq_of_mem_replicate hx]
    decide
  exact List.foldl_rel hzero fun chunk hmem _ _ hh => limbsHold_limbStep hr rb hh (length_le_of_mem_chunks hmem)

/-- The accumulator of the limb procedure for a message and a key. -/
theorem limbsHold_accumulator (msg : List Byte) (key : Bytes 32) :
    LimbsHold ((chunks msg).foldl (limbStep (limbsOfBytes (clampedBytes key).toList)) (List.replicate 17 0))
      (polyAccumulate (polyR key) msg) := by
  rw [polyR, ← limbValue_limbsOfBytes (by simp)]
  exact limbsHold_foldl (length_limbsOfBytes _) (byteLimbs_limbsOfBytes _) msg

/-- Settles O58: the bounds `squeeze` leaves; the one of limb 16 follows from that of the number. -/
theorem limbsStayInBounds : Obligations.LimbsStayInBounds := by
  unfold Obligations.LimbsStayInBounds
  intro msg key h
  obtain ⟨⟨hlen, hb, hlt⟩, -⟩ : LimbsHold h _ := limbsHold_accumulator msg key
  have htop := limbValue_eq_take_add_top hlen
  exact ⟨hlen, fun j _ => hb.getD_le j, by omega, hlt⟩

/-! ### Freeze and the tag (R190) -/

/-- The select by mask and XOR in `freeze`, of the limbs h before and the limbs d after MINUSP is added (R190). -/
def selectLimbs (mask : Nat) (h d : Limbs) : Limbs :=
  List.zipWith (fun orig diff => diff ^^^ (mask &&& (orig ^^^ diff))) h d

theorem freeze_eq_selectLimbs (h : Limbs) :
    freeze h = selectLimbs ((2 ^ 32 - (limbAdd 0 h Config.minusP).getD 16 0 / 128) % 2 ^ 32) h
      (limbAdd 0 h Config.minusP) := rfl

theorem selectLimbs_zero {h d : Limbs} (hlen : h.length = d.length) : selectLimbs 0 h d = d := by
  refine List.ext_getElem (by simp [selectLimbs, hlen]) fun i _ _ => ?_
  simp only [selectLimbs, List.getElem_zipWith, Nat.zero_and, Nat.xor_zero]

theorem xor_mask_xor {x y : Nat} (hx : x < 256) (hy : y < 256) : y ^^^ ((2 ^ 32 - 1) &&& (x ^^^ y)) = x := by
  have hxor : x ^^^ y < 2 ^ 32 := (Nat.xor_lt_two_pow (n := 8) hx hy).trans (by decide)
  rw [Nat.and_comm, Nat.and_two_pow_sub_one_of_lt_two_pow hxor, Nat.xor_comm x, ← Nat.xor_assoc, Nat.xor_self,
    Nat.zero_xor]

theorem selectLimbs_ones {h d : Limbs} (hlen : h.length = d.length) (hb : ByteLimbs h) (db : ByteLimbs d) :
    selectLimbs (2 ^ 32 - 1) h d = h := by
  refine List.ext_getElem (by simp [selectLimbs, hlen]) fun i _ hi => ?_
  simp only [selectLimbs, List.getElem_zipWith]
  exact xor_mask_xor (hb _ (List.getElem_mem hi)) (db _ (List.getElem_mem _))

/-- `freeze` takes P away exactly when the number is P or more, so it leaves the canonical representative (R190). -/
theorem limbValue_freeze {h : Limbs} (hh : ReducedLimbs h) : limbValue (freeze h) = limbValue h % Config.prime := by
  obtain ⟨hlen, hb, hlt⟩ := hh
  have db : ByteLimbs (limbAdd 0 h Config.minusP) := byteLimbs_limbAdd
  have hdlen := hlen.trans (length_limbAdd hlen (c := Config.minusP) rfl).symm
  have hminus : limbValue Config.minusP = 2 ^ 136 - (2 ^ 130 - 5) := by decide
  have hdiff := limbValue_limbAdd hlen (c := Config.minusP) rfl
  have htop := limbValue_div_pow_mod db 16
  rw [freeze_eq_selectLimbs, Config.prime]
  rcases Nat.lt_or_ge (limbValue h) (2 ^ 130 - 5) with hsmall | hlarge
  · rw [hminus, Nat.mod_eq_of_lt (by omega)] at hdiff
    rw [show (2 ^ 32 - (limbAdd 0 h Config.minusP).getD 16 0 / 128) % 2 ^ 32 = 2 ^ 32 - 1 by omega,
      selectLimbs_ones hdlen hb db, Nat.mod_eq_of_lt hsmall]
  · have hkept : limbValue (limbAdd 0 h Config.minusP) = limbValue h - (2 ^ 130 - 5) := by omega
    rw [show (2 ^ 32 - (limbAdd 0 h Config.minusP).getD 16 0 / 128) % 2 ^ 32 = 0 by omega,
      selectLimbs_zero hdlen, hkept, Nat.mod_eq_sub_mod hlarge, Nat.mod_eq_of_lt (by omega)]

theorem length_freeze {h : Limbs} (hlen : h.length = 17) : (freeze h).length = 17 := by
  simp [freeze, length_limbAdd hlen (c := Config.minusP) rfl, hlen]

/-- The lower n limbs of an array of byte limbs are the bytes of its number. -/
theorem ofFn_getD_limbs {h : Limbs} (hb : ByteLimbs h) (n : Nat) :
    (Vector.ofFn fun i : Fin n => BitVec.ofNat 8 (h.getD i.val 0)) = stBytes n (limbValue h) := by
  refine Vector.ext fun i hi => ?_
  rw [Vector.getElem_ofFn, getElem_stBytes _ _ _ hi, ← limbValue_div_pow_mod hb]
  exact BitVec.eq_of_toNat_eq (by simp)

/-- Settles O57: `freeze` leaves the accumulator of the canonical definition, and the sum with s has its bytes. -/
theorem limbProcedureGivesTheCanonicalTag : Obligations.LimbProcedureGivesTheCanonicalTag := by
  unfold Obligations.LimbProcedureGivesTheCanonicalTag
  intro msg key
  obtain ⟨hh, hacc⟩ := limbsHold_accumulator msg key
  have hs : limbValue (limbsOfBytes (slice key 16 16).toList) = polyS key := limbValue_limbsOfBytes (by simp)
  have hslt := polyS_lt key
  have hlt : polyAccumulate (polyR key) msg < 2 ^ 130 - 5 := hacc ▸ Nat.mod_lt _ (by decide)
  rw [limbTag, ofFn_getD_limbs byteLimbs_limbAdd,
    limbValue_limbAdd (length_freeze hh.length_eq) (length_limbsOfBytes _), limbValue_freeze hh, hacc, hs,
    Nat.mod_eq_of_lt (by omega), poly1305Tag]
  exact (stBytes_mod 16 _).symm

end Sys2Proof.Machine
end

section
/-!
PROOFS. The family 44_cteq: the comparator's result bit (R211), and the two commands, which set EQ exactly when the bytes
they compare agree (R212, R213).
-/

namespace Sys2Proof.Machine

/-! ### The result bit (R211) -/

/-- The result bit of an accumulator that is not zero: taking 1 away borrows from no bit above bit 7. -/
theorem ctResultBit_of_ne_zero {acc : Byte} (h : acc ≠ 0) : ctResultBit acc = 0 := by
  have hshift : (acc.setWidth 32 - 1) >>> 8 = 0 := by bv_omega
  rw [ctResultBit, hshift]
  rfl

/-- Settles O26: at zero the subtraction borrows through every bit, and elsewhere `ctResultBit_of_ne_zero` holds. -/
theorem branchFreeResultBit : Obligations.BranchFreeResultBit := by
  unfold Obligations.BranchFreeResultBit
  intro acc
  split
  case isTrue h => rw [h]; decide
  case isFalse h => exact ctResultBit_of_ne_zero h

/-! ### The bytes compared (R211) -/

/-- The comparator tells whether two byte strings agree at every position (R211). -/
theorem ctEqual_iff_getD {n : Nat} (a b : Bytes n) :
    ctEqual a b = true ↔ ∀ i, i < n → a.getD i 0 = b.getD i 0 := by
  rw [ctEqual_iff, Vector.ext_iff]
  refine forall₂_congr fun i hi => ?_
  rw [getD_of_lt a 0 hi, getD_of_lt b 0 hi]

/-- The comparator on the first bytes of two byte strings ignores the bytes after them. -/
theorem ctEqual_slice_zero_iff {n : Nat} (a b : Bytes n) (len : Nat) :
    ctEqual (slice a 0 len) (slice b 0 len) = true ↔ ∀ i, i < len → a.getD i 0 = b.getD i 0 := by
  rw [ctEqual_iff_getD]
  refine forall₂_congr fun i hi => ?_
  rw [getD_slice a 0 len i hi, getD_slice b 0 len i hi, Nat.zero_add]

/-! ### The commands (R212, R213) -/

/-- CEQ16 on a block that is not locked (R212). -/
theorem exec_ceq16 {s : State} (h : s.statusErr = 0) :
    exec .ceq16 s = .next (s.setEq (ctEqual (slice s.ca 0 16) (slice s.cb 0 16))) :=
  unlessLocked_of_unlocked (s.locked_eq_false_iff.2 h) _

/-- CEQ32 on a block that is not locked (R213). -/
theorem exec_ceq32 {s : State} (h : s.statusErr = 0) : exec .ceq32 s = .next (s.setEq (ctEqual s.ca s.cb)) :=
  unlessLocked_of_unlocked (s.locked_eq_false_iff.2 h) _

/-- Settles O24: EQ takes the comparison of the first 16 bytes. -/
theorem ceq16ComparesTheFirstBytes : Obligations.Ceq16ComparesTheFirstBytes := by
  unfold Obligations.Ceq16ComparesTheFirstBytes
  intro s h
  exact ⟨_, exec_ceq16 h, rfl, ctEqual_slice_zero_iff s.ca s.cb 16⟩

/-- Settles O25: EQ takes the comparison of all 32 bytes. -/
theorem ceq32ComparesAllBytes : Obligations.Ceq32ComparesAllBytes := by
  unfold Obligations.Ceq32ComparesAllBytes
  intro s h
  exact ⟨_, exec_ceq32 h, rfl, ctEqual_iff_getD s.ca s.cb⟩

end Sys2Proof.Machine
end

section
/-!
PROOFS. The family 45_control: NOP, under the lock and with a bit of its reserved field set (R221), and SRST, which the
lock does not hold back (R222, R261).
-/

namespace Sys2Proof.Machine

/-! ### The reserved field of format N (R91, R97) -/

/-- A word with the opcode of a format N command and a bit set above it is reserved (R97). -/
theorem decode_reservedN {w : Word} {i : Instr} (hi : isStream i = false) (hopc : w.toNat % 256 = i.opcode)
    (hz : w.toNat / 2 ^ 8 ≠ 0) : decode w = .reserved := by
  have hN (j : Instr) : decodeN w j = .reserved := by rw [decodeN_eq, if_neg hz]
  rw [decode_eq, hopc]
  cases i with
  | s20Xor | s20Ks | xs20Xor | xs20Ks => cases hi
  | _ => exact hN _

/-! ### NOP (R221) -/

/-- NOP on a block that is not locked (R221). -/
theorem exec_nop {s : State} (h : s.statusErr = 0) : exec .nop s = .next s :=
  unlessLocked_of_unlocked (s.locked_eq_false_iff.2 h) _

/-- NOP on a locked block is refused like any command (R221, R237). -/
theorem exec_nop_of_locked {s : State} (h : s.statusErr ≠ 0) : exec .nop s = .next s.refuseLocked :=
  unlessLocked_of_locked (s.locked_iff.2 h) _

/-- Settles O14: the lock decides what NOP does, and a word that is not 0 has a bit set above its zero low byte. -/
theorem nopChangesNothing : Obligations.NopChangesNothing := by
  unfold Obligations.NopChangesNothing
  refine ⟨fun s => exec_nop, fun s => exec_nop_of_locked, fun w hopc hw => ?_⟩
  have hpos : w.toNat ≠ 0 := fun h => hw (BitVec.eq_of_toNat_eq h)
  exact decode_reservedN (i := .nop) rfl hopc (by omega)

/-! ### SRST (R222, R261) -/

/-- Every register has its reset value after a reset (R43, R261). -/
theorem State.resetRegisters_atResetValues (s : State) : AtResetValues s.resetRegisters := by
  simp [AtResetValues, zeroBytes, Config.sigma]

/-- Settles O15: SRST and a hardware reset are both `State.resetRegisters`, which sets the registers alone. -/
theorem srstResetsEveryRegister : Obligations.SrstResetsEveryRegister := by
  unfold Obligations.SrstResetsEveryRegister
  refine ⟨fun s => ⟨s.resetRegisters, exec_srst s, s.resetRegisters_atResetValues, s.resetRegisters_dmem,
    s.resetRegisters_dmemBytes, s.resetRegisters_pending, s.resetRegisters_reads, s.resetRegisters_aborts, rfl⟩, ?_⟩
  exact decode_reservedN (i := .srst) rfl rfl (by decide)

end Sys2Proof.Machine
end

section
/-!
PROOFS. The family 60_exceptions: the invariant (R231, R236, R237), the two refusals of a word (R232, R233), the lock
and how it is left (R237, R242), and that a refused command writes STATUS alone (R236).
-/

namespace Sys2Proof.Machine

/-! ### The invariant under the updates of the state (R61, R231, R236, R237) -/

/-- A write of bytes inside DMEM keeps the invariant (R61). -/
theorem State.Inv.memWrite {s : State} (h : s.Inv) {addr : Nat} {bs : List Byte}
    (hin : bs = [] ∨ addr + bs.length ≤ s.dmemBytes) : (s.memWrite addr bs).Inv := by
  obtain ⟨hwf, hbelow, hsize, hstatus⟩ := h
  exact ⟨Dmem.wf_writeBytes hwf addr bs, Dmem.below_writeBytes hbelow hin, hsize, hstatus⟩

/-- A comparison on a block that is not locked keeps the invariant, whatever its result. -/
theorem State.Inv.setEq {s : State} (h : s.Inv) (h0 : s.statusErr = 0) (e : Bool) : (s.setEq e).Inv := by
  obtain ⟨hwf, hbelow, hsize, herr, -⟩ := h
  exact ⟨hwf, hbelow, hsize, herr, fun hl => absurd h0 hl⟩

/-- The refusal of a locked block keeps the invariant (R237). -/
theorem State.Inv.refuseLocked {s : State} (h : s.Inv) : s.refuseLocked.Inv := by
  obtain ⟨hwf, hbelow, hsize, herr, -⟩ := h
  exact ⟨hwf, hbelow, hsize, herr, fun _ => rfl⟩

/-- Every refusal code is at most 4 (R231). -/
theorem RefuseCode.toNat_err_le (c : RefuseCode) : c.err.toNat ≤ 4 := by cases c <;> decide

/-- A refusal with a code keeps the invariant (R236). -/
theorem State.Inv.refuse {s : State} (h : s.Inv) (c : RefuseCode) : (s.refuse c).Inv := by
  by_cases h0 : s.statusErr = 0
  · rw [State.refuse_of_unlocked h0]
    obtain ⟨hwf, hbelow, hsize, -, -⟩ := h
    exact ⟨hwf, hbelow, hsize, c.toNat_err_le, fun _ => rfl⟩
  · rw [State.refuse_of_locked h0]
    exact h.refuseLocked

/-- Clearing STATUS keeps the invariant (R242). -/
theorem State.Inv.clearStatus {s : State} (h : s.Inv) : s.clearStatus.Inv := by
  obtain ⟨hwf, hbelow, hsize, -, -⟩ := h
  exact ⟨hwf, hbelow, hsize, Nat.zero_le _, fun _ => rfl⟩

/-- A reset of the registers keeps the invariant: of what the invariant reads it changes STATUS alone (R260, R261). -/
theorem State.Inv.resetRegisters {s : State} (h : s.Inv) : s.resetRegisters.Inv := h.clearStatus

/-- A register write keeps the invariant: it leaves DMEM, and it leaves STATUS or clears it. -/
theorem State.Inv.writeReg {s : State} (h : s.Inv) (r : Reg) (k : Nat) (w : Word) : (s.writeReg r k w).Inv := by
  rcases s.writeReg_status r k w with ⟨-, heq, herr⟩ | ⟨-, hclear⟩
  · rwa [State.Inv, State.writeReg_dmem, State.writeReg_dmemBytes, heq, herr]
  · rw [hclear]
    exact h.clearStatus

/-! ### The invariant under commands -/

/-- A command that completes keeps the invariant: the bytes a stream command writes lie inside DMEM (R66). -/
theorem Completed.inv {i : Instr} {s t : State} (hc : Completed i s t) (h0 : s.statusErr = 0) (h : s.Inv) : t.Inv := by
  cases hc with
  | unchanged | out | tag => exact h
  | eq e | verify e => exact h.setEq h0 e
  | stream bs _ hlen hdst =>
    refine h.memWrite (hdst.imp (fun hz => ?_) fun hin => hlen ▸ hin)
    rw [← List.length_eq_zero_iff, hlen, hz]
    rfl

/-- Every write to CMD keeps the invariant. -/
theorem commandWrite_inv {w : Word} {s t : State} (hw : commandWrite w s = .next t) (h : s.Inv) : t.Inv := by
  rcases commandWrite_cases hw with ⟨-, rfl⟩ | ⟨i, -, -, hend⟩ | ⟨-, c, rfl⟩
  · exact h.resetRegisters
  · cases hend with
    | locked _ => exact h.refuseLocked
    | refused _ c => exact h.refuse c
    | completed h0 hc => exact hc.inv h0 h
  · exact h.refuse c

/-- A write to CMD leaves DMEM as it is, or the destination buffer lies inside DMEM (R66). -/
theorem commandWrite_dmem_eq_or_destOk {w : Word} {s t : State} (hw : commandWrite w s = .next t) :
    t.dmem = s.dmem ∨ s.bufferOk s.dst := by
  rcases commandWrite_cases hw with ⟨-, rfl⟩ | ⟨i, -, -, hend⟩ | ⟨-, c, rfl⟩
  · exact .inl s.resetRegisters_dmem
  · cases hend with
    | locked | refused => exact .inl rfl
    | completed _ hc =>
      cases hc with
      | stream _ _ _ hdst => exact .inr hdst
      | unchanged | out | eq | tag | verify => exact .inl rfl
  · exact .inl (s.refuse_dmem c)

/-- The DMEM that a command cut short leaves lists addresses below the bound only, if its destination buffer lies below
the bound (R263). -/
theorem Dmem.below_abortMix {old : Dmem} {size : Nat} (h : Dmem.below old size) (n : Nat) (new : Dmem) {dst len : Nat}
    (hin : len = 0 ∨ dst + len ≤ size) : Dmem.below (Dmem.abortMix n old new dst len) size := by
  refine Dmem.below_writeBytes h (hin.imp (fun hz => ?_) fun hle => ?_)
  · rw [hz]
    rfl
  · simpa using hle

/-- A command cut short keeps the invariant (R263). -/
theorem abortedState_inv {w : Word} {s u : State} (hw : commandWrite w s = .next u) (h : s.Inv) :
    (abortedState s u).Inv := by
  obtain ⟨hwf, hbelow, hsize, herr, heq⟩ := h.resetRegisters
  by_cases hsame : u.dmem = s.dmem
  · have hdmem : (abortedState s u).dmem = s.dmem := if_pos hsame
    exact ⟨by rwa [hdmem], by rwa [hdmem], hsize, herr, heq⟩
  · have hdmem : (abortedState s u).dmem =
        Dmem.abortMix s.aborts s.dmem u.dmem s.dst.toNat s.len.toNat := if_neg hsame
    have hdst := (commandWrite_dmem_eq_or_destOk hw).resolve_left hsame
    refine ⟨?_, ?_, hsize, herr, heq⟩
    · rw [hdmem]
      exact Dmem.wf_abortMix hwf _ _ _ _
    · rw [hdmem]
      exact Dmem.below_abortMix hbelow _ _ (hdst.imp_left (len_eq_zero_iff s.len).1)

/-! ### The invariant under a step -/

/-- Every transaction of the host keeps the invariant; a byte it writes lies inside DMEM (R61, R72). -/
theorem TxnEnd.inv {s t : State} {x : HostTxn} (hx : TxnEnd s x t) (h : s.Inv) : t.Inv := by
  cases hx with
  | wrote off w r k => exact h.writeReg r k w
  | command w hw => exact commandWrite_inv hw h
  | byteWritten a b ha => exact h.memWrite (.inr ha)
  | reset => exact h.resetRegisters
  | aborted w hw => exact abortedState_inv hw h
  | ignored | read | byteRead | tested | testedNot | skipped => exact h

/-- Settles O34: by `step_cases` a step is idle or ends a transaction, and every transaction keeps the invariant. -/
theorem invariantKeptByStep : Obligations.InvariantKeptByStep := by
  unfold Obligations.InvariantKeptByStep
  intro s t h hstep
  rcases step_cases hstep with ⟨-, rfl⟩ | ⟨x, rest, -, hx⟩
  · exact h
  · exact hx.inv h

/-! ### Words that encode no command (R232, R233) -/

/-- A word whose low byte is none of the twelve opcodes is illegal (R96). -/
theorem decode_illegal {w : Word} (hN : w.toNat % 256 ∉ opcodesN) (hS : w.toNat % 256 ∉ opcodesS) :
    decode w = .illegal := by
  have hne {k : Nat} (hk : k ∈ opcodesN ++ opcodesS) : w.toNat % 256 ≠ k := by
    rintro rfl
    exact (List.mem_append.1 hk).elim hN hS
  rw [decode_eq]
  iterate 12 rw [if_neg (hne (by decide))]

/-- A word with the opcode of a format S command and a bit set above OFF is reserved (R97). -/
theorem decode_reservedS {w : Word} {i : Instr} (hi : isStream i = true) (hopc : w.toNat % 256 = i.opcode)
    (hz : w.toNat / 2 ^ 14 ≠ 0) : decode w = .reserved := by
  have hS (form : Nat → Instr) : decodeS w form = .reserved := by rw [decodeS_eq, if_neg hz]
  rw [decode_eq, hopc]
  cases i with
  | s20Xor | s20Ks | xs20Xor | xs20Ks => exact hS _
  | _ => cases hi

/-- Each opcode of format N is that of a command of format N (R95). -/
theorem exists_instr_of_opcodesN {k : Nat} (h : k ∈ opcodesN) : ∃ i, isStream i = false ∧ k = i.opcode := by
  have hmap : opcodesN = [Instr.nop, .core, .hsal, .p1305Auth, .p1305Vfy, .ceq16, .ceq32, .srst].map Instr.opcode := rfl
  obtain ⟨i, hi, rfl⟩ := List.mem_map.1 (hmap ▸ h)
  exact ⟨i, (by decide : ∀ j ∈ _, isStream j = false) i hi, rfl⟩

/-- Each opcode of format S is that of a stream command (R95). -/
theorem exists_instr_of_opcodesS {k : Nat} (h : k ∈ opcodesS) : ∃ i, isStream i = true ∧ k = i.opcode := by
  have hmap : opcodesS = [Instr.s20Xor 0, .s20Ks 0, .xs20Xor 0, .xs20Ks 0].map Instr.opcode := rfl
  obtain ⟨i, hi, rfl⟩ := List.mem_map.1 (hmap ▸ h)
  exact ⟨i, (by decide : ∀ j ∈ _, isStream j = true) i hi, rfl⟩

/-- A word with a known opcode and a bit set in its reserved field is reserved (R97). -/
theorem decode_reserved {w : Word} (h : (w.toNat % 256 ∈ opcodesN ∧ w.toNat / 2 ^ 8 ≠ 0) ∨
    (w.toNat % 256 ∈ opcodesS ∧ w.toNat / 2 ^ 14 ≠ 0)) : decode w = .reserved := by
  rcases h with ⟨hmem, hz⟩ | ⟨hmem, hz⟩
  · obtain ⟨i, hi, hopc⟩ := exists_instr_of_opcodesN hmem
    exact decode_reservedN hi hopc hz
  · obtain ⟨i, hi, hopc⟩ := exists_instr_of_opcodesS hmem
    exact decode_reservedS hi hopc hz

/-- Settles O6: the word is illegal, and the refusal writes its code as ERR is 0. -/
theorem unknownOpcodeRefused : Obligations.UnknownOpcodeRefused := by
  unfold Obligations.UnknownOpcodeRefused
  intro s w rest hp h0 hN hS
  rw [step_command hp, commandWrite, decode_illegal hN hS]
  exact congrArg _ (State.refuse_of_unlocked (s := s.setPending rest) h0 .opcode)

/-- Settles O7: the word is reserved, and the refusal writes its code as ERR is 0. -/
theorem reservedBitsRefused : Obligations.ReservedBitsRefused := by
  unfold Obligations.ReservedBitsRefused
  intro s w rest hp h0 h
  rw [step_command hp, commandWrite, decode_reserved h]
  exact congrArg _ (State.refuse_of_unlocked (s := s.setPending rest) h0 .field)

/-! ### The lock (R237) -/

/-- A locked block refuses every word but that of SRST, one that encodes no command too (R237). -/
theorem commandWrite_of_locked {s : State} (hl : s.statusErr ≠ 0) {w : Word} (hw : w ≠ 0x0000007F) :
    commandWrite w s = .next s.refuseLocked := by
  obtain ⟨t, ht⟩ := commandWrite_next w s
  rw [ht]
  rcases commandWrite_cases ht with ⟨hd, -⟩ | ⟨i, -, -, hend⟩ | ⟨-, c, rfl⟩
  · exact absurd (eq_of_decode_srst hd) hw
  · cases hend with
    | locked _ => rfl
    | refused h0 | completed h0 => exact absurd h0 hl
  · rw [State.refuse_of_locked hl]

/-- The word of SRST resets the registers, locked or not (R222, R237). -/
theorem commandWrite_srst (s : State) : commandWrite 0x0000007F s = .next s.resetRegisters := by
  rw [commandWrite_of_decode (i := .srst) (by decide), exec_srst]

/-- Settles O8: the refusal of a locked block, and the three ways out of the lock: SRST, a write to STATUS, a reset. -/
theorem lockedBlockRunsOnlySrst : Obligations.LockedBlockRunsOnlySrst := by
  unfold Obligations.LockedBlockRunsOnlySrst
  refine fun s rest hl => ⟨fun w hp hw => ?_, fun hp => ?_, fun v hp => ?_, fun hp => ?_⟩
  · rw [step_command hp]
    exact commandWrite_of_locked (s := s.setPending rest) hl hw
  · rw [step_command hp]
    exact ⟨_, commandWrite_srst _, State.resetRegisters_atResetValues _, rfl⟩
  · exact step_of_regWrite hp (by decide) regAt_status nofun
  · exact ⟨_, step_cons hp, rfl⟩

/-! ### A refused command writes STATUS alone (R236) -/

/-- A refusal writes STATUS alone, and keeps an ERR that is not 0 (R36, R236). -/
theorem State.refuse_eq (s : State) (c : RefuseCode) :
    s.refuse c = { s with statusErr := (s.refuse c).statusErr, statusEq := false } ∧
      (s.statusErr ≠ 0 → (s.refuse c).statusErr = s.statusErr) :=
  ⟨rfl, fun hl => if_neg hl⟩

/-- A write to CMD that leaves ERR not 0 changes STATUS alone, and keeps an ERR that was not 0 (R36, R236). -/
theorem commandWrite_refused {w : Word} {s t : State} (h : commandWrite w s = .next t) (ht : t.statusErr ≠ 0) :
    t = { s with statusErr := t.statusErr, statusEq := false } ∧
      (s.statusErr ≠ 0 → t.statusErr = s.statusErr) := by
  rcases commandWrite_cases h with ⟨-, rfl⟩ | ⟨i, -, -, hend⟩ | ⟨-, c, rfl⟩
  · exact absurd s.resetRegisters_statusErr ht
  · rcases hend.refused_or_completed with ⟨e, -, hkept, rfl⟩ | ⟨h0, hc⟩
    · exact ⟨rfl, hkept⟩
    · exact absurd (hc.statusErr_eq.trans h0) ht
  · exact s.refuse_eq c

/-- Settles O10: the step is the write to CMD on the state without that transaction. -/
theorem refusedCommandHasNoPartialEffect : Obligations.RefusedCommandHasNoPartialEffect := by
  unfold Obligations.RefusedCommandHasNoPartialEffect
  intro s t w rest hp hstep ht
  rw [step_command hp] at hstep
  exact commandWrite_refused hstep ht

end Sys2Proof.Machine
end

section
/-!
PROOFS. The family 70_reset_and_hazards: a hardware reset between commands (R260, R261), and one that cuts a command
short (R263).
-/

namespace Sys2Proof.Machine

/-! ### A hardware reset between commands (R260, R261) -/

/-- Settles O37: the step is `State.resetRegisters`, which sets the registers alone. -/
theorem hardwareResetSetsRegisters : Obligations.HardwareResetSetsRegisters := by
  unfold Obligations.HardwareResetSetsRegisters
  intro s rest hp
  exact ⟨(s.setPending rest).resetRegisters, step_cons hp, State.resetRegisters_atResetValues _, rfl, rfl, rfl, rfl, rfl⟩

/-! ### A hardware reset during a command (R263) -/

/-- A step that cuts short a command which would lead to u. -/
theorem step_resetDuring {s u : State} {w : Word} {rest : List HostTxn} (hp : s.pending = .resetDuring w :: rest)
    (hw : commandWrite w (s.setPending rest) = .next u) : step s = .next (abortedState (s.setPending rest) u) := by
  rw [step_cons hp, hostTransact, hostResetDuring, hw]

/-- A command cut short leaves every register at its reset value, whatever it would have led to. -/
theorem abortedState_atResetValues (s u : State) : AtResetValues (abortedState s u) :=
  s.resetRegisters_atResetValues

/-- What a byte of DMEM reads as after a command was cut short: as before, or, in the destination buffer, as the whole
command leaves it. -/
theorem read_abortedState (s u : State) (a : Nat) :
    Dmem.read (abortedState s u).dmem a = Dmem.read s.dmem a ∨
      (s.dst.toNat ≤ a ∧ a < s.dst.toNat + s.len.toNat ∧
        Dmem.read (abortedState s u).dmem a = Dmem.read u.dmem a) := by
  simp only [abortedState]
  split
  · exact .inl rfl
  · exact read_abortMix _ _ _ _ _ a

/-- A command cut short leaves every byte outside the destination buffer. -/
theorem abortedState_sameOutside (s u : State) :
    SameOutside s.dst.toNat s.len.toNat s.dmem (abortedState s u).dmem := by
  intro a houtside
  refine (read_abortedState s u a).resolve_right ?_
  rintro ⟨hlo, hhi, -⟩
  omega

/-- Settles O38: the step is `abortedState`, whose bytes `read_abortedState` tells apart. -/
theorem resetDuringCommandLeavesOldOrNewBytes : Obligations.ResetDuringCommandLeavesOldOrNewBytes := by
  unfold Obligations.ResetDuringCommandLeavesOldOrNewBytes
  intro s u w rest hp hw
  refine ⟨abortedState (s.setPending rest) u, step_resetDuring hp hw, abortedState_atResetValues _ u, rfl, rfl,
    fun i _ => ?_, abortedState_sameOutside (s.setPending rest) u⟩
  exact (read_abortedState (s.setPending rest) u _).imp_right fun ⟨_, _, hnew⟩ => hnew

end Sys2Proof.Machine
end
